-- ==== Sys2Proof/Word.lean ====
section
/-! DEFINITION. The two word types of the machine: bytes (registers A to L, every memory cell) and 16-bit words (PC, SP,
the register pairs, every bus address). spec/10_state.md R20, R24, R25; spec/00_scope.md R6. -/

namespace Sys2Proof

/-- 8 bits: A, F, B, C, D, E, H, L and one memory byte (R20, R60). -/
abbrev Byte := BitVec 8

/-- 16 bits: PC, SP, the register pairs and bus addresses (R24, R25, R60). -/
abbrev Word := BitVec 16

end Sys2Proof
end

