-- ==== Sys2Proof/Syntax.lean ====
section
/-! DEFINITION. The instructions as syntax: one constructor of `Instr` for each mnemonic of spec/opcode_table.json (its
171 rows carry 115 mnemonics), with the operand index tables of spec/30_encoding.md R103. A suffix `AtHl`, `AtBc`, `AtDe`,
`AtNn` names the parenthesised memory operand of the spec's spelling (R110). -/

namespace Sys2Proof

/-- The seven 8-bit register operands `r8[i]`, i ≠ 6 (R103; index 6 is the memory operand (HL)). -/
inductive R8 where
  | b | c | d | e | h | l | a
deriving DecidableEq, Repr

/-- The pair operands `r16[p]` (R103). -/
inductive R16 where
  | bc | de | hl | sp
deriving DecidableEq, Repr

/-- The pair operands of PUSH and POP, `r16stk[p]` (R103). -/
inductive R16Stk where
  | bc | de | hl | af
deriving DecidableEq, Repr

/-- The conditions `cc[i]` (R103). -/
inductive Cond where
  | nz | z | nc | c
deriving DecidableEq, Repr

/-- One constructor per mnemonic of the opcode table, in the table's order. -/
inductive Instr where
  -- 8-bit loads, spec/40_load8.md R130 to R148
  | ldRR (dst src : R8)
  | ldRN (dst : R8) (n : Byte)
  | ldRAtHl (dst : R8)
  | ldAtHlR (src : R8)
  | ldAtHlN (n : Byte)
  | ldAAtBc
  | ldAAtDe
  | ldAtBcA
  | ldAtDeA
  | ldAAtNn (nn : Word)
  | ldAtNnA (nn : Word)
  | ldhAAtC
  | ldhAtCA
  | ldhAAtN (n : Byte)
  | ldhAtNA (n : Byte)
  | ldAtHliA
  | ldAAtHli
  | ldAtHldA
  | ldAAtHld
  -- 16-bit loads and the stack, spec/41_load16.md R160 to R165
  | ldRrNn (dst : R16) (nn : Word)
  | ldAtNnSp (nn : Word)
  | ldSpHl
  | ldHlSpE (e : Byte)
  | push (src : R16Stk)
  | pop (dst : R16Stk)
  -- 8-bit arithmetic and logic, spec/42_alu8.md R180 to R211
  | addR (src : R8)
  | addAtHl
  | addN (n : Byte)
  | adcR (src : R8)
  | adcAtHl
  | adcN (n : Byte)
  | subR (src : R8)
  | subAtHl
  | subN (n : Byte)
  | sbcR (src : R8)
  | sbcAtHl
  | sbcN (n : Byte)
  | andR (src : R8)
  | andAtHl
  | andN (n : Byte)
  | xorR (src : R8)
  | xorAtHl
  | xorN (n : Byte)
  | orR (src : R8)
  | orAtHl
  | orN (n : Byte)
  | cpR (src : R8)
  | cpAtHl
  | cpN (n : Byte)
  | incR (dst : R8)
  | incAtHl
  | decR (dst : R8)
  | decAtHl
  | daa
  | cpl
  | scf
  | ccf
  -- 16-bit arithmetic, spec/43_alu16.md R221 to R224
  | addHlRr (src : R16)
  | incRr (dst : R16)
  | decRr (dst : R16)
  | addSpE (e : Byte)
  -- rotates, shifts and bit operations, spec/44_rotate_shift_bit.md R231 to R256
  | rlca
  | rrca
  | rla
  | rra
  | rlcR (dst : R8)
  | rlcAtHl
  | rrcR (dst : R8)
  | rrcAtHl
  | rlR (dst : R8)
  | rlAtHl
  | rrR (dst : R8)
  | rrAtHl
  | slaR (dst : R8)
  | slaAtHl
  | sraR (dst : R8)
  | sraAtHl
  | swapR (dst : R8)
  | swapAtHl
  | srlR (dst : R8)
  | srlAtHl
  | bitR (b : Fin 8) (src : R8)
  | bitAtHl (b : Fin 8)
  | resR (b : Fin 8) (dst : R8)
  | resAtHl (b : Fin 8)
  | setR (b : Fin 8) (dst : R8)
  | setAtHl (b : Fin 8)
  -- control flow, spec/45_control_flow.md R270 to R280
  | jpNn (nn : Word)
  | jpCc (cc : Cond) (nn : Word)
  | jpHl
  | jrE (e : Byte)
  | jrCc (cc : Cond) (e : Byte)
  | callNn (nn : Word)
  | callCc (cc : Cond) (nn : Word)
  | ret
  | retCc (cc : Cond)
  | reti
  /-- `t` is the target byte, one of $00, $08, …, $38: `WellFormed` checks it (R280). -/
  | rst (t : Byte)
  -- system, spec/46_system.md R290 to R296
  | nop
  | halt
  | stop
  | di
  | ei
  /-- The `$CB` byte by itself, the table's one-byte row PREFIX_CB (R295). A `$CB` byte with the byte that follows it
  decodes to the operation the pair selects. -/
  | prefixCb
  | undefD3
  | undefDB
  | undefDD
  | undefE3
  | undefE4
  | undefEB
  | undefEC
  | undefED
  | undefF4
  | undefFC
  | undefFD
deriving DecidableEq, Repr

end Sys2Proof
end

