-- ==== Sys2Proof/WellFormed.lean ====
section
/-! DEFINITION. Which terms of `Instr` an encoding exists for. The operand types already exclude register index 6 and bit
numbers above 7; what is left to check is the target of RST (spec/45_control_flow.md R280). -/

namespace Sys2Proof

/-- A target RST can name: a multiple of 8 up to $38, that is, no bit outside `opcode & $38` (R280). -/
def rstTargetOk (t : Byte) : Bool := (t &&& 0xC7#8) == 0#8

/-- An instruction some bytes encode. -/
def Instr.wellFormed : Instr → Bool
  | .rst t => rstTargetOk t
  | .ldRR _ _ | .ldRN _ _ | .ldRAtHl _ | .ldAtHlR _ | .ldAtHlN _ | .ldAAtBc | .ldAAtDe | .ldAtBcA | .ldAtDeA
  | .ldAAtNn _ | .ldAtNnA _ | .ldhAAtC | .ldhAtCA | .ldhAAtN _ | .ldhAtNA _ | .ldAtHliA | .ldAAtHli | .ldAtHldA
  | .ldAAtHld | .ldRrNn _ _ | .ldAtNnSp _ | .ldSpHl | .ldHlSpE _ | .push _ | .pop _ | .addR _ | .addAtHl | .addN _
  | .adcR _ | .adcAtHl | .adcN _ | .subR _ | .subAtHl | .subN _ | .sbcR _ | .sbcAtHl | .sbcN _ | .andR _ | .andAtHl
  | .andN _ | .xorR _ | .xorAtHl | .xorN _ | .orR _ | .orAtHl | .orN _ | .cpR _ | .cpAtHl | .cpN _ | .incR _
  | .incAtHl | .decR _ | .decAtHl | .daa | .cpl | .scf | .ccf | .addHlRr _ | .incRr _ | .decRr _ | .addSpE _ | .rlca
  | .rrca | .rla | .rra | .rlcR _ | .rlcAtHl | .rrcR _ | .rrcAtHl | .rlR _ | .rlAtHl | .rrR _ | .rrAtHl | .slaR _
  | .slaAtHl | .sraR _ | .sraAtHl | .swapR _ | .swapAtHl | .srlR _ | .srlAtHl | .bitR _ _ | .bitAtHl _ | .resR _ _
  | .resAtHl _ | .setR _ _ | .setAtHl _ | .jpNn _ | .jpCc _ _ | .jpHl | .jrE _ | .jrCc _ _ | .callNn _ | .callCc _ _
  | .ret | .retCc _ | .reti | .nop | .halt | .stop | .di | .ei | .prefixCb | .undefD3 | .undefDB | .undefDD
  | .undefE3 | .undefE4 | .undefEB | .undefEC | .undefED | .undefF4 | .undefFC | .undefFD => true

end Sys2Proof
end

