-- ==== Sys2Proof/Decode.lean ====
section
/-! DEFINITION. From bytes to instructions (spec/30_encoding.md R100 to R113), then back (`encode`), both written from the
field tables of R102, R103, R105 and R106, and the opcode table's own numbering of an instruction's bits. -/

namespace Sys2Proof

/-! ### The fields of an opcode byte (R102) -/

/-- `op[7:6]`, the quadrant. -/
def opX (op : Byte) : BitVec 2 := op.extractLsb' 6 2
/-- `op[5:3]`. -/
def opY (op : Byte) : BitVec 3 := op.extractLsb' 3 3
/-- `op[2:0]`. -/
def opZ (op : Byte) : BitVec 3 := op.extractLsb' 0 3
/-- `op[5:4]`, the pair index. -/
def opP (op : Byte) : BitVec 2 := op.extractLsb' 4 2
/-- `op[3]`. -/
def opQ (op : Byte) : Bool := op.getLsbD 3
/-- `op[4:3]`, the condition index. -/
def opCc (op : Byte) : BitVec 2 := op.extractLsb' 3 2

/-! ### The index tables (R103) -/

/-- An 8-bit operand as an index names it: a register, or for index 6 the byte at address HL. -/
inductive Operand8 where
  | reg (r : R8)
  | atHl
deriving DecidableEq, Repr

/-- Column `r8` of R103. -/
def operandOf (i : BitVec 3) : Operand8 :=
  if i = 0#3 then .reg .b else if i = 1#3 then .reg .c else if i = 2#3 then .reg .d else if i = 3#3 then .reg .e
  else if i = 4#3 then .reg .h else if i = 5#3 then .reg .l else if i = 6#3 then .atHl else .reg .a

/-- Column `r16` of R103. -/
def r16Of (p : BitVec 2) : R16 :=
  if p = 0#2 then .bc else if p = 1#2 then .de else if p = 2#2 then .hl else .sp

/-- Column `r16stk` of R103. -/
def r16StkOf (p : BitVec 2) : R16Stk :=
  if p = 0#2 then .bc else if p = 1#2 then .de else if p = 2#2 then .hl else .af

/-- Column `cc` of R103. -/
def condOf (i : BitVec 2) : Cond :=
  if i = 0#2 then .nz else if i = 1#2 then .z else if i = 2#2 then .nc else .c

/-- The bit number a CB opcode's `y` field holds (R106). -/
def bitOf (y : BitVec 3) : Fin 8 := y.toFin

/-! ### Decoding -/

/-- `op = $CB`, the prefix byte (R105, R295). -/
def isPrefixCb (op : Byte) : Bool := op == 0xCB#8

/-- Quadrant 0 of R105; `n1`, `n2` are the bytes after the opcode. -/
def decodeX0 (op n1 n2 : Byte) : Instr :=
  match (opZ op).toNat with
  | 0 =>
    match (opY op).toNat with
    | 0 => .nop
    | 1 => .ldAtNnSp (n2 ++ n1)
    | 2 => .stop
    | 3 => .jrE n1
    | _ => .jrCc (condOf (opCc op)) n1
  | 1 => if opQ op then .addHlRr (r16Of (opP op)) else .ldRrNn (r16Of (opP op)) (n2 ++ n1)
  | 2 =>
    match (opY op).toNat with
    | 0 => .ldAtBcA
    | 1 => .ldAAtBc
    | 2 => .ldAtDeA
    | 3 => .ldAAtDe
    | 4 => .ldAtHliA
    | 5 => .ldAAtHli
    | 6 => .ldAtHldA
    | _ => .ldAAtHld
  | 3 => if opQ op then .decRr (r16Of (opP op)) else .incRr (r16Of (opP op))
  | 4 => match operandOf (opY op) with | .reg r => .incR r | .atHl => .incAtHl
  | 5 => match operandOf (opY op) with | .reg r => .decR r | .atHl => .decAtHl
  | 6 => match operandOf (opY op) with | .reg r => .ldRN r n1 | .atHl => .ldAtHlN n1
  | _ =>
    match (opY op).toNat with
    | 0 => .rlca
    | 1 => .rrca
    | 2 => .rla
    | 3 => .rra
    | 4 => .daa
    | 5 => .cpl
    | 6 => .scf
    | _ => .ccf

/-- Quadrant 1 of R105: the byte moves, and HALT in the slot of (HL) to (HL). -/
def decodeX1 (op : Byte) : Instr :=
  match operandOf (opY op), operandOf (opZ op) with
  | .reg r, .reg r' => .ldRR r r'
  | .reg r, .atHl => .ldRAtHl r
  | .atHl, .reg r' => .ldAtHlR r'
  | .atHl, .atHl => .halt

/-- Quadrant 2 of R105: `alu[y] A,r8[z]` (R178). -/
def decodeX2 (op : Byte) : Instr :=
  match (opY op).toNat with
  | 0 => match operandOf (opZ op) with | .reg r => .addR r | .atHl => .addAtHl
  | 1 => match operandOf (opZ op) with | .reg r => .adcR r | .atHl => .adcAtHl
  | 2 => match operandOf (opZ op) with | .reg r => .subR r | .atHl => .subAtHl
  | 3 => match operandOf (opZ op) with | .reg r => .sbcR r | .atHl => .sbcAtHl
  | 4 => match operandOf (opZ op) with | .reg r => .andR r | .atHl => .andAtHl
  | 5 => match operandOf (opZ op) with | .reg r => .xorR r | .atHl => .xorAtHl
  | 6 => match operandOf (opZ op) with | .reg r => .orR r | .atHl => .orAtHl
  | _ => match operandOf (opZ op) with | .reg r => .cpR r | .atHl => .cpAtHl

/-- Quadrant 3 of R105, the eleven undefined opcodes of R107 among them. -/
def decodeX3 (op n1 n2 : Byte) : Instr :=
  match (opZ op).toNat with
  | 0 =>
    match (opY op).toNat with
    | 4 => .ldhAtNA n1
    | 5 => .addSpE n1
    | 6 => .ldhAAtN n1
    | 7 => .ldHlSpE n1
    | _ => .retCc (condOf (opCc op))
  | 1 =>
    match (opY op).toNat with
    | 1 => .ret
    | 3 => .reti
    | 5 => .jpHl
    | 7 => .ldSpHl
    | _ => .pop (r16StkOf (opP op))
  | 2 =>
    match (opY op).toNat with
    | 4 => .ldhAtCA
    | 5 => .ldAtNnA (n2 ++ n1)
    | 6 => .ldhAAtC
    | 7 => .ldAAtNn (n2 ++ n1)
    | _ => .jpCc (condOf (opCc op)) (n2 ++ n1)
  | 3 =>
    match (opY op).toNat with
    | 0 => .jpNn (n2 ++ n1)
    | 1 => .prefixCb
    | 2 => .undefD3
    | 3 => .undefDB
    | 4 => .undefE3
    | 5 => .undefEB
    | 6 => .di
    | _ => .ei
  | 4 =>
    match (opY op).toNat with
    | 4 => .undefE4
    | 5 => .undefEC
    | 6 => .undefF4
    | 7 => .undefFC
    | _ => .callCc (condOf (opCc op)) (n2 ++ n1)
  | 5 =>
    match (opY op).toNat with
    | 1 => .callNn (n2 ++ n1)
    | 3 => .undefDD
    | 5 => .undefED
    | 7 => .undefFD
    | _ => .push (r16StkOf (opP op))
  | 6 =>
    match (opY op).toNat with
    | 0 => .addN n1
    | 1 => .adcN n1
    | 2 => .subN n1
    | 3 => .sbcN n1
    | 4 => .andN n1
    | 5 => .xorN n1
    | 6 => .orN n1
    | _ => .cpN n1
  | _ => .rst (op &&& 0x38#8)

/-- The primary table (R105): the instruction of an opcode byte with the two bytes after it, of which it uses as many as
`operandBytes` says. -/
def decodePrimary (op n1 n2 : Byte) : Instr :=
  match (opX op).toNat with
  | 0 => decodeX0 op n1 n2
  | 1 => decodeX1 op
  | 2 => decodeX2 op
  | _ => decodeX3 op n1 n2

/-- Quadrant 0 of the CB table (R106): `rot[y] r8[z]`. -/
def decodeRot (k : Byte) : Instr :=
  match (opY k).toNat with
  | 0 => match operandOf (opZ k) with | .reg r => .rlcR r | .atHl => .rlcAtHl
  | 1 => match operandOf (opZ k) with | .reg r => .rrcR r | .atHl => .rrcAtHl
  | 2 => match operandOf (opZ k) with | .reg r => .rlR r | .atHl => .rlAtHl
  | 3 => match operandOf (opZ k) with | .reg r => .rrR r | .atHl => .rrAtHl
  | 4 => match operandOf (opZ k) with | .reg r => .slaR r | .atHl => .slaAtHl
  | 5 => match operandOf (opZ k) with | .reg r => .sraR r | .atHl => .sraAtHl
  | 6 => match operandOf (opZ k) with | .reg r => .swapR r | .atHl => .swapAtHl
  | _ => match operandOf (opZ k) with | .reg r => .srlR r | .atHl => .srlAtHl

/-- The CB table (R106): the operation the byte after `$CB` selects. All 256 values are defined. -/
def decodeCb (k : Byte) : Instr :=
  match (opX k).toNat with
  | 0 => decodeRot k
  | 1 => match operandOf (opZ k) with | .reg r => .bitR (bitOf (opY k)) r | .atHl => .bitAtHl (bitOf (opY k))
  | 2 => match operandOf (opZ k) with | .reg r => .resR (bitOf (opY k)) r | .atHl => .resAtHl (bitOf (opY k))
  | _ => match operandOf (opZ k) with | .reg r => .setR (bitOf (opY k)) r | .atHl => .setAtHl (bitOf (opY k))

/-- How many bytes follow the opcode byte (R100: "number of immediate operand bytes (0/1/2)"; the second byte of a `$CB`
pair counts as one here). A function of the first byte alone. -/
def operandBytes (op : Byte) : Nat :=
  match (opX op).toNat, (opZ op).toNat with
  | 0, 0 => match (opY op).toNat with | 0 => 0 | 1 => 2 | 2 => 0 | _ => 1
  | 0, 1 => if opQ op then 0 else 2
  | 0, 6 => 1
  | 3, 0 => if (opY op).toNat < 4 then 0 else 1
  | 3, 2 => match (opY op).toNat with | 4 => 0 | 6 => 0 | _ => 2
  | 3, 3 => match (opY op).toNat with | 0 => 2 | 1 => 1 | _ => 0
  | 3, 4 => if (opY op).toNat < 4 then 2 else 0
  | 3, 5 => if (opY op).toNat = 1 then 2 else 0
  | 3, 6 => 1
  | _, _ => 0

/-- The instruction of an opcode byte and the two bytes after it, the `$CB` pairs among them. Every byte value decodes
(R113). -/
def decodeBytes (op n1 n2 : Byte) : Instr :=
  if isPrefixCb op then decodeCb n1 else decodePrimary op n1 n2

/-- Why a byte list is no instruction. -/
inductive DecodeError where
  /-- there is no byte at all -/
  | noBytes
  /-- the list ends before the operand bytes of this opcode do -/
  | truncated (op : Byte)
deriving DecidableEq, Repr

/-- What the decoder answers. -/
inductive Decoded where
  /-- the instruction, and the bytes after it -/
  | instr (i : Instr) (rest : List Byte)
  | rejected (why : DecodeError)
deriving DecidableEq, Repr

/-- The decoder over a byte list (R109): the first byte gives the length. A `$CB` byte that ends the list is the prefix by
itself (log entry 7). -/
def decode : List Byte → Decoded
  | [] => .rejected .noBytes
  | op :: rest =>
    match operandBytes op, rest with
    | 0, rest => .instr (decodeBytes op 0#8 0#8) rest
    | 1, n1 :: rest => .instr (decodeBytes op n1 0#8) rest
    | 2, n1 :: n2 :: rest => .instr (decodeBytes op n1 n2) rest
    | _, rest => if isPrefixCb op && rest.isEmpty then .instr .prefixCb [] else .rejected (.truncated op)

/-! ### The opcode table's numbering -/

/-- The bytes of a table row's word. A 16-bit word of a CB_OP row is `byte0 * 256 + byte1` with byte 0 = `$CB` (R112);
any other word is laid out from bit 0 up, the first byte lowest (log entry 6). -/
def tableBytes (nbits w : Nat) : List Byte :=
  if nbits = 16 ∧ w / 256 % 256 = 0xCB then [0xCB#8, BitVec.ofNat 8 w]
  else (List.range (nbits / 8)).map fun i => BitVec.ofNat 8 (w / 256 ^ i)

/-- The instruction the decoder reads from a table row's word, with the operand bytes the row leaves out zero. The row
PREFIX_CB is one byte long and has none. -/
def decodeTableWord (nbits w : Nat) : Option Instr :=
  let bytes := tableBytes nbits w
  match decode (if bytes = [0xCB#8] then bytes else bytes ++ [0#8, 0#8]) with
  | .instr i _ => some i
  | .rejected _ => none

/-! ### Encoding -/

/-- Row number of a register in column `r8` of R103. -/
def R8.index : R8 → BitVec 3
  | .b => 0#3 | .c => 1#3 | .d => 2#3 | .e => 3#3 | .h => 4#3 | .l => 5#3 | .a => 7#3

/-- Row number of a pair in column `r16` of R103. -/
def R16.index : R16 → BitVec 2
  | .bc => 0#2 | .de => 1#2 | .hl => 2#2 | .sp => 3#2

/-- Row number of a pair in column `r16stk` of R103. -/
def R16Stk.index : R16Stk → BitVec 2
  | .bc => 0#2 | .de => 1#2 | .hl => 2#2 | .af => 3#2

/-- Row number of a condition in column `cc` of R103. -/
def Cond.index : Cond → BitVec 2
  | .nz => 0#2 | .z => 1#2 | .nc => 2#2 | .c => 3#2

/-- Index 6 of column `r8`: the byte at HL. -/
def atHlIndex : BitVec 3 := 6#3

/-- An opcode byte from its fields `x`, `y`, `z`. -/
def opXYZ (x : BitVec 2) (y z : BitVec 3) : Byte := x ++ y ++ z
/-- An opcode byte from its fields `x`, `p`, `q`, `z`. -/
def opXPQZ (x p : BitVec 2) (q : BitVec 1) (z : BitVec 3) : Byte := x ++ p ++ q ++ z
/-- A conditional opcode of quadrant 3 (`11 0cc zzz`). -/
def opCond3 (cc : Cond) (z : BitVec 3) : Byte := 3#2 ++ 0#1 ++ cc.index ++ z
/-- Byte 1, then byte 2 of a 16-bit immediate: the low byte first (R104). -/
def imm16 (nn : Word) : List Byte := [nn.extractLsb' 0 8, nn.extractLsb' 8 8]
/-- The bytes of a CB pair (R101, format CB_OP). -/
def cbPair (k : Byte) : List Byte := [0xCB#8, k]

/-- The bytes of an instruction (R101, R105, R106, and the "Encoding:" line of each instruction's rule). For an RST whose
target no opcode can name, the opcode of the target's bits 5 to 3. -/
def encode : Instr → List Byte
  | .ldRR r r' => [opXYZ 1#2 r.index r'.index]
  | .ldRN r n => [opXYZ 0#2 r.index 6#3, n]
  | .ldRAtHl r => [opXYZ 1#2 r.index atHlIndex]
  | .ldAtHlR r => [opXYZ 1#2 atHlIndex r.index]
  | .ldAtHlN n => [0x36#8, n]
  | .ldAAtBc => [0x0A#8]
  | .ldAAtDe => [0x1A#8]
  | .ldAtBcA => [0x02#8]
  | .ldAtDeA => [0x12#8]
  | .ldAAtNn nn => 0xFA#8 :: imm16 nn
  | .ldAtNnA nn => 0xEA#8 :: imm16 nn
  | .ldhAAtC => [0xF2#8]
  | .ldhAtCA => [0xE2#8]
  | .ldhAAtN n => [0xF0#8, n]
  | .ldhAtNA n => [0xE0#8, n]
  | .ldAtHliA => [0x22#8]
  | .ldAAtHli => [0x2A#8]
  | .ldAtHldA => [0x32#8]
  | .ldAAtHld => [0x3A#8]
  | .ldRrNn p nn => opXPQZ 0#2 p.index 0#1 1#3 :: imm16 nn
  | .ldAtNnSp nn => 0x08#8 :: imm16 nn
  | .ldSpHl => [0xF9#8]
  | .ldHlSpE e => [0xF8#8, e]
  | .push p => [opXPQZ 3#2 p.index 0#1 5#3]
  | .pop p => [opXPQZ 3#2 p.index 0#1 1#3]
  | .addR r => [opXYZ 2#2 0#3 r.index]
  | .addAtHl => [0x86#8]
  | .addN n => [0xC6#8, n]
  | .adcR r => [opXYZ 2#2 1#3 r.index]
  | .adcAtHl => [0x8E#8]
  | .adcN n => [0xCE#8, n]
  | .subR r => [opXYZ 2#2 2#3 r.index]
  | .subAtHl => [0x96#8]
  | .subN n => [0xD6#8, n]
  | .sbcR r => [opXYZ 2#2 3#3 r.index]
  | .sbcAtHl => [0x9E#8]
  | .sbcN n => [0xDE#8, n]
  | .andR r => [opXYZ 2#2 4#3 r.index]
  | .andAtHl => [0xA6#8]
  | .andN n => [0xE6#8, n]
  | .xorR r => [opXYZ 2#2 5#3 r.index]
  | .xorAtHl => [0xAE#8]
  | .xorN n => [0xEE#8, n]
  | .orR r => [opXYZ 2#2 6#3 r.index]
  | .orAtHl => [0xB6#8]
  | .orN n => [0xF6#8, n]
  | .cpR r => [opXYZ 2#2 7#3 r.index]
  | .cpAtHl => [0xBE#8]
  | .cpN n => [0xFE#8, n]
  | .incR r => [opXYZ 0#2 r.index 4#3]
  | .incAtHl => [0x34#8]
  | .decR r => [opXYZ 0#2 r.index 5#3]
  | .decAtHl => [0x35#8]
  | .daa => [0x27#8]
  | .cpl => [0x2F#8]
  | .scf => [0x37#8]
  | .ccf => [0x3F#8]
  | .addHlRr p => [opXPQZ 0#2 p.index 1#1 1#3]
  | .incRr p => [opXPQZ 0#2 p.index 0#1 3#3]
  | .decRr p => [opXPQZ 0#2 p.index 1#1 3#3]
  | .addSpE e => [0xE8#8, e]
  | .rlca => [0x07#8]
  | .rrca => [0x0F#8]
  | .rla => [0x17#8]
  | .rra => [0x1F#8]
  | .rlcR r => cbPair (opXYZ 0#2 0#3 r.index)
  | .rlcAtHl => cbPair 0x06#8
  | .rrcR r => cbPair (opXYZ 0#2 1#3 r.index)
  | .rrcAtHl => cbPair 0x0E#8
  | .rlR r => cbPair (opXYZ 0#2 2#3 r.index)
  | .rlAtHl => cbPair 0x16#8
  | .rrR r => cbPair (opXYZ 0#2 3#3 r.index)
  | .rrAtHl => cbPair 0x1E#8
  | .slaR r => cbPair (opXYZ 0#2 4#3 r.index)
  | .slaAtHl => cbPair 0x26#8
  | .sraR r => cbPair (opXYZ 0#2 5#3 r.index)
  | .sraAtHl => cbPair 0x2E#8
  | .swapR r => cbPair (opXYZ 0#2 6#3 r.index)
  | .swapAtHl => cbPair 0x36#8
  | .srlR r => cbPair (opXYZ 0#2 7#3 r.index)
  | .srlAtHl => cbPair 0x3E#8
  | .bitR b r => cbPair (opXYZ 1#2 (BitVec.ofFin b) r.index)
  | .bitAtHl b => cbPair (opXYZ 1#2 (BitVec.ofFin b) atHlIndex)
  | .resR b r => cbPair (opXYZ 2#2 (BitVec.ofFin b) r.index)
  | .resAtHl b => cbPair (opXYZ 2#2 (BitVec.ofFin b) atHlIndex)
  | .setR b r => cbPair (opXYZ 3#2 (BitVec.ofFin b) r.index)
  | .setAtHl b => cbPair (opXYZ 3#2 (BitVec.ofFin b) atHlIndex)
  | .jpNn nn => 0xC3#8 :: imm16 nn
  | .jpCc cc nn => opCond3 cc 2#3 :: imm16 nn
  | .jpHl => [0xE9#8]
  | .jrE e => [0x18#8, e]
  | .jrCc cc e => [0#2 ++ 1#1 ++ cc.index ++ 0#3, e]
  | .callNn nn => 0xCD#8 :: imm16 nn
  | .callCc cc nn => opCond3 cc 4#3 :: imm16 nn
  | .ret => [0xC9#8]
  | .retCc cc => [opCond3 cc 0#3]
  | .reti => [0xD9#8]
  | .rst t => [opXYZ 3#2 (t.extractLsb' 3 3) 7#3]
  | .nop => [0x00#8]
  | .halt => [0x76#8]
  | .stop => [0x10#8]
  | .di => [0xF3#8]
  | .ei => [0xFB#8]
  | .prefixCb => [0xCB#8]
  | .undefD3 => [0xD3#8]
  | .undefDB => [0xDB#8]
  | .undefDD => [0xDD#8]
  | .undefE3 => [0xE3#8]
  | .undefE4 => [0xE4#8]
  | .undefEB => [0xEB#8]
  | .undefEC => [0xEC#8]
  | .undefED => [0xED#8]
  | .undefF4 => [0xF4#8]
  | .undefFC => [0xFC#8]
  | .undefFD => [0xFD#8]

end Sys2Proof
end

