-- ==== Sys2Proof/Config.lean ====
section
/-! DEFINITION. What is fixed for the machine and not changed by running it: the choice spec/46_system.md R296 leaves to
the launch (UNDEF_POLICY), the byte an unlisted cell of a memory image reads as, and the two units outside the block that a
launch may supply, the cartridge and EXT_IO, as functions nothing is known of. -/

namespace Sys2Proof

/-- The launch parameter UNDEF_POLICY (spec/00_scope.md R6, spec/46_system.md R296): what an undefined opcode does. -/
inductive UndefPolicy where
  /-- stop the run for inspection (the spec's decided default, D10) -/
  | fault
  /-- treat the opcode as a 4-cycle no-operation -/
  | nop
deriving DecidableEq, Repr

/-- What a cell that a memory image does not list reads as: $00, the default of the launch parameter `init` for VRAM,
WRAM, OAM and HRAM (spec/10_state.md R41, R42); the same byte pads the ROM and BIOS images. DESIGN CHOICE, log entry 1. -/
def Config.unlisted : Byte := 0x00#8

/-! ### What the launch may supply (spec/00_scope.md R6, D15, D16)

The parameters CART and EXT_IO, where they are not the spec's defaults. Each has states of its own, numbered; what it answers
and which state it goes to is left free, so that a claim holds for every such unit. Log entry 14. -/

/-- `CartRead(a)` of a cartridge with ROM `rom` in state `n` (banks and RAM, spec/20_memory.md R66). -/
opaque Config.cartRead (rom n : Nat) : Word → Byte

/-- The state `CartWrite(a, v)` leaves that cartridge in; its ROM stays (R66). -/
opaque Config.cartWrite (rom n : Nat) : Word → Byte → Nat

/-- What an EXT_IO device in state `n` gives to a read of `a` (R71). -/
opaque Config.extIoRead (n : Nat) : Word → Byte

/-- The state that read leaves the device in, for a read may have side effects there (R79), and the IF bits it sets
(spec/61_devices.md R422). -/
opaque Config.extIoAfterRead (n : Nat) : Word → Nat × BitVec 5

/-- The state a write leaves the device in, and the IF bits it sets (R71, R422). -/
opaque Config.extIoAfterWrite (n : Nat) : Word → Byte → Nat × BitVec 5

end Sys2Proof
end

