-- ==== Sys2Proof/Machine/State.lean ====
section
/-! DEFINITION. Everything the spec gives the machine to hold (spec/10_state.md R20 to R43), as plain data, the reasons a
step can stop, and the state after reset. -/

namespace Sys2Proof.Machine

/-- The CPU register file (R20, R24, R25). The pairs AF, BC, DE, HL are views of these bytes (R21). -/
structure Regs where
  a : Byte
  /-- Z, N, H, C in bits 7 to 4 (R22); bits 3 to 0 are hardwired zero: every write goes through `Regs.setF` (R23) -/
  f : Byte
  b : Byte
  c : Byte
  d : Byte
  e : Byte
  h : Byte
  l : Byte
  sp : Word
  pc : Word
deriving DecidableEq, Repr

/-- The timer chain (R34, R360). -/
structure Timer where
  /-- the 16-bit T-cycle counter whose high byte is DIV -/
  divCounter : BitVec 16
  tima : Byte
  tma : Byte
  /-- the three stored bits of TAC: 2 enable, 1 to 0 rate -/
  tac : BitVec 3
  /-- T-cycles left between a TIMA overflow and the reload, 0 when none is running -/
  timaDelay : Nat
deriving DecidableEq, Repr

/-- The PPU's two-bit state (R36, R382). -/
inductive Mode where
  /-- mode 0 -/
  | hblank
  /-- mode 1 -/
  | vblank
  /-- mode 2 -/
  | oamScan
  /-- mode 3 -/
  | rendering
deriving DecidableEq, Repr

/-- One line of 160 shades (R403). -/
abbrev PixelRow := Vector (BitVec 2) 160

/-- The PPU's registers (R35) and its internal state (R36). -/
structure Ppu where
  lcdc : Byte
  /-- STAT bits 6 to 3, the interrupt source enables: bit 3 here is STAT bit 6 -/
  statEnables : BitVec 4
  scy : Byte
  scx : Byte
  ly : Byte
  lyc : Byte
  bgp : Byte
  obp0 : Byte
  obp1 : Byte
  wy : Byte
  wx : Byte
  mode : Mode
  /-- T-cycle position inside the line, 0 to 455 -/
  lineCycle : Nat
  /-- the stored result of the last LY = LYC comparison -/
  coincidence : Bool
  /-- OAM indices of the line's sprites, best priority first -/
  lineSprites : List (Fin 40)
  /-- 144 rows of 160 two-bit shades -/
  framebuffer : Vector PixelRow 144
  frameCount : Nat
deriving DecidableEq, Repr

/-- The part of the CGB-only state (R39) whose format the spec gives: KEY1 bit 0 and the speed (R425, R426). -/
structure Cgb where
  key1Request : Bool
  doubleSpeed : Bool
deriving DecidableEq, Repr

/-- The launch parameter CART (R6): the cartridge, outside the block but answering its bus (spec/20_memory.md R66). -/
inductive Cart where
  /-- the spec's default (D15): 32 KiB of ROM, which the memory image holds, no bank registers, no RAM -/
  | noMbc
  /-- another cartridge, with ROM number `rom`, in state number `n` -/
  | other (rom n : Nat)
deriving DecidableEq, Repr

/-- The launch parameter EXT_IO (R6): what answers at the I/O addresses the block does not own (spec/20_memory.md R71). -/
inductive ExtIo where
  /-- the spec's default (D16): nothing -/
  | absent
  /-- a device, in state number `n` -/
  | device (n : Nat)
deriving DecidableEq, Repr

/-- The whole machine. -/
structure State where
  regs : Regs
  /-- T-cycles since launch, unbounded (R27, D40) -/
  cyclesTotal : Nat
  /-- interrupt master enable (R28) -/
  ime : Bool
  /-- the counter of the `EI` delay, 0 to 2 (R29) -/
  imePending : Nat
  halted : Bool
  stopped : Bool
  /-- the next opcode fetch does not advance PC (R31) -/
  haltBug : Bool
  /-- IF, bit n for interrupt n (R33, R351) -/
  intFlags : BitVec 5
  /-- IE (R33, R352) -/
  intEnable : BitVec 5
  timer : Timer
  ppu : Ppu
  /-- the ROM image, VRAM, WRAM, OAM and HRAM (R37, R62), each byte under its bus address, in the form of `Memory.wf` -/
  mem : List Host.Cell
  /-- the BIOS image (R6), in the same form -/
  bios : List Host.Cell
  /-- the BIOS overlay is mapped (R38) -/
  biosEnabled : Bool
  /-- T-cycles left of an OAM DMA lockout, 0 to 640 (R38) -/
  dmaRemaining : Nat
  /-- launch parameter UNDEF_POLICY (R6); nothing writes it -/
  undefPolicy : UndefPolicy
  /-- launch parameter CGB (R6): `none` is the DMG, which has none of the CGB-only state (R39) -/
  cgb : Option Cgb
  /-- launch parameter CART with the cartridge's own state (R6, R66) -/
  cart : Cart
  /-- launch parameter EXT_IO with the device's own state (R6, R71) -/
  extIo : ExtIo
deriving DecidableEq, Repr

/-- Why the machine stops by its own rules. -/
inductive Fault where
  /-- `UndefinedOpcode` (R316): raised by the eleven undefined opcodes under UNDEF_POLICY = fault, and by nothing else.
  Carries the opcode byte and the state the stopped run hands to the host (R296). Safe: the spec itself stops here. -/
  | undefinedOpcode (opcode : Byte) (handedOver : State)
deriving DecidableEq, Repr

/-- Why the model refuses an instruction. -/
inductive Refusal where
  /-- An instruction without a meaning yet, raised by its arm of `exec`. No arm uses it now. Safe: the model stops where
  the machine goes on. -/
  | notModelled (mnemonic : String)
deriving DecidableEq, Repr

/-- The DMG register file as the boot ROM leaves it (R42). -/
def Regs.postBoot : Regs where
  a := 0x01#8
  f := 0xB0#8
  b := 0x00#8
  c := 0x13#8
  d := 0x00#8
  e := 0xD8#8
  h := 0x01#8
  l := 0x4D#8
  sp := 0xFFFE#16
  pc := 0x0100#16

/-- The PPU at the first T-cycle of line 0 with the register values of R42, given the sprite scan of that line. -/
def Ppu.postBoot (sprites : List (Fin 40)) : Ppu where
  lcdc := 0x91#8
  statEnables := 0#4
  scy := 0#8
  scx := 0#8
  ly := 0#8
  lyc := 0#8
  bgp := 0xFC#8
  obp0 := 0xFF#8
  obp1 := 0xFF#8
  wy := 0#8
  wx := 0#8
  mode := .oamScan
  lineCycle := 0
  coincidence := true
  lineSprites := sprites
  framebuffer := Vector.replicate 144 (Vector.replicate 160 0#2)
  frameCount := 0

/-- The PPU of R41: every register $00, the LCD off. -/
def Ppu.powerOn : Ppu where
  lcdc := 0#8
  statEnables := 0#4
  scy := 0#8
  scx := 0#8
  ly := 0#8
  lyc := 0#8
  bgp := 0#8
  obp0 := 0#8
  obp1 := 0#8
  wy := 0#8
  wx := 0#8
  mode := .hblank
  lineCycle := 0
  coincidence := true
  lineSprites := []
  framebuffer := Vector.replicate 144 (Vector.replicate 160 0#2)
  frameCount := 0

/-- The machine right after reset: RESET_PROFILE `post_boot`, the spec's decided default (R42, R431, D20), with the memories
at their default $00 (nothing listed), UNDEF_POLICY = fault (D10), CGB = false (D3), and the default CART and EXT_IO (D15,
D16). Log entries 1, 2, 3, 4, 14. -/
def State.reset : State where
  regs := Regs.postBoot
  cyclesTotal := 0
  ime := false
  imePending := 0
  halted := false
  stopped := false
  haltBug := false
  intFlags := 0x01#5
  intEnable := 0x00#5
  timer := { divCounter := 0xABCC#16, tima := 0#8, tma := 0#8, tac := 0#3, timaDelay := 0 }
  ppu := Ppu.postBoot []
  mem := []
  bios := []
  biosEnabled := false
  dmaRemaining := 0
  undefPolicy := .fault
  cgb := none
  cart := .noMbc
  extIo := .absent

end Sys2Proof.Machine
end

