-- ==== Sys2Proof/Machine/Flags.lean ====
section
/-! DEFINITION. The flags and every computation that sets them: spec/10_state.md R22, R23; spec/42_alu8.md R175 to R211;
spec/43_alu16.md R220, R221; spec/44_rotate_shift_bit.md R230. All of these are pure functions of bytes and words. -/

namespace Sys2Proof.Machine

/-- The four flags of F (R22). -/
structure Flags where
  z : Bool
  n : Bool
  h : Bool
  c : Bool
deriving DecidableEq, Repr

/-- The flags a byte of F holds: Z bit 7, N bit 6, H bit 5, C bit 4 (R22). -/
def flagsOfByte (f : Byte) : Flags where
  z := f.getLsbD 7
  n := f.getLsbD 6
  h := f.getLsbD 5
  c := f.getLsbD 4

/-- `z * $80 + n * $40 + h * $20 + c * $10` (R12): the low nibble is zero. -/
def byteOfFlags (fl : Flags) : Byte :=
  BitVec.ofBool fl.z ++ BitVec.ofBool fl.n ++ BitVec.ofBool fl.h ++ BitVec.ofBool fl.c ++ 0#4

/-- `v[3:0]` as a number. -/
def lowNibble (v : Byte) : Nat := v.toNat % 16

/-- `Add8` (R175). -/
def add8 (a b : Byte) (cin : Bool) : Byte × Flags :=
  let sum := a.toNat + b.toNat + cin.toNat
  let res := BitVec.ofNat 8 sum
  (res, { z := res == 0#8, n := false, h := decide (lowNibble a + lowNibble b + cin.toNat > 15), c := decide (sum > 255) })

/-- `Sub8` (R176). -/
def sub8 (a b : Byte) (cin : Bool) : Byte × Flags :=
  let res := a - b - BitVec.ofNat 8 cin.toNat
  (res, { z := res == 0#8, n := true, h := decide (lowNibble a < lowNibble b + cin.toNat),
          c := decide (a.toNat < b.toNat + cin.toNat) })

/-- `And8` (R177). -/
def and8 (a b : Byte) : Byte × Flags :=
  (a &&& b, { z := (a &&& b) == 0#8, n := false, h := true, c := false })

/-- `Xor8` (R177). -/
def xor8 (a b : Byte) : Byte × Flags :=
  (a ^^^ b, { z := (a ^^^ b) == 0#8, n := false, h := false, c := false })

/-- `Or8` (R177). -/
def or8 (a b : Byte) : Byte × Flags :=
  (a ||| b, { z := (a ||| b) == 0#8, n := false, h := false, c := false })

/-- The byte and flags of `INC r` and `INC (HL)` (R204, R205): C is kept. -/
def inc8 (old : Byte) (fl : Flags) : Byte × Flags :=
  (old + 1#8, { z := (old + 1#8) == 0#8, n := false, h := lowNibble old == 15, c := fl.c })

/-- The byte and flags of `DEC r` and `DEC (HL)` (R206, R207): C is kept. -/
def dec8 (old : Byte) (fl : Flags) : Byte × Flags :=
  (old - 1#8, { z := (old - 1#8) == 0#8, n := true, h := lowNibble old == 0, c := fl.c })

/-- `DAA` after an addition (R208, branch F.N = 0). -/
def daaAfterAdd (a : Byte) (fl : Flags) : Byte × Bool :=
  let high := fl.c || decide (a.toNat > 0x99)
  let low := fl.h || decide (lowNibble a > 9)
  (a + (if high then 0x60#8 else 0#8) + (if low then 0x06#8 else 0#8), high)

/-- `DAA` after a subtraction (R208, branch F.N = 1): C is never changed. -/
def daaAfterSub (a : Byte) (fl : Flags) : Byte × Bool :=
  (a - (if fl.c then 0x60#8 else 0#8) - (if fl.h then 0x06#8 else 0#8), fl.c)

/-- `DAA` (R208): Z from the result, N kept, H cleared. -/
def daa8 (a : Byte) (fl : Flags) : Byte × Flags :=
  let r := if fl.n then daaAfterSub a fl else daaAfterAdd a fl
  (r.1, { z := r.1 == 0#8, n := fl.n, h := false, c := r.2 })

/-- The sum and flags of `ADD HL,rr` (R221): H from bit 11, C from bit 15, Z kept. -/
def addHl16 (a b : Word) (fl : Flags) : Word × Flags :=
  (a + b, { z := fl.z, n := false, h := decide (a.toNat % 4096 + b.toNat % 4096 > 4095),
            c := decide (a.toNat + b.toNat > 65535) })

/-- `sext16(e)` (R11). -/
def sext16 (e : Byte) : Word := e.signExtend 16

/-- `AddSpE` with the flags its two users set (R220, R163, R224): Z and N cleared, H and C from the unsigned addition of
the low byte of `sp` and the raw displacement byte. -/
def addSpE16 (sp : Word) (e : Byte) : Word × Flags :=
  (sp + sext16 e, { z := false, n := false, h := decide (sp.toNat % 16 + lowNibble e > 15),
                    c := decide (sp.toNat % 256 + e.toNat > 255) })

/-- The eight functions `rot[y]` (R230). -/
inductive Rot where
  | rlc | rrc | rl | rr | sla | sra | swap | srl
deriving DecidableEq, Repr

/-- Result and carry out of a rotate or shift (R230). -/
def rotate (f : Rot) (v : Byte) (cin : Bool) : Byte × Bool :=
  match f with
  | .rlc => (v.extractLsb' 0 7 ++ v.extractLsb' 7 1, v.getLsbD 7)
  | .rrc => (v.extractLsb' 0 1 ++ v.extractLsb' 1 7, v.getLsbD 0)
  | .rl => (v.extractLsb' 0 7 ++ BitVec.ofBool cin, v.getLsbD 7)
  | .rr => (BitVec.ofBool cin ++ v.extractLsb' 1 7, v.getLsbD 0)
  | .sla => (v.extractLsb' 0 7 ++ 0#1, v.getLsbD 7)
  | .sra => (v.extractLsb' 7 1 ++ v.extractLsb' 1 7, v.getLsbD 0)
  | .swap => (v.extractLsb' 0 4 ++ v.extractLsb' 4 4, false)
  | .srl => (0#1 ++ v.extractLsb' 1 7, v.getLsbD 0)

/-- Result and flags of a CB rotate or shift: `Flags(result = 0, 0, 0, carry_out)` (R230). -/
def rotCb (f : Rot) (v : Byte) (fl : Flags) : Byte × Flags :=
  let r := rotate f v fl.c
  (r.1, { z := r.1 == 0#8, n := false, h := false, c := r.2 })

/-- Result and flags of an accumulator rotate: `Flags(0, 0, 0, carry_out)` (R230). -/
def rotAcc (f : Rot) (v : Byte) (fl : Flags) : Byte × Flags :=
  let r := rotate f v fl.c
  (r.1, { z := false, n := false, h := false, c := r.2 })

/-- The flags of `BIT b` (R251, R252): C is kept. -/
def bitFlags (b : Fin 8) (v : Byte) (fl : Flags) : Flags where
  z := !v.getLsbD b.val
  n := false
  h := true
  c := fl.c

/-- `v & ~(1 << b)` (R253). -/
def resBit (b : Fin 8) (v : Byte) : Byte := v &&& ~~~(1#8 <<< b.val)

/-- `v | (1 << b)` (R255). -/
def setBit (b : Fin 8) (v : Byte) : Byte := v ||| (1#8 <<< b.val)

end Sys2Proof.Machine
end

