-- ==== Sys2Proof/Machine/Operands.lean ====
section
/-! DEFINITION. The register operands: reading and writing `r8[i]`, `r16[p]`, `r16stk[p]`, the flags and PC, and testing a
condition (spec/00_scope.md R12; spec/10_state.md R20 to R25; spec/30_encoding.md R103). Every read and write of a CPU register
goes through here. -/

namespace Sys2Proof.Machine

/-! ### Bytes and words -/

/-- `hi8 ++ lo8` (R11). -/
def wordOf (hi lo : Byte) : Word := hi ++ lo
/-- `v[15:8]`. -/
def hiByte (v : Word) : Byte := v.extractLsb' 8 8
/-- `v[7:0]`. -/
def loByte (v : Word) : Byte := v.extractLsb' 0 8
/-- `$FF00 + zext16(n)` (R141, R143). -/
def ioAddr (n : Byte) : Word := 0xFF00#16 + n.zeroExtend 16

/-! ### The register file -/

/-- The byte register `r` names. -/
def Regs.get (g : Regs) : R8 → Byte
  | .b => g.b | .c => g.c | .d => g.d | .e => g.e | .h => g.h | .l => g.l | .a => g.a

/-- The register file with `v` in the byte register `r` names. -/
def Regs.set (g : Regs) (r : R8) (v : Byte) : Regs :=
  match r with
  | .b => { g with b := v }
  | .c => { g with c := v }
  | .d => { g with d := v }
  | .e => { g with e := v }
  | .h => { g with h := v }
  | .l => { g with l := v }
  | .a => { g with a := v }

/-- A write of F: bits 3 to 0 are hardwired zero (R23). -/
def Regs.setF (g : Regs) (v : Byte) : Regs := { g with f := v &&& 0xF0#8 }

/-- The pair `r16[p]`, the first-named register high (R21). -/
def Regs.pair (g : Regs) : R16 → Word
  | .bc => wordOf g.b g.c
  | .de => wordOf g.d g.e
  | .hl => wordOf g.h g.l
  | .sp => g.sp

/-- The register file with `v` in the pair `r16[p]`: both halves (R21). -/
def Regs.setPair (g : Regs) (p : R16) (v : Word) : Regs :=
  match p with
  | .bc => { g with b := hiByte v, c := loByte v }
  | .de => { g with d := hiByte v, e := loByte v }
  | .hl => { g with h := hiByte v, l := loByte v }
  | .sp => { g with sp := v }

/-- The pair `r16stk[p]` (R164). -/
def Regs.stackPair (g : Regs) : R16Stk → Word
  | .bc => g.pair .bc
  | .de => g.pair .de
  | .hl => g.pair .hl
  | .af => wordOf g.a g.f

/-- The register file with `v` in the pair `r16stk[p]`; AF keeps the low nibble of F zero (R165). -/
def Regs.setStackPair (g : Regs) (p : R16Stk) (v : Word) : Regs :=
  match p with
  | .bc => g.setPair .bc v
  | .de => g.setPair .de v
  | .hl => g.setPair .hl v
  | .af => { g with a := hiByte v }.setF (loByte v)

/-! ### The same on a state -/

def State.r8 (s : State) (r : R8) : Byte := s.regs.get r
def State.setR8 (s : State) (r : R8) (v : Byte) : State := { s with regs := s.regs.set r v }
def State.r16 (s : State) (p : R16) : Word := s.regs.pair p
def State.setR16 (s : State) (p : R16) (v : Word) : State := { s with regs := s.regs.setPair p v }
def State.r16Stk (s : State) (p : R16Stk) : Word := s.regs.stackPair p
def State.setR16Stk (s : State) (p : R16Stk) (v : Word) : State := { s with regs := s.regs.setStackPair p v }
def State.hl (s : State) : Word := s.regs.pair .hl
def State.setPc (s : State) (v : Word) : State := { s with regs := { s.regs with pc := v } }
def State.setSp (s : State) (v : Word) : State := { s with regs := { s.regs with sp := v } }

/-- The flags F holds (R22). -/
def State.flags (s : State) : Flags := flagsOfByte s.regs.f

/-- `Flags(z, n, h, c)` of R12. -/
def State.setFlags (s : State) (fl : Flags) : State := { s with regs := s.regs.setF (byteOfFlags fl) }

/-- A and the flags together: the result of every accumulator operation. -/
def State.setAFlags (s : State) (r : Byte × Flags) : State := (s.setR8 .a r.1).setFlags r.2

/-- Whether condition `cc` holds (R103). -/
def condHolds (cc : Cond) (fl : Flags) : Bool :=
  match cc with
  | .nz => !fl.z
  | .z => fl.z
  | .nc => !fl.c
  | .c => fl.c

end Sys2Proof.Machine
end

