-- ==== Sys2Proof/Machine/Memory.lean ====
section
/-! DEFINITION. A memory image: a list of (address, byte) pairs in one canonical form, so that equal images are equal data.
ROM, VRAM, WRAM, OAM and HRAM are arrays of bytes (spec/10_state.md R37; spec/20_memory.md R62) that share no bus address,
so one list holds all of them under their bus addresses. -/

namespace Sys2Proof.Machine

/-- The byte of the image at `a`. -/
def Memory.read : List Host.Cell → Nat → Byte
  | [], _ => Config.unlisted
  | (k, w) :: rest, a => if k = a then w else Memory.read rest a

/-- The image with `v` at `a`; a cell that would hold what an unlisted one reads as is left out. -/
def Memory.write : List Host.Cell → Nat → Byte → List Host.Cell
  | [], a, v => if v = Config.unlisted then [] else [(a, v)]
  | (k, w) :: rest, a, v =>
    if a < k then (if v = Config.unlisted then (k, w) :: rest else (a, v) :: (k, w) :: rest)
    else if a = k then (if v = Config.unlisted then rest else (a, v) :: rest)
    else (k, w) :: Memory.write rest a v

/-- The bytes `vs` stored from `a` upwards. -/
def Memory.writeBytes (m : List Host.Cell) (a : Nat) : List Byte → List Host.Cell
  | [] => m
  | v :: vs => Memory.writeBytes (Memory.write m a v) (a + 1) vs

/-- The canonical form: addresses strictly rising, no entry equal to what an unlisted address reads as. -/
def Memory.wf : List Host.Cell → Bool
  | [] => true
  | (k, v) :: rest => v != Config.unlisted && rest.all (fun c => decide (k < c.1)) && Memory.wf rest

end Sys2Proof.Machine
end

