-- ==== Sys2Proof/Machine/Timer.lean ====
section
/-! DEFINITION. The timer chain, one T-cycle at a time, and its registers' writes: spec/61_devices.md R360 to R371. -/

namespace Sys2Proof.Machine

/-- A device sets IF bit `n`, whether or not IE or `ime` allow the interrupt (R311, R351). -/
def State.raise (s : State) (n : Nat) : State := { s with intFlags := s.intFlags ||| (1#5 <<< n) }

/-- `TacBit` (R370): the counter bit whose falling edge counts TIMA. -/
def tacBit (rate : BitVec 2) : Nat :=
  if rate = 0#2 then 9 else if rate = 1#2 then 3 else if rate = 2#2 then 5 else 7

/-- The counter bit TAC selects. -/
def timerBit (t : Timer) : Nat := tacBit (t.tac.extractLsb' 0 2)

/-- TAC bit 2 (R365). -/
def timerOn (t : Timer) : Bool := t.tac.getLsbD 2

/-- `IncTIMA()` (R367). -/
def incTima (t : Timer) : Timer :=
  if t.tima = 0xFF#8 then { t with tima := 0#8, timaDelay := 4 } else { t with tima := t.tima + 1#8 }

/-- The reload delay of one T-cycle (R366): when it ends, TIMA is TMA and the TIMER interrupt is flagged (R368, R369). -/
def reloadTick (s : State) : State :=
  match s.timer.timaDelay with
  | 0 => s
  | 1 => { s with timer := { s.timer with tima := s.timer.tma, timaDelay := 0 } }.raise 2
  | d + 2 => { s with timer := { s.timer with timaDelay := d + 1 } }

/-- The edge test of R366 and R362: TIMA counts when the selected bit was 1 in `old` and is 0 in the counter now. -/
def edgeTick (old : BitVec 16) (t : Timer) : Timer :=
  if timerOn t && old.getLsbD (timerBit t) && !t.divCounter.getLsbD (timerBit t) then incTima t else t

/-- `TimerTick()` (R366). -/
def timerTick (s : State) : State :=
  let old := s.timer.divCounter
  let s1 := reloadTick { s with timer := { s.timer with divCounter := old + 1#16 } }
  { s1 with timer := edgeTick old s1.timer }

/-- A write to DIV (R362): all 16 bits are cleared, a falling edge like any other. -/
def divWrite (t : Timer) : Timer := edgeTick t.divCounter { t with divCounter := 0#16 }

/-- A write to TIMA (R363): it cancels a reload in progress. -/
def timaWrite (t : Timer) (v : Byte) : Timer := { t with tima := v, timaDelay := 0 }

end Sys2Proof.Machine
end

