-- ==== Sys2Proof/Machine/Video.lean ====
section
/-! DEFINITION. The PPU: its state machine one T-cycle at a time (spec/61_devices.md R385 to R391), the sprite scan (R398) and
the scanline rasterizer (R395 to R402). The PPU reads VRAM and OAM directly, never through the lockouts (R380, R85). -/

namespace Sys2Proof.Machine

/-! ### Registers and their fields -/

/-- STAT bits 1 to 0 (R382). -/
def modeBits : Mode → BitVec 2
  | .hblank => 0#2
  | .vblank => 1#2
  | .oamScan => 2#2
  | .rendering => 3#2

/-- LCDC bit 7, the PPU runs (R381). -/
def lcdOn (p : Ppu) : Bool := p.lcdc.getLsbD 7
/-- Height of every sprite, LCDC bit 2 (R381, R405). -/
def spriteHeight (p : Ppu) : Nat := if p.lcdc.getLsbD 2 then 16 else 8
/-- STAT bit `n`, one of the stored bits 3 to 6 (R382). -/
def statEnable (p : Ppu) (n : Nat) : Bool := p.statEnables.getLsbD (n - 3)

/-- `IF[1] <- 1` when STAT bit `n` enables the event (R391). -/
def raiseStat (n : Nat) (s : State) : State := if statEnable s.ppu n then s.raise 1 else s

/-! ### Sprite scan (R398) -/

/-- The T-cycle geometry of a frame (R385, R386). -/
def lineCycles : Nat := 456
def scanCycles : Nat := 80
def renderEnd : Nat := 252
def visibleLines : Nat := 144
def frameLines : Nat := 154

/-- Byte `k` of OAM entry `i` (R395). -/
def oamByte (m : List Host.Cell) (i : Fin 40) (k : Nat) : Byte := Memory.read m (0xFE00 + 4 * i.val + k)

/-- `OAM[4i] - 16 <= LY < OAM[4i] - 16 + h`, in exact integers. -/
def spriteOnLine (m : List Host.Cell) (h : Nat) (y : Nat) (i : Fin 40) : Bool :=
  decide ((oamByte m i 0).toNat ≤ y + 16) && decide (y + 16 < (oamByte m i 0).toNat + h)

/-- The key order (OAM[4i + 1], i): X first, then OAM index. -/
def spriteBefore (m : List Host.Cell) (i j : Fin 40) : Bool :=
  decide ((oamByte m i 1).toNat < (oamByte m j 1).toNat) ||
    (oamByte m i 1 == oamByte m j 1 && decide (i.val ≤ j.val))

/-- Insertion into a list sorted by `before`. -/
def insertSprite (before : Fin 40 → Fin 40 → Bool) (i : Fin 40) : List (Fin 40) → List (Fin 40)
  | [] => [i]
  | j :: rest => if before i j then i :: j :: rest else j :: insertSprite before i rest

/-- The list sorted by `before`. -/
def sortSprites (before : Fin 40 → Fin 40 → Bool) : List (Fin 40) → List (Fin 40)
  | [] => []
  | i :: rest => insertSprite before i (sortSprites before rest)

/-- The sprites of line `y` with height `h`: at most ten, best priority first. -/
def spritesOfLine (m : List Host.Cell) (h y : Nat) : List (Fin 40) :=
  (sortSprites (spriteBefore m) ((List.finRange 40).filter (spriteOnLine m h y))).take 10

/-- `SpriteScan()`. -/
def spriteScan (s : State) : State :=
  { s with ppu := { s.ppu with lineSprites := spritesOfLine s.mem (spriteHeight s.ppu) s.ppu.ly.toNat } }

/-! ### Rasterizer (R396 to R402) -/

/-- Shade of colour index `i` in palette register `p`: `(P >> (2 * i)) & 3` (R402). -/
def shadeOf (p : Byte) (i : BitVec 2) : BitVec 2 := p.extractLsb' (2 * i.toNat) 2

/-- Colour index of column `c` (0 leftmost) in the pattern row at VRAM bus address `rowAddr` (R396). -/
def patternPixel (m : List Host.Cell) (rowAddr c : Nat) : BitVec 2 :=
  BitVec.ofBool ((Memory.read m (rowAddr + 1)).getLsbD (7 - c)) ++ BitVec.ofBool ((Memory.read m rowAddr).getLsbD (7 - c))

/-- Address of the pattern of background or window tile `t`: `$8000 + 16 * t`, or from `$9000` with `t` signed (R396). -/
def bgPattern (p : Ppu) (t : Byte) : Nat :=
  if p.lcdc.getLsbD 4 then 0x8000 + 16 * t.toNat else (0x9000 + 16 * t.toInt).toNat

/-- Whether screen pixel (x, y) lies in the window (R400). -/
def inWindow (p : Ppu) (y x : Nat) : Bool :=
  p.lcdc.getLsbD 5 && decide (p.wx.toNat ≤ x + 7) && decide (p.wy.toNat ≤ y)

/-- The tile map base a map-select bit names (R397). -/
def mapBase (sel : Bool) : Nat := if sel then 0x9C00 else 0x9800

/-- Colour index of pixel (px, py) of the tile map at `map` (R397, R399). -/
def mapPixel (m : List Host.Cell) (p : Ppu) (map py px : Nat) : BitVec 2 :=
  patternPixel m (bgPattern p (Memory.read m (map + 32 * (py / 8) + px / 8)) + 2 * (py % 8)) (px % 8)

/-- `bg[x]` on line `y` (R399, R400). -/
def bgIndex (m : List Host.Cell) (p : Ppu) (y x : Nat) : BitVec 2 :=
  if !p.lcdc.getLsbD 0 then 0#2
  else if inWindow p y x then mapPixel m p (mapBase (p.lcdc.getLsbD 6)) (y - p.wy.toNat) (x + 7 - p.wx.toNat)
  else mapPixel m p (mapBase (p.lcdc.getLsbD 3)) ((y + p.scy.toNat) % 256) ((x + p.scx.toNat) % 256)

/-- The background's shade at (x, y): BGP's, or 0 with LCDC bit 0 clear (R399). -/
def bgShade (m : List Host.Cell) (p : Ppu) (y x : Nat) : BitVec 2 :=
  if p.lcdc.getLsbD 0 then shadeOf p.bgp (bgIndex m p y x) else 0#2

/-- VRAM address of the pattern row that sprite `i` shows on line `y`; `none` when OAM or LCDC bit 2 moved it off the line
since the scan (R401). -/
def spriteRowAddr (m : List Host.Cell) (p : Ppu) (y : Nat) (i : Fin 40) : Option Nat :=
  let h := spriteHeight p
  if spriteOnLine m h y i then
    let down := y + 16 - (oamByte m i 0).toNat
    let row := if (oamByte m i 3).getLsbD 6 then h - 1 - down else down
    let tile := (oamByte m i 2).toNat
    if h = 16 then some (0x8000 + 16 * (tile / 2 * 2 + row / 8) + 2 * (row % 8)) else some (0x8000 + 16 * tile + 2 * row)
  else none

/-- Column `c` of a sprite onto the row (R401): clipped at the edges, transparent at index 0, hidden behind background
indices 1 to 3 when attribute bit 7 says so. -/
def drawSpriteColumn (m : List Host.Cell) (p : Ppu) (y : Nat) (i : Fin 40) (rowAddr : Nat) (line : PixelRow) (c : Nat) :
    PixelRow :=
  let at8 := (oamByte m i 1).toNat + c
  let attr := oamByte m i 3
  let idx := patternPixel m rowAddr (if attr.getLsbD 5 then 7 - c else c)
  if 8 ≤ at8 ∧ at8 ≤ 167 ∧ idx ≠ 0#2 ∧ (attr.getLsbD 7 = false ∨ bgIndex m p y (at8 - 8) = 0#2) then
    line.setIfInBounds (at8 - 8) (shadeOf (if attr.getLsbD 4 then p.obp1 else p.obp0) idx)
  else line

/-- One sprite onto the row, columns 0 to 7 (R401). -/
def drawSprite (m : List Host.Cell) (p : Ppu) (y : Nat) (line : PixelRow) (i : Fin 40) : PixelRow :=
  match spriteRowAddr m p y i with
  | none => line
  | some rowAddr => (List.range 8).foldl (drawSpriteColumn m p y i rowAddr) line

/-- The order sprites win in, best first: the scan's own order, on CGB the OAM index alone (R401, R429). -/
def drawOrder (cgb : Option Cgb) (sprites : List (Fin 40)) : List (Fin 40) :=
  match cgb with
  | none => sprites
  | some _ => sortSprites (fun i j => decide (i.val ≤ j.val)) sprites

/-- The 160 shades of line `y`: the background, then the sprites from the worst priority to the best (R399, R401). -/
def renderedLine (m : List Host.Cell) (p : Ppu) (cgb : Option Cgb) (y : Nat) : PixelRow :=
  let background : PixelRow := Vector.ofFn fun x => bgShade m p y x.val
  if p.lcdc.getLsbD 1 then (drawOrder cgb p.lineSprites).reverse.foldl (drawSprite m p y) background else background

/-- `RenderLine()` (R399, R403): the whole line at once, into its row of the framebuffer. -/
def renderLine (s : State) : State :=
  { s with ppu := { s.ppu with
      framebuffer := s.ppu.framebuffer.setIfInBounds s.ppu.ly.toNat (renderedLine s.mem s.ppu s.cgb s.ppu.ly.toNat) } }

/-! ### State machine (R385 to R391) -/

/-- `LYCompare()` (R389). -/
def lyCompare (s : State) : State :=
  let s1 := { s with ppu := { s.ppu with coincidence := s.ppu.ly == s.ppu.lyc } }
  if s1.ppu.coincidence then raiseStat 6 s1 else s1

/-- `EnterMode2()` (R387). -/
def enterMode2 (s : State) : State :=
  spriteScan (raiseStat 5 { s with ppu := { s.ppu with mode := .oamScan } })

/-- `EnterMode3()` (R387). -/
def enterMode3 (s : State) : State := renderLine { s with ppu := { s.ppu with mode := .rendering } }

/-- `EnterMode0()` (R387). -/
def enterMode0 (s : State) : State := raiseStat 3 { s with ppu := { s.ppu with mode := .hblank } }

/-- `EnterVBlank()` (R388). -/
def enterVBlank (s : State) : State :=
  raiseStat 4 ({ s with ppu := { s.ppu with mode := .vblank, frameCount := s.ppu.frameCount + 1 } }.raise 0)

/-- The end of a line (R385): the next line number, its comparison, and the mode it starts in. -/
def endOfLine (s : State) : State :=
  let s1 := lyCompare { s with ppu := { s.ppu with
    lineCycle := 0, ly := BitVec.ofNat 8 ((s.ppu.ly.toNat + 1) % frameLines) } }
  if s1.ppu.ly.toNat = visibleLines then enterVBlank s1
  else if s1.ppu.ly.toNat < visibleLines then enterMode2 s1
  else s1

/-- What reaching T-cycle `lineCycle` of a line does (R385). -/
def lineEvent (s : State) : State :=
  if s.ppu.lineCycle = lineCycles then endOfLine s
  else if s.ppu.ly.toNat < visibleLines ∧ s.ppu.lineCycle = scanCycles then enterMode3 s
  else if s.ppu.ly.toNat < visibleLines ∧ s.ppu.lineCycle = renderEnd then enterMode0 s
  else s

/-- `PpuTick()` (R385): nothing with the LCD off. -/
def ppuTick (s : State) : State :=
  if lcdOn s.ppu then lineEvent { s with ppu := { s.ppu with lineCycle := s.ppu.lineCycle + 1 } } else s

/-! ### Writes that act (R384, R390) -/

/-- A write to LY, whatever the byte (R384). -/
def lyWrite (s : State) : State := lyCompare { s with ppu := { s.ppu with ly := 0#8 } }

/-- A write to LCDC: the byte is stored, then the off and on actions if bit 7 changed (R381, R390). -/
def lcdcWrite (s : State) (v : Byte) : State :=
  let s1 := { s with ppu := { s.ppu with lcdc := v } }
  if lcdOn s.ppu && !v.getLsbD 7 then
    lyCompare { s1 with ppu := { s1.ppu with ly := 0#8, mode := .hblank, lineCycle := 0 } }
  else if !lcdOn s.ppu && v.getLsbD 7 then
    enterMode2 (lyCompare { s1 with ppu := { s1.ppu with ly := 0#8, lineCycle := 0 } })
  else s1

end Sys2Proof.Machine
end

