-- ==== Sys2Proof/Machine/Bus.lean ====
section
/-! DEFINITION. The bus as the CPU sees it: `BusRead` and `BusWrite`, region by region (spec/20_memory.md R60 to R75), the I/O
registers the block owns (spec/61_devices.md R350 to R393), OAM DMA (R415, R416), and the edge of the block: the cartridge
(R66) and EXT_IO (R71). Neither primitive advances time (spec/00_scope.md R13). -/

namespace Sys2Proof.Machine

/-! ### The map (R60) -/

/-- The rows of the address map. -/
inductive Region where
  | rom | vram | cartRam | wram | echo | oam | unusable | io | hram | ie
deriving DecidableEq, Repr

/-- The region of an address; the ranges cover all 65,536 addresses once (R61). -/
def regionOf (a : Word) : Region :=
  let n := a.toNat
  if n < 0x8000 then .rom
  else if n < 0xA000 then .vram
  else if n < 0xC000 then .cartRam
  else if n < 0xE000 then .wram
  else if n < 0xFE00 then .echo
  else if n < 0xFEA0 then .oam
  else if n < 0xFF00 then .unusable
  else if n < 0xFF80 then .io
  else if n < 0xFFFF then .hram
  else .ie

/-- What the bus gives where nothing answers: "unmapped reads return `$FF`" (R74). -/
def openBus : Byte := 0xFF#8

/-! ### Outside the block -/

/-- `CartRead(a)` (R66): the default cartridge has 32 KiB of flat ROM and no RAM (D15). -/
def cartRead (s : State) (a : Word) : Byte :=
  match s.cart with
  | .noMbc => if a.toNat < 0x8000 then Memory.read s.mem a.toNat else openBus
  | .other rom n => Config.cartRead rom n a

/-- `CartWrite(a, v)` (R66): the default cartridge has no bank registers and no RAM, and no cartridge's ROM ever changes. -/
def cartWrite (s : State) (a : Word) (v : Byte) : State :=
  match s.cart with
  | .noMbc => s
  | .other rom n => { s with cart := .other rom (Config.cartWrite rom n a v) }

/-- What EXT_IO gives to a read (R71): `$FF` by default (D16). -/
def extIoRead (s : State) (a : Word) : Byte :=
  match s.extIo with
  | .absent => openBus
  | .device n => Config.extIoRead n a

/-- An access of an EXT_IO device: its next state, and the IF bits the access sets (R422). -/
def extIoMove (s : State) (r : Nat × BitVec 5) : State :=
  { s with extIo := .device r.1, intFlags := s.intFlags ||| r.2 }

/-- The side effect of a read of EXT_IO (R79, R422): by default none (D16). -/
def extIoAfterRead (s : State) (a : Word) : State :=
  match s.extIo with
  | .absent => s
  | .device n => extIoMove s (Config.extIoAfterRead n a)

/-- A write to EXT_IO (R71, R422): ignored by default (D16). -/
def extIoWrite (s : State) (a : Word) (v : Byte) : State :=
  match s.extIo with
  | .absent => s
  | .device n => extIoMove s (Config.extIoAfterWrite n a v)

/-- Whether the BIOS overlay answers reads of `a`: `$0000`-`$00FF`, on CGB `$0200`-`$08FF` too (R63, R427). -/
def biosOverlay (s : State) (a : Word) : Bool :=
  s.biosEnabled && (decide (a.toNat ≤ 0x00FF) || (s.cgb.isSome && decide (0x0200 ≤ a.toNat) && decide (a.toNat ≤ 0x08FF)))

/-- A read of `$0000`-`$7FFF` (R62, R63). -/
def romRead (s : State) (a : Word) : Byte :=
  if biosOverlay s a then Memory.read s.bios a.toNat else cartRead s a

/-! ### Lockouts (R64, R69, R404) -/

/-- VRAM is closed to the CPU: mode 3 at the instant of the access. -/
def vramLocked (s : State) : Bool := s.ppu.mode == .rendering

/-- OAM is closed to the CPU by the PPU: mode 2 or 3. -/
def oamLocked (s : State) : Bool := s.ppu.mode == .oamScan || s.ppu.mode == .rendering

/-! ### I/O registers (R350) -/

/-- The registers of `$FF00`-`$FF7F` the block owns. -/
inductive IoReg where
  | div | tima | tma | tac | intFlag | lcdc | stat | scy | scx | ly | lyc | dma | bgp | obp0 | obp1 | wy | wx | biosOff
deriving DecidableEq, Repr

/-- The register at an I/O address; `none` goes to EXT_IO. -/
def ioRegAt (a : Word) : Option IoReg :=
  if a = 0xFF04#16 then some .div
  else if a = 0xFF05#16 then some .tima
  else if a = 0xFF06#16 then some .tma
  else if a = 0xFF07#16 then some .tac
  else if a = 0xFF0F#16 then some .intFlag
  else if a = 0xFF40#16 then some .lcdc
  else if a = 0xFF41#16 then some .stat
  else if a = 0xFF42#16 then some .scy
  else if a = 0xFF43#16 then some .scx
  else if a = 0xFF44#16 then some .ly
  else if a = 0xFF45#16 then some .lyc
  else if a = 0xFF46#16 then some .dma
  else if a = 0xFF47#16 then some .bgp
  else if a = 0xFF48#16 then some .obp0
  else if a = 0xFF49#16 then some .obp1
  else if a = 0xFF4A#16 then some .wy
  else if a = 0xFF4B#16 then some .wx
  else if a = 0xFF50#16 then some .biosOff
  else none

/-- `$80 | STAT[6:3] | coincidence << 2 | mode` (R382). -/
def statRead (p : Ppu) : Byte := 1#1 ++ p.statEnables ++ BitVec.ofBool p.coincidence ++ modeBits p.mode

/-- IF and IE as the bus reads them: `$E0 | value` (R351, R352). -/
def intRead (v : BitVec 5) : Byte := 7#3 ++ v

/-- The "Read returns" column of R350. -/
def ioRead (s : State) : IoReg → Byte
  | .div => s.timer.divCounter.extractLsb' 8 8
  | .tima => s.timer.tima
  | .tma => s.timer.tma
  | .tac => 0x1F#5 ++ s.timer.tac
  | .intFlag => intRead s.intFlags
  | .lcdc => s.ppu.lcdc
  | .stat => statRead s.ppu
  | .scy => s.ppu.scy
  | .scx => s.ppu.scx
  | .ly => s.ppu.ly
  | .lyc => s.ppu.lyc
  | .dma => openBus
  | .bgp => s.ppu.bgp
  | .obp0 => s.ppu.obp0
  | .obp1 => s.ppu.obp1
  | .wy => s.ppu.wy
  | .wx => s.ppu.wx
  | .biosOff => openBus

/-- `DmaRead(a)` (R416): the DMA engine's view of the bus, past the PPU lockouts. -/
def dmaRead (s : State) (a : Word) : Byte :=
  match regionOf a with
  | .rom => romRead s a
  | .vram => Memory.read s.mem a.toNat
  | .cartRam => cartRead s a
  | .wram => Memory.read s.mem a.toNat
  | .echo => Memory.read s.mem (a.toNat - 0x2000)
  | _ => openBus

/-- The 160 bytes a DMA from page `v` reads (R415). -/
def dmaSource (s : State) (v : Byte) : List Byte :=
  (List.range 160).map fun i => dmaRead s (wordOf v 0#8 + BitVec.ofNat 16 i)

/-- A write to `$FF46` (R415): all 160 bytes at once, then 640 T-cycles of lockout. -/
def dmaWrite (s : State) (v : Byte) : State :=
  { s with mem := Memory.writeBytes s.mem 0xFE00 (dmaSource s v), dmaRemaining := 640 }

/-- The "Write does" column of R350. -/
def ioWrite (s : State) (r : IoReg) (v : Byte) : State :=
  match r with
  | .div => { s with timer := divWrite s.timer }
  | .tima => { s with timer := timaWrite s.timer v }
  | .tma => { s with timer := { s.timer with tma := v } }
  | .tac => { s with timer := { s.timer with tac := v.extractLsb' 0 3 } }
  | .intFlag => { s with intFlags := v.extractLsb' 0 5 }
  | .lcdc => lcdcWrite s v
  | .stat => { s with ppu := { s.ppu with statEnables := v.extractLsb' 3 4 } }
  | .scy => { s with ppu := { s.ppu with scy := v } }
  | .scx => { s with ppu := { s.ppu with scx := v } }
  | .ly => lyWrite s
  | .lyc => { s with ppu := { s.ppu with lyc := v } }
  | .dma => dmaWrite s v
  | .bgp => { s with ppu := { s.ppu with bgp := v } }
  | .obp0 => { s with ppu := { s.ppu with obp0 := v } }
  | .obp1 => { s with ppu := { s.ppu with obp1 := v } }
  | .wy => { s with ppu := { s.ppu with wy := v } }
  | .wx => { s with ppu := { s.ppu with wx := v } }
  | .biosOff => { s with biosEnabled := false }

/-! ### BusRead and BusWrite (R61) -/

/-- The cell of the memory image behind a bus address of RAM (R64, R67, R68, R69, R72); the echo is WRAM `$2000` lower. -/
def ramCell (a : Word) : Option Nat :=
  match regionOf a with
  | .vram => some a.toNat
  | .wram => some a.toNat
  | .echo => some (a.toNat - 0x2000)
  | .oam => some a.toNat
  | .hram => some a.toNat
  | _ => none

/-- `BusRead(a)`. -/
def busRead (s : State) (a : Word) : Byte :=
  match regionOf a with
  | .rom => romRead s a
  | .vram => if vramLocked s then openBus else Memory.read s.mem a.toNat
  | .cartRam => cartRead s a
  | .wram => Memory.read s.mem a.toNat
  | .echo => Memory.read s.mem (a.toNat - 0x2000)
  | .oam => if oamLocked s || decide (0 < s.dmaRemaining) then openBus else Memory.read s.mem a.toNat
  | .unusable => openBus
  | .io => match ioRegAt a with | some r => ioRead s r | none => extIoRead s a
  | .hram => Memory.read s.mem a.toNat
  | .ie => intRead s.intEnable

/-- What a read of `a` changes besides its result: nothing in the block, but EXT_IO may have read side effects of its own
(R79). -/
def readEffect (s : State) (a : Word) : State :=
  match regionOf a with
  | .io => match ioRegAt a with | some _ => s | none => extIoAfterRead s a
  | _ => s

/-- The cell of the memory image a CPU write to `a` reaches now, if it reaches one: RAM that no PPU mode closes
(R64, R69; a DMA lockout does not block writes, D17). -/
def storeCell (s : State) (a : Word) : Option Nat :=
  match regionOf a with
  | .vram => if vramLocked s then none else ramCell a
  | .oam => if oamLocked s then none else ramCell a
  | _ => ramCell a

/-- A byte stored into the memory image, where the address reaches a cell. -/
def storeByte (s : State) (a : Word) (v : Byte) : State :=
  match storeCell s a with
  | some n => { s with mem := Memory.write s.mem n v }
  | none => s

/-- `BusWrite(a, v)`. -/
def busWrite (s : State) (a : Word) (v : Byte) : State :=
  match regionOf a with
  | .rom => cartWrite s a v
  | .cartRam => cartWrite s a v
  | .unusable => s
  | .io => match ioRegAt a with | some r => ioWrite s r v | none => extIoWrite s a v
  | .ie => { s with intEnable := v.extractLsb' 0 5 }
  | _ => storeByte s a v

end Sys2Proof.Machine
end

