-- ==== Sys2Proof/Machine/Ops.lean ====
section
/-! DEFINITION. The machine's shared operations: the hardware tick (spec/00_scope.md R14), timed bus access, operand fetch and
the stack (R15 to R17), instruction fetch (spec/60_exceptions.md R306), interrupt dispatch and return (R310, R318), the parts of
the step loop (R300 to R308), and the host's joypad edge (spec/61_devices.md R421). -/

namespace Sys2Proof.Machine

/-! ### Time -/

/-- The DMA lockout of one T-cycle (R14, R415). -/
def dmaTick (s : State) : State := { s with dmaRemaining := s.dmaRemaining - 1 }

/-- Whether the PPU moves in the T-cycle after which `left` are left of a tick: always, but in CGB double speed every second
one only (R425). -/
def ppuMoves (s : State) (left : Nat) : Bool :=
  match s.cgb with
  | some g => !g.doubleSpeed || left % 2 == 0
  | none => true

/-- One T-cycle: timer, PPU, DMA, in that order (R14). -/
def tCycle (s : State) (left : Nat) : State :=
  let s1 := timerTick s
  dmaTick (if ppuMoves s left then ppuTick s1 else s1)

/-- `k` T-cycles of the devices. -/
def tCycles : Nat → State → State
  | 0, s => s
  | k + 1, s => tCycles k (tCycle s k)

/-- `Tick(k)` (R14). -/
def tick (k : Nat) (s : State) : State := tCycles k { s with cyclesTotal := s.cyclesTotal + k }

/-! ### Timed access (R15) -/

/-- `MemRead(a, 1)`: the byte, and the state after the access and its 4 T-cycles. -/
def memRead (s : State) (a : Word) : Byte × State := (busRead s a, tick 4 (readEffect s a))

/-- `MemWrite(a, 1, v)`. -/
def memWrite (s : State) (a : Word) (v : Byte) : State := tick 4 (busWrite s a v)

/-- `MemRead(a, 2)`: the low byte first (D5). -/
def memRead16 (s : State) (a : Word) : Word × State :=
  let lo := memRead s a
  let hi := memRead lo.2 (a + 1#16)
  (wordOf hi.1 lo.1, hi.2)

/-- `MemWrite(a, 2, v)`: the low byte first (D5). -/
def memWrite16 (s : State) (a : Word) (v : Word) : State :=
  memWrite (memWrite s a (loByte v)) (a + 1#16) (hiByte v)

/-! ### Fetch (R16, R306) -/

/-- `Fetch8()`. -/
def fetch8 (s : State) : Byte × State :=
  let r := memRead s s.regs.pc
  (r.1, r.2.setPc (r.2.regs.pc + 1#16))

/-- S4: the opcode fetch. With `halt_bug` set it does not advance PC, and clears the flag (R306). -/
def fetchOpcode (s : State) : Byte × State :=
  let r := memRead s s.regs.pc
  (r.1, if r.2.haltBug then { r.2 with haltBug := false } else r.2.setPc (r.2.regs.pc + 1#16))

/-- An instruction and the state after its bytes are fetched: the opcode, then its operand bytes one `Fetch8` each. Every
rule that has operand bytes fetches them before its other accesses (log entry 8). -/
def fetchInstr (s : State) : Instr × State :=
  let op := fetchOpcode s
  match operandBytes op.1 with
  | 0 => (decodeBytes op.1 0#8 0#8, op.2)
  | 1 =>
    let n := fetch8 op.2
    (decodeBytes op.1 n.1 0#8, n.2)
  | _ =>
    let n1 := fetch8 op.2
    let n2 := fetch8 n1.2
    (decodeBytes op.1 n1.1 n2.1, n2.2)

/-! ### The stack (R17) -/

/-- One byte of a push: SP down by one, then the write. -/
def push8 (s : State) (v : Byte) : State :=
  let s1 := s.setSp (s.regs.sp - 1#16)
  memWrite s1 s1.regs.sp v

/-- One byte of a pop: the read, then SP up by one. -/
def pop8 (s : State) : Byte × State :=
  let r := memRead s s.regs.sp
  (r.1, r.2.setSp (r.2.regs.sp + 1#16))

/-- `Push16(v)`: the high byte first. -/
def push16 (s : State) (v : Word) : State := push8 (push8 s (hiByte v)) (loByte v)

/-- `Pop16()`: the low byte first. -/
def pop16 (s : State) : Word × State :=
  let lo := pop8 s
  let hi := pop8 lo.2
  (wordOf hi.1 lo.1, hi.2)

/-- Push PC and jump: what CALL, RST and interrupt dispatch share. -/
def callTo (s : State) (target : Word) : State := (push16 s s.regs.pc).setPc target

/-- Pop PC: what RET, RET cc and RETI share. -/
def popPc (s : State) : State :=
  let r := pop16 s
  r.2.setPc r.1

/-! ### Interrupts (R302, R310, R311, R314, R318) -/

/-- `Pending()` (R302). -/
def pending (s : State) : BitVec 5 := s.intEnable &&& s.intFlags

/-- The least `n` with `p[n] = 1`, for a `p` that is not zero (R314). -/
def leastBit (p : BitVec 5) : Nat :=
  if p.getLsbD 0 then 0 else if p.getLsbD 1 then 1 else if p.getLsbD 2 then 2 else if p.getLsbD 3 then 3 else 4

/-- The vector of interrupt `n` (R311). -/
def vectorOf (n : Nat) : Word := 0x0040#16 + BitVec.ofNat 16 (8 * n)

/-- `Dispatch()` (R310), the machine's one trap entry: the IF bit, `ime` and the `EI` delay are cleared, PC is pushed, PC
is the vector, and the 12 T-cycles that are no bus access come last. Nothing else is saved. -/
def dispatch (s : State) : State :=
  let n := leastBit (pending s)
  let s1 := { s with intFlags := s.intFlags &&& ~~~(1#5 <<< n), ime := false, imePending := 0 }
  tick 12 (callTo s1 (vectorOf n))

/-- The return from a handler (R279, R318): PC is popped and `ime` set at once; nothing else is restored. -/
def returnFromInterrupt (s : State) : State :=
  let s1 := popPc s
  tick 4 { s1 with ime := true }

/-- `raise UndefinedOpcode(op)` under UNDEF_POLICY = fault, a 4-cycle no-operation under nop: the 4 T-cycles are the opcode
fetch's own (R296, R316). -/
def undefinedOpcode (op : Byte) (s : State) : Host.Outcome State Fault Refusal :=
  match s.undefPolicy with
  | .fault => .fault (.undefinedOpcode op s)
  | .nop => .next s

/-! ### The parts of the step loop (R300) -/

/-- S1: an enabled interrupt pending ends the halted state (R303). -/
def wake (s : State) : State := if s.halted && pending s != 0#5 then { s with halted := false } else s

/-- S2's test: the CPU idles (R304). -/
def idles (s : State) : Bool := s.halted || s.stopped

/-- S3's test: an interrupt is taken (R305). -/
def takesInterrupt (s : State) : Bool := s.ime && pending s != 0#5

/-- S6: the `EI` delay (R308): the counter goes down, and `ime` is set when it reaches 0. -/
def eiDelay (s : State) : State :=
  match s.imePending with
  | 0 => s
  | 1 => { s with imePending := 0, ime := true }
  | d + 2 => { s with imePending := d + 1 }

/-! ### The host (R420, R421, R422) -/

/-- `JoypadEdge()` (R421), the host's one action on the block, only between steps. -/
def joypadEdge (s : State) : State := { s.raise 4 with stopped := false }

/-- What a device behind EXT_IO does between steps (R422): it goes to a state and sets IF bits. The default EXT_IO never
does. -/
def extIoEvent (s : State) (n : Nat) (flags : BitVec 5) : State :=
  match s.extIo with
  | .absent => s
  | .device _ => extIoMove s (n, flags)

/-- Whether the next fetch at PC and the two bytes after it all read plain storage that no lockout closes: the BIOS, the
default cartridge's ROM, WRAM or HRAM. -/
def codeReadable (s : State) (a : Word) : Bool :=
  let plain (b : Word) : Bool :=
    match regionOf b with | .rom => biosOverlay s b || s.cart == .noMbc | .wram => true | .hram => true | _ => false
  plain a && plain (a + 1#16) && plain (a + 2#16)

/-- A byte placed behind bus address `a`, as a loader places a program: into the BIOS image where the overlay answers,
into the memory image elsewhere. -/
def placeByte (s : State) (a : Word) (v : Byte) : State :=
  if regionOf a = .rom ∧ biosOverlay s a = true then { s with bios := Memory.write s.bios a.toNat v }
  else { s with mem := Memory.write s.mem a.toNat v }

/-- The machine ready to fetch at once: awake, no halt bug, no pending interrupt taken first, and PC at plain storage
(log entry 10). -/
def readyToFetch (s : State) : State :=
  let s1 := { s with halted := false, stopped := false, haltBug := false,
                     intFlags := if s.ime then s.intFlags &&& ~~~s.intEnable else s.intFlags }
  if codeReadable s1 s1.regs.pc then s1 else s1.setPc 0xC000#16

/-- Three bytes placed where the next instruction is fetched: the list's, then zeros. -/
def placeCode (s : State) (code : List Byte) : State :=
  let s1 := readyToFetch s
  let pc := s1.regs.pc
  placeByte (placeByte (placeByte s1 pc (code.getD 0 0#8)) (pc + 1#16) (code.getD 1 0#8)) (pc + 2#16) (code.getD 2 0#8)

end Sys2Proof.Machine
end

