-- ==== Sys2Proof/Machine/Alu16.lean ====
section
/-! DEFINITION. The meanings of the 16-bit arithmetic instructions, spec/43_alu16.md R221 to R224. -/

namespace Sys2Proof.Machine

/-- `ADD HL,rr` (R221), 4 internal T-cycles. -/
def execAddHlRr (src : R16) (s : State) : Host.Outcome State Fault Refusal :=
  let r := addHl16 s.hl (s.r16 src) s.flags
  .next (tick 4 ((s.setR16 .hl r.1).setFlags r.2))

/-- `INC rr` (R222), 4 internal T-cycles, no flag. -/
def execIncRr (dst : R16) (s : State) : Host.Outcome State Fault Refusal :=
  .next (tick 4 (s.setR16 dst (s.r16 dst + 1#16)))

/-- `DEC rr` (R223), 4 internal T-cycles, no flag. -/
def execDecRr (dst : R16) (s : State) : Host.Outcome State Fault Refusal :=
  .next (tick 4 (s.setR16 dst (s.r16 dst - 1#16)))

/-- `ADD SP,e` (R224), 8 internal T-cycles. -/
def execAddSpE (e : Byte) (s : State) : Host.Outcome State Fault Refusal :=
  let r := addSpE16 (s.r16 .sp) e
  .next (tick 8 ((s.setR16 .sp r.1).setFlags r.2))

end Sys2Proof.Machine
end

