-- ==== Sys2Proof/Machine/Alu8.lean ====
section
/-! DEFINITION. The meanings of the 8-bit arithmetic and logic instructions, spec/42_alu8.md R180 to R211. -/

namespace Sys2Proof.Machine

/-- `A op (HL)` (R178): the byte at HL is read, then A and the flags are what `f` says. -/
def accAtHl (f : Byte → Byte → Byte × Flags) (s : State) : State :=
  let m := memRead s s.hl
  m.2.setAFlags (f m.2.regs.a m.1)

/-- `CP` keeps only the flags of a subtraction (R201). -/
def compareWith (a b : Byte) : Byte × Flags := (a, (sub8 a b false).2)

/-- Read, modify, write of the byte at HL with its flags (R205, R207). -/
def modifyAtHl (f : Byte → Flags → Byte × Flags) (s : State) : State :=
  let m := memRead s s.hl
  let r := f m.1 m.2.flags
  (memWrite m.2 m.2.hl r.1).setFlags r.2

/-- `ADD A,r` (R180). -/
def execAddR (src : R8) (s : State) : Host.Outcome State Fault Refusal :=
  .next (s.setAFlags (add8 s.regs.a (s.r8 src) false))

/-- `ADD A,(HL)` (R181). -/
def execAddAtHl (s : State) : Host.Outcome State Fault Refusal :=
  .next (accAtHl (fun a b => add8 a b false) s)

/-- `ADD A,n` (R182). -/
def execAddN (n : Byte) (s : State) : Host.Outcome State Fault Refusal :=
  .next (s.setAFlags (add8 s.regs.a n false))

/-- `ADC A,r` (R183). -/
def execAdcR (src : R8) (s : State) : Host.Outcome State Fault Refusal :=
  .next (s.setAFlags (add8 s.regs.a (s.r8 src) s.flags.c))

/-- `ADC A,(HL)` (R184). -/
def execAdcAtHl (s : State) : Host.Outcome State Fault Refusal :=
  .next (accAtHl (fun a b => add8 a b s.flags.c) s)

/-- `ADC A,n` (R185). -/
def execAdcN (n : Byte) (s : State) : Host.Outcome State Fault Refusal :=
  .next (s.setAFlags (add8 s.regs.a n s.flags.c))

/-- `SUB r` (R186). -/
def execSubR (src : R8) (s : State) : Host.Outcome State Fault Refusal :=
  .next (s.setAFlags (sub8 s.regs.a (s.r8 src) false))

/-- `SUB (HL)` (R187). -/
def execSubAtHl (s : State) : Host.Outcome State Fault Refusal :=
  .next (accAtHl (fun a b => sub8 a b false) s)

/-- `SUB n` (R188). -/
def execSubN (n : Byte) (s : State) : Host.Outcome State Fault Refusal :=
  .next (s.setAFlags (sub8 s.regs.a n false))

/-- `SBC A,r` (R189). -/
def execSbcR (src : R8) (s : State) : Host.Outcome State Fault Refusal :=
  .next (s.setAFlags (sub8 s.regs.a (s.r8 src) s.flags.c))

/-- `SBC A,(HL)` (R190). -/
def execSbcAtHl (s : State) : Host.Outcome State Fault Refusal :=
  .next (accAtHl (fun a b => sub8 a b s.flags.c) s)

/-- `SBC A,n` (R191). -/
def execSbcN (n : Byte) (s : State) : Host.Outcome State Fault Refusal :=
  .next (s.setAFlags (sub8 s.regs.a n s.flags.c))

/-- `AND r` (R192). -/
def execAndR (src : R8) (s : State) : Host.Outcome State Fault Refusal :=
  .next (s.setAFlags (and8 s.regs.a (s.r8 src)))

/-- `AND (HL)` (R193). -/
def execAndAtHl (s : State) : Host.Outcome State Fault Refusal :=
  .next (accAtHl and8 s)

/-- `AND n` (R194). -/
def execAndN (n : Byte) (s : State) : Host.Outcome State Fault Refusal :=
  .next (s.setAFlags (and8 s.regs.a n))

/-- `XOR r` (R195). -/
def execXorR (src : R8) (s : State) : Host.Outcome State Fault Refusal :=
  .next (s.setAFlags (xor8 s.regs.a (s.r8 src)))

/-- `XOR (HL)` (R196). -/
def execXorAtHl (s : State) : Host.Outcome State Fault Refusal :=
  .next (accAtHl xor8 s)

/-- `XOR n` (R197). -/
def execXorN (n : Byte) (s : State) : Host.Outcome State Fault Refusal :=
  .next (s.setAFlags (xor8 s.regs.a n))

/-- `OR r` (R198). -/
def execOrR (src : R8) (s : State) : Host.Outcome State Fault Refusal :=
  .next (s.setAFlags (or8 s.regs.a (s.r8 src)))

/-- `OR (HL)` (R199). -/
def execOrAtHl (s : State) : Host.Outcome State Fault Refusal :=
  .next (accAtHl or8 s)

/-- `OR n` (R200). -/
def execOrN (n : Byte) (s : State) : Host.Outcome State Fault Refusal :=
  .next (s.setAFlags (or8 s.regs.a n))

/-- `CP r` (R201). -/
def execCpR (src : R8) (s : State) : Host.Outcome State Fault Refusal :=
  .next (s.setAFlags (compareWith s.regs.a (s.r8 src)))

/-- `CP (HL)` (R202). -/
def execCpAtHl (s : State) : Host.Outcome State Fault Refusal :=
  .next (accAtHl compareWith s)

/-- `CP n` (R203). -/
def execCpN (n : Byte) (s : State) : Host.Outcome State Fault Refusal :=
  .next (s.setAFlags (compareWith s.regs.a n))

/-- `INC r` (R204). -/
def execIncR (dst : R8) (s : State) : Host.Outcome State Fault Refusal :=
  let r := inc8 (s.r8 dst) s.flags
  .next ((s.setR8 dst r.1).setFlags r.2)

/-- `INC (HL)` (R205). -/
def execIncAtHl (s : State) : Host.Outcome State Fault Refusal :=
  .next (modifyAtHl inc8 s)

/-- `DEC r` (R206). -/
def execDecR (dst : R8) (s : State) : Host.Outcome State Fault Refusal :=
  let r := dec8 (s.r8 dst) s.flags
  .next ((s.setR8 dst r.1).setFlags r.2)

/-- `DEC (HL)` (R207). -/
def execDecAtHl (s : State) : Host.Outcome State Fault Refusal :=
  .next (modifyAtHl dec8 s)

/-- `DAA` (R208). -/
def execDaa (s : State) : Host.Outcome State Fault Refusal :=
  .next (s.setAFlags (daa8 s.regs.a s.flags))

/-- `CPL` (R209). -/
def execCpl (s : State) : Host.Outcome State Fault Refusal :=
  .next (s.setAFlags (~~~s.regs.a, { s.flags with n := true, h := true }))

/-- `SCF` (R210). -/
def execScf (s : State) : Host.Outcome State Fault Refusal :=
  .next (s.setFlags { s.flags with n := false, h := false, c := true })

/-- `CCF` (R211). -/
def execCcf (s : State) : Host.Outcome State Fault Refusal :=
  .next (s.setFlags { s.flags with n := false, h := false, c := !s.flags.c })

end Sys2Proof.Machine
end

