-- ==== Sys2Proof/Machine/ControlFlow.lean ====
section
/-! DEFINITION. The meanings of the jumps, calls, returns and restarts, spec/45_control_flow.md R270 to R280. No flag changes in any of
them. -/

namespace Sys2Proof.Machine

/-- `JP nn` (R270), 4 internal T-cycles. -/
def execJpNn (nn : Word) (s : State) : Host.Outcome State Fault Refusal :=
  .next (tick 4 (s.setPc nn))

/-- `JP cc,nn` (R271): 4 internal T-cycles when taken. -/
def execJpCc (cc : Cond) (nn : Word) (s : State) : Host.Outcome State Fault Refusal :=
  if condHolds cc s.flags then .next (tick 4 (s.setPc nn)) else .next s

/-- `JP HL` (R272): nothing is read at HL. -/
def execJpHl (s : State) : Host.Outcome State Fault Refusal :=
  .next (s.setPc s.hl)

/-- `JR e` (R273), relative to the address after the instruction. -/
def execJrE (e : Byte) (s : State) : Host.Outcome State Fault Refusal :=
  .next (tick 4 (s.setPc (s.regs.pc + sext16 e)))

/-- `JR cc,e` (R274). -/
def execJrCc (cc : Cond) (e : Byte) (s : State) : Host.Outcome State Fault Refusal :=
  if condHolds cc s.flags then .next (tick 4 (s.setPc (s.regs.pc + sext16 e))) else .next s

/-- `CALL nn` (R275), 4 internal T-cycles. -/
def execCallNn (nn : Word) (s : State) : Host.Outcome State Fault Refusal :=
  .next (tick 4 (callTo s nn))

/-- `CALL cc,nn` (R276): not taken, nothing is pushed. -/
def execCallCc (cc : Cond) (nn : Word) (s : State) : Host.Outcome State Fault Refusal :=
  if condHolds cc s.flags then .next (tick 4 (callTo s nn)) else .next s

/-- `RET` (R277), 4 internal T-cycles. -/
def execRet (s : State) : Host.Outcome State Fault Refusal :=
  .next (tick 4 (popPc s))

/-- `RET cc` (R278): 8 internal T-cycles taken, 4 not taken. -/
def execRetCc (cc : Cond) (s : State) : Host.Outcome State Fault Refusal :=
  if condHolds cc s.flags then .next (tick 8 (popPc s)) else .next (tick 4 s)

/-- `RETI` (R279). -/
def execReti (s : State) : Host.Outcome State Fault Refusal :=
  .next (returnFromInterrupt s)

/-- `RST t` (R280), 4 internal T-cycles. -/
def execRst (t : Byte) (s : State) : Host.Outcome State Fault Refusal :=
  .next (tick 4 (callTo s (t.zeroExtend 16)))

end Sys2Proof.Machine
end

