-- ==== Sys2Proof/Machine/Load16.lean ====
section
/-! DEFINITION. The meanings of the 16-bit loads, PUSH and POP, spec/41_load16.md R160 to R165. -/

namespace Sys2Proof.Machine

/-- `LD rr,nn` (R160). -/
def execLdRrNn (dst : R16) (nn : Word) (s : State) : Host.Outcome State Fault Refusal :=
  .next (s.setR16 dst nn)

/-- `LD (nn),SP` (R161): the low byte at nn, then the high byte at nn + 1. -/
def execLdAtNnSp (nn : Word) (s : State) : Host.Outcome State Fault Refusal :=
  .next (memWrite16 s nn (s.r16 .sp))

/-- `LD SP,HL` (R162), 4 internal T-cycles. -/
def execLdSpHl (s : State) : Host.Outcome State Fault Refusal :=
  .next (tick 4 (s.setR16 .sp s.hl))

/-- `LD HL,SP+e` (R163), 4 internal T-cycles. -/
def execLdHlSpE (e : Byte) (s : State) : Host.Outcome State Fault Refusal :=
  let r := addSpE16 (s.r16 .sp) e
  .next (tick 4 ((s.setR16 .hl r.1).setFlags r.2))

/-- `PUSH rr` (R164), 4 internal T-cycles. -/
def execPush (src : R16Stk) (s : State) : Host.Outcome State Fault Refusal :=
  .next (tick 4 (push16 s (s.r16Stk src)))

/-- `POP rr` (R165). -/
def execPop (dst : R16Stk) (s : State) : Host.Outcome State Fault Refusal :=
  let r := pop16 s
  .next (r.2.setR16Stk dst r.1)

end Sys2Proof.Machine
end

