-- ==== Sys2Proof/Machine/Load8.lean ====
section
/-! DEFINITION. The meanings of the 8-bit loads, spec/40_load8.md R130 to R148. No flag changes in any of them. -/

namespace Sys2Proof.Machine

/-! A meaning starts after the instruction's bytes are fetched: PC stands past them and their T-cycles have run. -/

/-- A byte of memory into a register, 4 T-cycles: the common part of the byte loads. -/
def loadFrom (a : Word) (r : R8) (s : State) : State :=
  let m := memRead s a
  m.2.setR8 r m.1

/-- `LD r,r'` (R130). -/
def execLdRR (dst src : R8) (s : State) : Host.Outcome State Fault Refusal :=
  .next (s.setR8 dst (s.r8 src))

/-- `LD r,n` (R131). -/
def execLdRN (dst : R8) (n : Byte) (s : State) : Host.Outcome State Fault Refusal :=
  .next (s.setR8 dst n)

/-- `LD r,(HL)` (R132). -/
def execLdRAtHl (dst : R8) (s : State) : Host.Outcome State Fault Refusal :=
  .next (loadFrom s.hl dst s)

/-- `LD (HL),r` (R133). -/
def execLdAtHlR (src : R8) (s : State) : Host.Outcome State Fault Refusal :=
  .next (memWrite s s.hl (s.r8 src))

/-- `LD (HL),n` (R134). -/
def execLdAtHlN (n : Byte) (s : State) : Host.Outcome State Fault Refusal :=
  .next (memWrite s s.hl n)

/-- `LD A,(BC)` (R135). -/
def execLdAAtBc (s : State) : Host.Outcome State Fault Refusal :=
  .next (loadFrom (s.r16 .bc) .a s)

/-- `LD A,(DE)` (R136). -/
def execLdAAtDe (s : State) : Host.Outcome State Fault Refusal :=
  .next (loadFrom (s.r16 .de) .a s)

/-- `LD (BC),A` (R137). -/
def execLdAtBcA (s : State) : Host.Outcome State Fault Refusal :=
  .next (memWrite s (s.r16 .bc) (s.r8 .a))

/-- `LD (DE),A` (R138). -/
def execLdAtDeA (s : State) : Host.Outcome State Fault Refusal :=
  .next (memWrite s (s.r16 .de) (s.r8 .a))

/-- `LD A,(nn)` (R139). -/
def execLdAAtNn (nn : Word) (s : State) : Host.Outcome State Fault Refusal :=
  .next (loadFrom nn .a s)

/-- `LD (nn),A` (R140). -/
def execLdAtNnA (nn : Word) (s : State) : Host.Outcome State Fault Refusal :=
  .next (memWrite s nn (s.r8 .a))

/-- `LDH A,(C)` (R141). -/
def execLdhAAtC (s : State) : Host.Outcome State Fault Refusal :=
  .next (loadFrom (ioAddr (s.r8 .c)) .a s)

/-- `LDH (C),A` (R142). -/
def execLdhAtCA (s : State) : Host.Outcome State Fault Refusal :=
  .next (memWrite s (ioAddr (s.r8 .c)) (s.r8 .a))

/-- `LDH A,(n)` (R143). -/
def execLdhAAtN (n : Byte) (s : State) : Host.Outcome State Fault Refusal :=
  .next (loadFrom (ioAddr n) .a s)

/-- `LDH (n),A` (R144). -/
def execLdhAtNA (n : Byte) (s : State) : Host.Outcome State Fault Refusal :=
  .next (memWrite s (ioAddr n) (s.r8 .a))

/-- `LD (HL+),A` (R145): HL moves after the access. -/
def execLdAtHliA (s : State) : Host.Outcome State Fault Refusal :=
  .next ((memWrite s s.hl (s.r8 .a)).setR16 .hl (s.hl + 1#16))

/-- `LD A,(HL+)` (R146). -/
def execLdAAtHli (s : State) : Host.Outcome State Fault Refusal :=
  .next ((loadFrom s.hl .a s).setR16 .hl (s.hl + 1#16))

/-- `LD (HL-),A` (R147). -/
def execLdAtHldA (s : State) : Host.Outcome State Fault Refusal :=
  .next ((memWrite s s.hl (s.r8 .a)).setR16 .hl (s.hl - 1#16))

/-- `LD A,(HL-)` (R148). -/
def execLdAAtHld (s : State) : Host.Outcome State Fault Refusal :=
  .next ((loadFrom s.hl .a s).setR16 .hl (s.hl - 1#16))

end Sys2Proof.Machine
end

