-- ==== Sys2Proof/Machine/RotateShiftBit.lean ====
section
/-! DEFINITION. The meanings of the rotates, shifts and bit operations, spec/44_rotate_shift_bit.md R230 to R256, and of the CB
prefix, spec/46_system.md R295. -/

namespace Sys2Proof.Machine

/-- An accumulator rotate (R230). -/
def rotateAcc (f : Rot) (s : State) : State := s.setAFlags (rotAcc f s.regs.a s.flags)

/-- The register form of a CB rotate or shift (section 3 of the file). -/
def rotateReg (f : Rot) (r : R8) (s : State) : State :=
  let x := rotCb f (s.r8 r) s.flags
  (s.setR8 r x.1).setFlags x.2

/-- The memory form of a CB rotate or shift: read, then write (section 3 of the file). -/
def rotateAtHl (f : Rot) (s : State) : State :=
  let m := memRead s s.hl
  let x := rotCb f m.1 m.2.flags
  (memWrite m.2 m.2.hl x.1).setFlags x.2

/-- `BIT b,r` (R251). -/
def bitTestReg (b : Fin 8) (r : R8) (s : State) : State := s.setFlags (bitFlags b (s.r8 r) s.flags)

/-- `BIT b,(HL)`: no write back (R252). -/
def bitTestAtHl (b : Fin 8) (s : State) : State :=
  let m := memRead s s.hl
  m.2.setFlags (bitFlags b m.1 m.2.flags)

/-- `RES` and `SET` on a register: no flag (R253, R255). -/
def changeReg (f : Byte → Byte) (r : R8) (s : State) : State := s.setR8 r (f (s.r8 r))

/-- `RES` and `SET` on the byte at HL: the write happens even when nothing changes (R254, R256). -/
def changeAtHl (f : Byte → Byte) (s : State) : State :=
  let m := memRead s s.hl
  memWrite m.2 m.2.hl (f m.1)

/-- `RLCA` (R231). -/
def execRlca (s : State) : Host.Outcome State Fault Refusal :=
  .next (rotateAcc .rlc s)

/-- `RRCA` (R232). -/
def execRrca (s : State) : Host.Outcome State Fault Refusal :=
  .next (rotateAcc .rrc s)

/-- `RLA` (R233). -/
def execRla (s : State) : Host.Outcome State Fault Refusal :=
  .next (rotateAcc .rl s)

/-- `RRA` (R234). -/
def execRra (s : State) : Host.Outcome State Fault Refusal :=
  .next (rotateAcc .rr s)

/-- `RLC r` (R235). -/
def execRlcR (dst : R8) (s : State) : Host.Outcome State Fault Refusal :=
  .next (rotateReg .rlc dst s)

/-- `RLC (HL)` (R236). -/
def execRlcAtHl (s : State) : Host.Outcome State Fault Refusal :=
  .next (rotateAtHl .rlc s)

/-- `RRC r` (R237). -/
def execRrcR (dst : R8) (s : State) : Host.Outcome State Fault Refusal :=
  .next (rotateReg .rrc dst s)

/-- `RRC (HL)` (R238). -/
def execRrcAtHl (s : State) : Host.Outcome State Fault Refusal :=
  .next (rotateAtHl .rrc s)

/-- `RL r` (R239). -/
def execRlR (dst : R8) (s : State) : Host.Outcome State Fault Refusal :=
  .next (rotateReg .rl dst s)

/-- `RL (HL)` (R240). -/
def execRlAtHl (s : State) : Host.Outcome State Fault Refusal :=
  .next (rotateAtHl .rl s)

/-- `RR r` (R241). -/
def execRrR (dst : R8) (s : State) : Host.Outcome State Fault Refusal :=
  .next (rotateReg .rr dst s)

/-- `RR (HL)` (R242). -/
def execRrAtHl (s : State) : Host.Outcome State Fault Refusal :=
  .next (rotateAtHl .rr s)

/-- `SLA r` (R243). -/
def execSlaR (dst : R8) (s : State) : Host.Outcome State Fault Refusal :=
  .next (rotateReg .sla dst s)

/-- `SLA (HL)` (R244). -/
def execSlaAtHl (s : State) : Host.Outcome State Fault Refusal :=
  .next (rotateAtHl .sla s)

/-- `SRA r` (R245). -/
def execSraR (dst : R8) (s : State) : Host.Outcome State Fault Refusal :=
  .next (rotateReg .sra dst s)

/-- `SRA (HL)` (R246). -/
def execSraAtHl (s : State) : Host.Outcome State Fault Refusal :=
  .next (rotateAtHl .sra s)

/-- `SWAP r` (R247). -/
def execSwapR (dst : R8) (s : State) : Host.Outcome State Fault Refusal :=
  .next (rotateReg .swap dst s)

/-- `SWAP (HL)` (R248). -/
def execSwapAtHl (s : State) : Host.Outcome State Fault Refusal :=
  .next (rotateAtHl .swap s)

/-- `SRL r` (R249). -/
def execSrlR (dst : R8) (s : State) : Host.Outcome State Fault Refusal :=
  .next (rotateReg .srl dst s)

/-- `SRL (HL)` (R250). -/
def execSrlAtHl (s : State) : Host.Outcome State Fault Refusal :=
  .next (rotateAtHl .srl s)

/-- `BIT b,r` (R251). -/
def execBitR (b : Fin 8) (src : R8) (s : State) : Host.Outcome State Fault Refusal :=
  .next (bitTestReg b src s)

/-- `BIT b,(HL)` (R252). -/
def execBitAtHl (b : Fin 8) (s : State) : Host.Outcome State Fault Refusal :=
  .next (bitTestAtHl b s)

/-- `RES b,r` (R253). -/
def execResR (b : Fin 8) (dst : R8) (s : State) : Host.Outcome State Fault Refusal :=
  .next (changeReg (resBit b) dst s)

/-- `RES b,(HL)` (R254). -/
def execResAtHl (b : Fin 8) (s : State) : Host.Outcome State Fault Refusal :=
  .next (changeAtHl (resBit b) s)

/-- `SET b,r` (R255). -/
def execSetR (b : Fin 8) (dst : R8) (s : State) : Host.Outcome State Fault Refusal :=
  .next (changeReg (setBit b) dst s)

/-- `SET b,(HL)` (R256). -/
def execSetAtHl (b : Fin 8) (s : State) : Host.Outcome State Fault Refusal :=
  .next (changeAtHl (setBit b) s)

/-! ### The prefix (R295) -/

/-- `rot[y]` (R230). -/
def rotOf (y : BitVec 3) : Rot :=
  if y = 0#3 then .rlc else if y = 1#3 then .rrc else if y = 2#3 then .rl else if y = 3#3 then .rr
  else if y = 4#3 then .sla else if y = 5#3 then .sra else if y = 6#3 then .swap else .srl

/-- The CB operation the byte `k` selects, by its fields (R106). -/
def runCbOperation (k : Byte) (s : State) : State :=
  let b := bitOf (opY k)
  match (opX k).toNat, operandOf (opZ k) with
  | 0, .reg r => rotateReg (rotOf (opY k)) r s
  | 0, .atHl => rotateAtHl (rotOf (opY k)) s
  | 1, .reg r => bitTestReg b r s
  | 1, .atHl => bitTestAtHl b s
  | 2, .reg r => changeReg (resBit b) r s
  | 2, .atHl => changeAtHl (resBit b) s
  | _, .reg r => changeReg (setBit b) r s
  | _, .atHl => changeAtHl (setBit b) s

/-- `PREFIX CB` (R295): the second byte is fetched, and the operation it selects is run. -/
def execPrefixCb (s : State) : Host.Outcome State Fault Refusal :=
  let k := fetch8 s
  .next (runCbOperation k.1 k.2)

end Sys2Proof.Machine
end

