-- ==== Sys2Proof/Machine/System.lean ====
section
/-! DEFINITION. The meanings of the system instructions and the undefined opcodes, spec/46_system.md R290 to R296. -/

namespace Sys2Proof.Machine

/-- `SpeedSwitch()` (R425): KEY1 bit 0 is cleared, 128 T-cycles run at the old speed, the speed is toggled. -/
def speedSwitch (g : Cgb) (s : State) : State :=
  let s1 := tick 128 { s with cgb := some { g with key1Request := false } }
  { s1 with cgb := some { key1Request := false, doubleSpeed := !g.doubleSpeed } }

/-- `NOP` (R290). -/
def execNop (s : State) : Host.Outcome State Fault Refusal :=
  .next s

/-- `HALT` (R291): with `ime` clear and an enabled interrupt pending it does not halt but sets `halt_bug`. -/
def execHalt (s : State) : Host.Outcome State Fault Refusal :=
  if s.ime then .next { s with halted := true }
  else if pending s = 0#5 then .next { s with halted := true }
  else .next { s with haltBug := true }

/-- `STOP` (R292): the stopped state, or on CGB with KEY1 bit 0 set the speed switch. -/
def execStop (s : State) : Host.Outcome State Fault Refusal :=
  match s.cgb with
  | some g => if g.key1Request then .next (speedSwitch g s) else .next { s with stopped := true }
  | none => .next { s with stopped := true }

/-- `DI` (R293): it also ends an `EI` delay. -/
def execDi (s : State) : Host.Outcome State Fault Refusal :=
  .next { s with ime := false, imePending := 0 }

/-- `EI` (R294): `ime` itself is set by the step loop, after the next instruction. -/
def execEi (s : State) : Host.Outcome State Fault Refusal :=
  .next { s with imePending := 2 }

/-- The undefined opcode `$D3` (R296). -/
def execUndefD3 (s : State) : Host.Outcome State Fault Refusal :=
  undefinedOpcode 0xD3#8 s

/-- The undefined opcode `$DB` (R296). -/
def execUndefDB (s : State) : Host.Outcome State Fault Refusal :=
  undefinedOpcode 0xDB#8 s

/-- The undefined opcode `$DD` (R296). -/
def execUndefDD (s : State) : Host.Outcome State Fault Refusal :=
  undefinedOpcode 0xDD#8 s

/-- The undefined opcode `$E3` (R296). -/
def execUndefE3 (s : State) : Host.Outcome State Fault Refusal :=
  undefinedOpcode 0xE3#8 s

/-- The undefined opcode `$E4` (R296). -/
def execUndefE4 (s : State) : Host.Outcome State Fault Refusal :=
  undefinedOpcode 0xE4#8 s

/-- The undefined opcode `$EB` (R296). -/
def execUndefEB (s : State) : Host.Outcome State Fault Refusal :=
  undefinedOpcode 0xEB#8 s

/-- The undefined opcode `$EC` (R296). -/
def execUndefEC (s : State) : Host.Outcome State Fault Refusal :=
  undefinedOpcode 0xEC#8 s

/-- The undefined opcode `$ED` (R296). -/
def execUndefED (s : State) : Host.Outcome State Fault Refusal :=
  undefinedOpcode 0xED#8 s

/-- The undefined opcode `$F4` (R296). -/
def execUndefF4 (s : State) : Host.Outcome State Fault Refusal :=
  undefinedOpcode 0xF4#8 s

/-- The undefined opcode `$FC` (R296). -/
def execUndefFC (s : State) : Host.Outcome State Fault Refusal :=
  undefinedOpcode 0xFC#8 s

/-- The undefined opcode `$FD` (R296). -/
def execUndefFD (s : State) : Host.Outcome State Fault Refusal :=
  undefinedOpcode 0xFD#8 s

end Sys2Proof.Machine
end

