-- ==== Sys2Proof/Machine/Dispatch.lean ====
section
/-! DEFINITION. One arm per constructor of `Instr`: the instruction's meaning, on the state after its bytes are fetched. -/

namespace Sys2Proof.Machine

def exec (i : Instr) (s : State) : Host.Outcome State Fault Refusal :=
  match i with
  | .ldRR dst src => Sys2Proof.Machine.execLdRR dst src s
  | .ldRN dst n => Sys2Proof.Machine.execLdRN dst n s
  | .ldRAtHl dst => Sys2Proof.Machine.execLdRAtHl dst s
  | .ldAtHlR src => Sys2Proof.Machine.execLdAtHlR src s
  | .ldAtHlN n => Sys2Proof.Machine.execLdAtHlN n s
  | .ldAAtBc => Sys2Proof.Machine.execLdAAtBc s
  | .ldAAtDe => Sys2Proof.Machine.execLdAAtDe s
  | .ldAtBcA => Sys2Proof.Machine.execLdAtBcA s
  | .ldAtDeA => Sys2Proof.Machine.execLdAtDeA s
  | .ldAAtNn nn => Sys2Proof.Machine.execLdAAtNn nn s
  | .ldAtNnA nn => Sys2Proof.Machine.execLdAtNnA nn s
  | .ldhAAtC => Sys2Proof.Machine.execLdhAAtC s
  | .ldhAtCA => Sys2Proof.Machine.execLdhAtCA s
  | .ldhAAtN n => Sys2Proof.Machine.execLdhAAtN n s
  | .ldhAtNA n => Sys2Proof.Machine.execLdhAtNA n s
  | .ldAtHliA => Sys2Proof.Machine.execLdAtHliA s
  | .ldAAtHli => Sys2Proof.Machine.execLdAAtHli s
  | .ldAtHldA => Sys2Proof.Machine.execLdAtHldA s
  | .ldAAtHld => Sys2Proof.Machine.execLdAAtHld s
  | .ldRrNn dst nn => Sys2Proof.Machine.execLdRrNn dst nn s
  | .ldAtNnSp nn => Sys2Proof.Machine.execLdAtNnSp nn s
  | .ldSpHl => Sys2Proof.Machine.execLdSpHl s
  | .ldHlSpE e => Sys2Proof.Machine.execLdHlSpE e s
  | .push src => Sys2Proof.Machine.execPush src s
  | .pop dst => Sys2Proof.Machine.execPop dst s
  | .addR src => Sys2Proof.Machine.execAddR src s
  | .addAtHl => Sys2Proof.Machine.execAddAtHl s
  | .addN n => Sys2Proof.Machine.execAddN n s
  | .adcR src => Sys2Proof.Machine.execAdcR src s
  | .adcAtHl => Sys2Proof.Machine.execAdcAtHl s
  | .adcN n => Sys2Proof.Machine.execAdcN n s
  | .subR src => Sys2Proof.Machine.execSubR src s
  | .subAtHl => Sys2Proof.Machine.execSubAtHl s
  | .subN n => Sys2Proof.Machine.execSubN n s
  | .sbcR src => Sys2Proof.Machine.execSbcR src s
  | .sbcAtHl => Sys2Proof.Machine.execSbcAtHl s
  | .sbcN n => Sys2Proof.Machine.execSbcN n s
  | .andR src => Sys2Proof.Machine.execAndR src s
  | .andAtHl => Sys2Proof.Machine.execAndAtHl s
  | .andN n => Sys2Proof.Machine.execAndN n s
  | .xorR src => Sys2Proof.Machine.execXorR src s
  | .xorAtHl => Sys2Proof.Machine.execXorAtHl s
  | .xorN n => Sys2Proof.Machine.execXorN n s
  | .orR src => Sys2Proof.Machine.execOrR src s
  | .orAtHl => Sys2Proof.Machine.execOrAtHl s
  | .orN n => Sys2Proof.Machine.execOrN n s
  | .cpR src => Sys2Proof.Machine.execCpR src s
  | .cpAtHl => Sys2Proof.Machine.execCpAtHl s
  | .cpN n => Sys2Proof.Machine.execCpN n s
  | .incR dst => Sys2Proof.Machine.execIncR dst s
  | .incAtHl => Sys2Proof.Machine.execIncAtHl s
  | .decR dst => Sys2Proof.Machine.execDecR dst s
  | .decAtHl => Sys2Proof.Machine.execDecAtHl s
  | .daa => Sys2Proof.Machine.execDaa s
  | .cpl => Sys2Proof.Machine.execCpl s
  | .scf => Sys2Proof.Machine.execScf s
  | .ccf => Sys2Proof.Machine.execCcf s
  | .addHlRr src => Sys2Proof.Machine.execAddHlRr src s
  | .incRr dst => Sys2Proof.Machine.execIncRr dst s
  | .decRr dst => Sys2Proof.Machine.execDecRr dst s
  | .addSpE e => Sys2Proof.Machine.execAddSpE e s
  | .rlca => Sys2Proof.Machine.execRlca s
  | .rrca => Sys2Proof.Machine.execRrca s
  | .rla => Sys2Proof.Machine.execRla s
  | .rra => Sys2Proof.Machine.execRra s
  | .rlcR dst => Sys2Proof.Machine.execRlcR dst s
  | .rlcAtHl => Sys2Proof.Machine.execRlcAtHl s
  | .rrcR dst => Sys2Proof.Machine.execRrcR dst s
  | .rrcAtHl => Sys2Proof.Machine.execRrcAtHl s
  | .rlR dst => Sys2Proof.Machine.execRlR dst s
  | .rlAtHl => Sys2Proof.Machine.execRlAtHl s
  | .rrR dst => Sys2Proof.Machine.execRrR dst s
  | .rrAtHl => Sys2Proof.Machine.execRrAtHl s
  | .slaR dst => Sys2Proof.Machine.execSlaR dst s
  | .slaAtHl => Sys2Proof.Machine.execSlaAtHl s
  | .sraR dst => Sys2Proof.Machine.execSraR dst s
  | .sraAtHl => Sys2Proof.Machine.execSraAtHl s
  | .swapR dst => Sys2Proof.Machine.execSwapR dst s
  | .swapAtHl => Sys2Proof.Machine.execSwapAtHl s
  | .srlR dst => Sys2Proof.Machine.execSrlR dst s
  | .srlAtHl => Sys2Proof.Machine.execSrlAtHl s
  | .bitR b src => Sys2Proof.Machine.execBitR b src s
  | .bitAtHl b => Sys2Proof.Machine.execBitAtHl b s
  | .resR b dst => Sys2Proof.Machine.execResR b dst s
  | .resAtHl b => Sys2Proof.Machine.execResAtHl b s
  | .setR b dst => Sys2Proof.Machine.execSetR b dst s
  | .setAtHl b => Sys2Proof.Machine.execSetAtHl b s
  | .jpNn nn => Sys2Proof.Machine.execJpNn nn s
  | .jpCc cc nn => Sys2Proof.Machine.execJpCc cc nn s
  | .jpHl => Sys2Proof.Machine.execJpHl s
  | .jrE e => Sys2Proof.Machine.execJrE e s
  | .jrCc cc e => Sys2Proof.Machine.execJrCc cc e s
  | .callNn nn => Sys2Proof.Machine.execCallNn nn s
  | .callCc cc nn => Sys2Proof.Machine.execCallCc cc nn s
  | .ret => Sys2Proof.Machine.execRet s
  | .retCc cc => Sys2Proof.Machine.execRetCc cc s
  | .reti => Sys2Proof.Machine.execReti s
  | .rst t => Sys2Proof.Machine.execRst t s
  | .nop => Sys2Proof.Machine.execNop s
  | .halt => Sys2Proof.Machine.execHalt s
  | .stop => Sys2Proof.Machine.execStop s
  | .di => Sys2Proof.Machine.execDi s
  | .ei => Sys2Proof.Machine.execEi s
  | .prefixCb => Sys2Proof.Machine.execPrefixCb s
  | .undefD3 => Sys2Proof.Machine.execUndefD3 s
  | .undefDB => Sys2Proof.Machine.execUndefDB s
  | .undefDD => Sys2Proof.Machine.execUndefDD s
  | .undefE3 => Sys2Proof.Machine.execUndefE3 s
  | .undefE4 => Sys2Proof.Machine.execUndefE4 s
  | .undefEB => Sys2Proof.Machine.execUndefEB s
  | .undefEC => Sys2Proof.Machine.execUndefEC s
  | .undefED => Sys2Proof.Machine.execUndefED s
  | .undefF4 => Sys2Proof.Machine.execUndefF4 s
  | .undefFC => Sys2Proof.Machine.execUndefFC s
  | .undefFD => Sys2Proof.Machine.execUndefFD s

end Sys2Proof.Machine
end

