-- ==== Sys2Proof/Machine/Step.lean ====
section
/-! DEFINITION. One step of the CPU (spec/60_exceptions.md R300): wake, idle, interrupt, or one instruction. -/

namespace Sys2Proof.Machine

/-- S4 to S6: one instruction is fetched and executed, and the `EI` delay moves on (R306, R307, R308). -/
def runInstr (s : State) : Host.Outcome State Fault Refusal :=
  let f := fetchInstr s
  match exec f.1 f.2 with
  | .next t => .next (eiDelay t)
  | .fault r => .fault r
  | .refused r => .refused r

/-- `Step()` (R300); S7, the breakpoint checks, is the host's and changes nothing (R309). -/
def step (s : State) : Host.Outcome State Fault Refusal :=
  let s1 := wake s
  if idles s1 then .next (tick 4 s1)
  else if takesInterrupt s1 then .next (dispatch s1)
  else runInstr s1

/-- `s` with the instruction of a table row's word, the bytes the row leaves out zero, where `step` fetches next. -/
def State.withFetchWord (s : State) (nbits w : Nat) : State := placeCode s (tableBytes nbits w)

end Sys2Proof.Machine
end

