-- ==== Sys2Proof/Machine/Launch.lean ====
section
/-! DEFINITION. The two launch states the spec names (spec/10_state.md R41, R42; spec/70_reset_and_hazards.md R430, R431), as
functions of the launch parameters of spec/00_scope.md R6: how a program comes to run on the machine. Nothing in a step reads
this file. -/

namespace Sys2Proof.Machine

/-- The memory image with a list of byte strings placed at their bus addresses. -/
def placeImage (m : List Host.Cell) : List (Nat × List Byte) → List Host.Cell
  | [] => m
  | (a, bytes) :: rest => placeImage (Memory.writeBytes m a bytes) rest

/-- RESET_PROFILE `post_boot` (R42) with the parameters ROM and `init` in one memory image: the sprite scan of line 0 is done
on the launch OAM. `State.reset` is this with nothing listed and the other parameters at their defaults. -/
def State.launchPostBoot (image : List Host.Cell) (policy : UndefPolicy) (cart : Cart) (extIo : ExtIo) : State :=
  { State.reset with
    mem := image
    undefPolicy := policy
    cart := cart
    extIo := extIo
    ppu := Ppu.postBoot (spritesOfLine image (spriteHeight (Ppu.postBoot [])) 0) }

/-- RESET_PROFILE `power_on` (R41): the registers from `init` (their PC apart, and the low nibble of F zero), the memories
from ROM and `init`, the BIOS image mapped, every device register $00. -/
def State.launchPowerOn (init : Regs) (image bios : List Host.Cell) (policy : UndefPolicy) (cgb : Option Cgb) (cart : Cart)
    (extIo : ExtIo) : State where
  regs := { init with f := init.f &&& 0xF0#8, pc := 0x0000#16 }
  cyclesTotal := 0
  ime := false
  imePending := 0
  halted := false
  stopped := false
  haltBug := false
  intFlags := 0#5
  intEnable := 0#5
  timer := { divCounter := 0#16, tima := 0#8, tma := 0#8, tac := 0#3, timaDelay := 0 }
  ppu := Ppu.powerOn
  mem := image
  bios := bios
  biosEnabled := true
  dmaRemaining := 0
  undefPolicy := policy
  cgb := cgb
  cart := cart
  extIo := extIo

/-- The registers R41 takes when `init` gives none: all $00. -/
def Regs.zero : Regs where
  a := 0#8
  f := 0#8
  b := 0#8
  c := 0#8
  d := 0#8
  e := 0#8
  h := 0#8
  l := 0#8
  sp := 0#16
  pc := 0#16

end Sys2Proof.Machine
end

