-- ==== Sys2Proof/Safety.lean ====
section
/-! DEFINITION. What the claims about the machine speak of: the invariants of spec/10_state.md R43 and spec/60_exceptions.md
R324, the states a run reaches, what an instruction leaves alone, the bytes a step fetches, and the flag arithmetic of
spec/42_alu8.md and spec/43_alu16.md written with exact integers. No step calls anything of this file. -/

namespace Sys2Proof.Machine

/-! ### Invariants -/

/-- The mode of a PPU position, LCD on (R386). -/
def modeAt (ly lineCycle : Nat) : Mode :=
  if 144 ≤ ly then .vblank else if lineCycle < 80 then .oamScan else if lineCycle < 252 then .rendering else .hblank

/-- R23, R29. -/
abbrev CpuInv (s : State) : Prop := s.regs.f &&& 0x0F#8 = 0#8 ∧ s.imePending ≤ 2

/-- The ranges of R35 and R36. -/
abbrev PpuRanges (p : Ppu) : Prop := p.ly.toNat ≤ 153 ∧ p.lineCycle ≤ 455 ∧ p.lineSprites.length ≤ 10

/-- "LCD off: mode = 0, LY = 0, line_cycle = 0" (R43). -/
abbrev FrozenRule (p : Ppu) : Prop := lcdOn p = false → p.mode = .hblank ∧ p.ly = 0#8 ∧ p.lineCycle = 0

/-- The mode is the one of the position (R43, R386). -/
abbrev ModeByPosition (p : Ppu) : Prop := lcdOn p = true → p.mode = modeAt p.ly.toNat p.lineCycle

/-- The same, but for the state R43 excepts: mode 1 with LY = 0, left by a write to LY during VBlank (R384). -/
abbrev ModeByPositionOrLyWrite (p : Ppu) : Prop :=
  lcdOn p = true → p.mode = modeAt p.ly.toNat p.lineCycle ∨ (p.mode = .vblank ∧ p.ly = 0#8)

/-- The addresses of the memory image a byte can stand at: cartridge ROM, VRAM, WRAM, OAM and HRAM (R37, R60). -/
def backed (n : Nat) : Bool :=
  decide (n < 0xA000) || (decide (0xC000 ≤ n) && decide (n < 0xE000)) || (decide (0xFE00 ≤ n) && decide (n < 0xFEA0)) ||
    (decide (0xFF80 ≤ n) && decide (n < 0xFFFF))

/-- Both images in canonical form, with bytes only where a byte can stand. -/
abbrev MemInv (s : State) : Prop :=
  Memory.wf s.mem = true ∧ Memory.wf s.bios = true ∧ s.mem.all (fun c => backed c.1) = true ∧
    s.bios.all (fun c => decide (c.1 ≤ 0x08FF)) = true

/-- What every step keeps (R43, R324). -/
abbrev State.Inv (s : State) : Prop :=
  CpuInv s ∧ s.timer.timaDelay ≤ 4 ∧ s.dmaRemaining ≤ 640 ∧ PpuRanges s.ppu ∧ FrozenRule s.ppu ∧
    ModeByPositionOrLyWrite s.ppu ∧ MemInv s

/-- A well-formed launch state (R43). -/
abbrev State.LaunchWf (s : State) : Prop :=
  CpuInv s ∧ s.timer.timaDelay ≤ 4 ∧ s.dmaRemaining ≤ 640 ∧ PpuRanges s.ppu ∧ FrozenRule s.ppu ∧
    ModeByPosition s.ppu ∧ MemInv s

/-- The states a run from `s` reaches: steps, and joypad edges and events of an EXT_IO device between them (R301, R421,
R422). -/
inductive Reaches (s : State) : State → Prop where
  | start : Reaches s s
  | step {t u : State} : Reaches s t → Machine.step t = .next u → Reaches s u
  | edge {t : State} : Reaches s t → Reaches s (joypadEdge t)
  | event {t : State} (n : Nat) (flags : BitVec 5) : Reaches s t → Reaches s (extIoEvent t n flags)

/-! ### Fetching -/

/-- S4 to S6 run: the CPU does not idle and takes no interrupt in this step. -/
def runsInstr (s : State) : Bool := !idles (wake s) && !takesInterrupt (wake s)

/-- What the halt bug holds PC back by (R306). -/
def heldBack (s : State) : Word := if s.haltBug then 1#16 else 0#16

/-- The state a timed read of `a` leaves (R15): its side effect, if it has one, and 4 T-cycles. -/
def afterRead (s : State) (a : Word) : State := tick 4 (readEffect s a)

/-- Where byte `k` of the instruction is fetched (R16, R306). -/
def codeAddr (s : State) : Nat → Word
  | 0 => s.regs.pc
  | k + 1 => s.regs.pc + BitVec.ofNat 16 (k + 1) - heldBack s

/-- The state after `k` bytes are fetched, PC and the halt bug apart. -/
def afterBytes (s : State) : Nat → State
  | 0 => s
  | k + 1 => afterRead (afterBytes s k) (codeAddr s k)

/-- Byte `k` of the instruction as the step fetches it, each byte 4 T-cycles after the one before. -/
def codeByte (s : State) (k : Nat) : Byte := busRead (afterBytes s k) (codeAddr s k)

/-- The state an instruction of `n` bytes is executed in: its bytes fetched, PC past it, the halt bug used up. -/
def afterFetch (s : State) (n : Nat) : State :=
  { afterBytes s n with regs := { s.regs with pc := s.regs.pc + BitVec.ofNat 16 n - heldBack s }, haltBug := false }

/-- The bytes the step fetches are those of instruction `i`. -/
def fetches (s : State) (i : Instr) : Prop :=
  ∃ rest, decode [codeByte (wake s) 0, codeByte (wake s) 1, codeByte (wake s) 2] = .instr i rest

/-- The eleven undefined opcodes (R107). -/
def undefinedOpcodes : List (Byte × Instr) :=
  [(0xD3#8, .undefD3), (0xDB#8, .undefDB), (0xDD#8, .undefDD), (0xE3#8, .undefE3), (0xE4#8, .undefE4),
    (0xEB#8, .undefEB), (0xEC#8, .undefEC), (0xED#8, .undefED), (0xF4#8, .undefF4), (0xFC#8, .undefFC),
    (0xFD#8, .undefFD)]

/-! ### The edge of the block -/

/-- An I/O address that R350 does not list: EXT_IO's. -/
abbrev extIoAddress (a : Word) : Prop :=
  0xFF00 ≤ a.toNat ∧ a.toNat < 0xFF80 ∧ a.toNat ∉ [0xFF04, 0xFF05, 0xFF06, 0xFF07, 0xFF0F, 0xFF40, 0xFF41, 0xFF42, 0xFF43,
    0xFF44, 0xFF45, 0xFF46, 0xFF47, 0xFF48, 0xFF49, 0xFF4A, 0xFF4B, 0xFF50]

/-- An address the cartridge answers (R62, R65). -/
abbrev cartAddress (a : Word) : Prop := a.toNat < 0x8000 ∨ (0xA000 ≤ a.toNat ∧ a.toNat < 0xC000)

/-- An address whose reads the BIOS overlay answers while it is mapped (R63, R427). -/
abbrev overlayAddress (s : State) (a : Word) : Prop :=
  a.toNat ≤ 0x00FF ∨ (s.cgb.isSome = true ∧ 0x0200 ≤ a.toNat ∧ a.toNat ≤ 0x08FF)

/-- The ROM of a cartridge other than the default (R66). -/
def Cart.romOf : Cart → Option Nat
  | .noMbc => none
  | .other rom _ => some rom

/-- Whether there is a device behind EXT_IO (R71). -/
def ExtIo.isDevice : ExtIo → Bool
  | .absent => false
  | .device _ => true

/-! ### Frames -/

/-- `s` with another register file. -/
def State.withRegs (s : State) (g : Regs) : State := { s with regs := g }

/-- What holds the CPU's control state is the same in `t`. -/
structure ControlKept (s t : State) : Prop where
  ime : t.ime = s.ime
  imePending : t.imePending = s.imePending
  halted : t.halted = s.halted
  stopped : t.stopped = s.stopped
  haltBug : t.haltBug = s.haltBug
  intEnable : t.intEnable = s.intEnable
  bios : t.bios = s.bios
  biosEnabled : t.biosEnabled = s.biosEnabled
  undefPolicy : t.undefPolicy = s.undefPolicy
  cgb : t.cgb = s.cgb
  cart : t.cart = s.cart
  extIo : t.extIo = s.extIo

/-- The clock and the devices of `t` are those of `s` after `k` T-cycles, and no bus write (R14). -/
structure DevicesMove (k : Nat) (s t : State) : Prop where
  cycles : t.cyclesTotal = s.cyclesTotal + k
  timer : t.timer = (tick k s).timer
  ppu : t.ppu = (tick k s).ppu
  intFlags : t.intFlags = (tick k s).intFlags
  dma : t.dmaRemaining = (tick k s).dmaRemaining

/-- Every byte of memory reads as before. -/
def MemoryKept (s t : State) : Prop := ∀ n, Memory.read t.mem n = Memory.read s.mem n

/-- A write of the CPU to `a` in state `s` stores into cell `n` of the memory image: the cell behind `a`, or, for the DMA
register, any cell of OAM (R64, R67 to R69, R72, R415). -/
def storesTo (s : State) (a : Word) (n : Nat) : Prop :=
  storeCell s a = some n ∨ (a = 0xFF46#16 ∧ 0xFE00 ≤ n ∧ n < 0xFEA0)

/-- `t` differs from `s` in the register file and by `k` T-cycles of time, and in nothing else. -/
structure OnlyTime (k : Nat) (s t : State) : Prop extends ControlKept s t, DevicesMove k s t where
  memory : MemoryKept s t

/-- `t` is `s` after the bus write of `v` to `a` and `k` T-cycles, registers apart: which cells hold the byte, which keep
theirs, and that nothing but the bus write and time moved the rest. -/
structure StoredByte (s : State) (a : Word) (v : Byte) (k : Nat) (t : State) : Prop extends
    ControlKept (busWrite s a v) t, DevicesMove k (busWrite s a v) t where
  frame : ∀ n, ¬ storesTo s a n → Memory.read t.mem n = Memory.read s.mem n
  value : Memory.wf s.mem = true → ∀ n, storeCell s a = some n → Memory.read t.mem n = v

/-- Two such writes, 4 T-cycles apart, the second with `k` T-cycles after it: `v1` to `a1`, then `v2` to `a2`. -/
structure StoredTwo (s : State) (a1 : Word) (v1 : Byte) (a2 : Word) (v2 : Byte) (k : Nat) (t : State) : Prop extends
    ControlKept (busWrite (memWrite s a1 v1) a2 v2) t, DevicesMove k (busWrite (memWrite s a1 v1) a2 v2) t where
  frame : ∀ n, ¬ storesTo s a1 n → ¬ storesTo (memWrite s a1 v1) a2 n → Memory.read t.mem n = Memory.read s.mem n
  first : Memory.wf s.mem = true → ∀ n, storeCell s a1 = some n → ¬ storesTo (memWrite s a1 v1) a2 n →
    Memory.read t.mem n = v1
  second : Memory.wf s.mem = true → ∀ n, storeCell (memWrite s a1 v1) a2 = some n → Memory.read t.mem n = v2

/-- The halves of a pair. -/
def pairHas : R16 → R8 → Bool
  | .bc, .b | .bc, .c | .de, .d | .de, .e | .hl, .h | .hl, .l => true
  | _, _ => false

/-! ### Flags and results in exact integers -/

/-- `z * $80 + n * $40 + h * $20 + c * $10` (R12). -/
def specF (z n h c : Bool) : Byte := BitVec.ofNat 8 (128 * z.toNat + 64 * n.toNat + 32 * h.toNat + 16 * c.toNat)

/-- The flags as bits of F (R22). -/
def flagZ (g : Regs) : Bool := g.f.getLsbD 7
def flagN (g : Regs) : Bool := g.f.getLsbD 6
def flagH (g : Regs) : Bool := g.f.getLsbD 5
def flagC (g : Regs) : Bool := g.f.getLsbD 4

/-- Whether condition `cc` holds: NZ, Z, NC, C (R103). -/
def condMet (g : Regs) : Cond → Bool
  | .nz => !flagZ g
  | .z => flagZ g
  | .nc => !flagC g
  | .c => flagC g

/-- `(A, z, n, h, c) <- Add8(A, v, cin); Flags(z, 0, h, c)` (R175). -/
def addResult (g : Regs) (v : Byte) (cin : Nat) : Regs :=
  let sum := g.a.toNat + v.toNat + cin
  { g with a := BitVec.ofNat 8 sum
           f := specF (decide (sum % 256 = 0)) false (decide (g.a.toNat % 16 + v.toNat % 16 + cin > 15)) (decide (sum > 255)) }

/-- The flags of `Sub8(A, v, cin)` (R176); the difference is exact. -/
def subFlags (a v : Byte) (cin : Nat) : Byte :=
  let diff : Int := a.toNat - v.toNat - cin
  specF (decide (diff % 256 = 0)) true (decide (a.toNat % 16 < v.toNat % 16 + cin)) (decide (diff < 0))

/-- `(A, z, n, h, c) <- Sub8(A, v, cin); Flags(z, 1, h, c)` (R176). -/
def subResult (g : Regs) (v : Byte) (cin : Nat) : Regs :=
  { g with a := BitVec.ofInt 8 ((g.a.toNat : Int) - v.toNat - cin), f := subFlags g.a v cin }

/-- `CP`: the flags alone (R201). -/
def compareResult (g : Regs) (v : Byte) : Regs := { g with f := subFlags g.a v 0 }

/-- A logic operation's result with its H flag (R177). -/
def logicResult (g : Regs) (r : Byte) (h : Bool) : Regs := { g with a := r, f := specF (decide (r.toNat = 0)) false h false }

/-- A byte that is two decimal digits, and its value. -/
def isBcd (v : Byte) : Bool := decide (v.toNat % 16 < 10) && decide (v.toNat / 16 < 10)
def bcdValue (v : Byte) : Nat := v.toNat / 16 * 10 + v.toNat % 16

/-- Row `y` of the table of R230, by arithmetic on the byte's value: result and carry out. -/
def specRotate (f : Rot) (v cin : Nat) : Nat × Bool :=
  match f with
  | .rlc => ((2 * v + v / 128) % 256, decide (128 ≤ v))
  | .rrc => (v / 2 + 128 * (v % 2), decide (v % 2 = 1))
  | .rl => ((2 * v + cin) % 256, decide (128 ≤ v))
  | .rr => (v / 2 + 128 * cin, decide (v % 2 = 1))
  | .sla => ((2 * v) % 256, decide (128 ≤ v))
  | .sra => (v / 2 + 128 * (v / 128), decide (v % 2 = 1))
  | .swap => (v % 16 * 16 + v / 16, false)
  | .srl => (v / 2, decide (v % 2 = 1))

/-! ### Time -/

/-- The T-cycles of an instruction, fetch included, as the line `cycles N` of its rule gives them; `g` holds the flags a
condition looks at. A `$CB` byte never comes alone out of a fetch, so the prefix's own entry is never used; STOP's entry is
the one of a machine that does not switch speed. -/
def costOf (g : Regs) : Instr → Nat
  | .ldRR _ _ => 4
  | .ldRN _ _ | .ldRAtHl _ | .ldAtHlR _ => 8
  | .ldAtHlN _ => 12
  | .ldAAtBc | .ldAAtDe | .ldAtBcA | .ldAtDeA => 8
  | .ldAAtNn _ | .ldAtNnA _ => 16
  | .ldhAAtC | .ldhAtCA => 8
  | .ldhAAtN _ | .ldhAtNA _ => 12
  | .ldAtHliA | .ldAAtHli | .ldAtHldA | .ldAAtHld => 8
  | .ldRrNn _ _ => 12
  | .ldAtNnSp _ => 20
  | .ldSpHl => 8
  | .ldHlSpE _ => 12
  | .push _ => 16
  | .pop _ => 12
  | .addR _ | .adcR _ | .subR _ | .sbcR _ | .andR _ | .xorR _ | .orR _ | .cpR _ => 4
  | .addAtHl | .adcAtHl | .subAtHl | .sbcAtHl | .andAtHl | .xorAtHl | .orAtHl | .cpAtHl => 8
  | .addN _ | .adcN _ | .subN _ | .sbcN _ | .andN _ | .xorN _ | .orN _ | .cpN _ => 8
  | .incR _ | .decR _ => 4
  | .incAtHl | .decAtHl => 12
  | .daa | .cpl | .scf | .ccf => 4
  | .addHlRr _ | .incRr _ | .decRr _ => 8
  | .addSpE _ => 16
  | .rlca | .rrca | .rla | .rra => 4
  | .rlcR _ | .rrcR _ | .rlR _ | .rrR _ | .slaR _ | .sraR _ | .swapR _ | .srlR _ => 8
  | .rlcAtHl | .rrcAtHl | .rlAtHl | .rrAtHl | .slaAtHl | .sraAtHl | .swapAtHl | .srlAtHl => 16
  | .bitR _ _ | .resR _ _ | .setR _ _ => 8
  | .bitAtHl _ => 12
  | .resAtHl _ | .setAtHl _ => 16
  | .jpNn _ => 16
  | .jpCc cc _ => if condMet g cc then 16 else 12
  | .jpHl => 4
  | .jrE _ => 12
  | .jrCc cc _ => if condMet g cc then 12 else 8
  | .callNn _ => 24
  | .callCc cc _ => if condMet g cc then 24 else 12
  | .ret => 16
  | .retCc cc => if condMet g cc then 20 else 8
  | .reti => 16
  | .rst _ => 16
  | .nop | .halt | .stop | .di | .ei => 4
  | .prefixCb => 8
  | .undefD3 | .undefDB | .undefDD | .undefE3 | .undefE4 | .undefEB | .undefEC | .undefED | .undefF4 | .undefFC
  | .undefFD => 4

/-! ### The picture -/

/-- The PPU's place in the frame, in T-cycles from the start of line 0 (R385). -/
def framePos (p : Ppu) : Nat := p.ly.toNat * 456 + p.lineCycle

/-- Bit `n` of a byte, as a number. -/
def bitNat (v : Byte) (n : Nat) : Nat := v.toNat / 2 ^ n % 2

/-- The background's colour index and shade at pixel (x, y), as R399 computes them, in exact integers. -/
def specBackground (m : List Host.Cell) (p : Ppu) (y x : Nat) : Nat × Nat :=
  if bitNat p.lcdc 0 = 0 then (0, 0)
  else
    let window := bitNat p.lcdc 5 = 1 ∧ p.wx.toNat ≤ x + 7 ∧ p.wy.toNat ≤ y
    let map := if window then (if bitNat p.lcdc 6 = 1 then 0x9C00 else 0x9800)
      else if bitNat p.lcdc 3 = 1 then 0x9C00 else 0x9800
    let px := if window then x + 7 - p.wx.toNat else (x + p.scx.toNat) % 256
    let py := if window then y - p.wy.toNat else (y + p.scy.toNat) % 256
    let t := (Memory.read m (map + 32 * (py / 8) + px / 8)).toNat
    let base := if bitNat p.lcdc 4 = 1 then 0x8000 + 16 * t else if t < 128 then 0x9000 + 16 * t else 0x8000 + 16 * t
    let lo := Memory.read m (base + 2 * (py % 8))
    let hi := Memory.read m (base + 2 * (py % 8) + 1)
    let index := 2 * bitNat hi (7 - px % 8) + bitNat lo (7 - px % 8)
    (index, p.bgp.toNat / 4 ^ index % 4)

/-- The key order of R398: X first, then OAM index. -/
def spriteKeyLt (m : List Host.Cell) (i j : Fin 40) : Prop :=
  (oamByte m i 1).toNat < (oamByte m j 1).toNat ∨ ((oamByte m i 1).toNat = (oamByte m j 1).toNat ∧ i.val < j.val)

/-- The shade sprite `i` puts on pixel `x` of line `y`, as R401 computes it, in exact integers, from OAM, VRAM and the
registers as they are now: none where the sprite does not cover the pixel, where its pixel has index 0, or where the
background hides it. -/
def specSprite (m : List Host.Cell) (p : Ppu) (y x : Nat) (i : Fin 40) : Option Nat :=
  let oam (k : Nat) : Nat := (Memory.read m (0xFE00 + 4 * i.val + k)).toNat
  let attr := Memory.read m (0xFE00 + 4 * i.val + 3)
  let h := if bitNat p.lcdc 2 = 1 then 16 else 8
  if oam 0 ≤ y + 16 ∧ y + 16 < oam 0 + h ∧ oam 1 ≤ x + 8 ∧ x < oam 1 then
    let row := if bitNat attr 6 = 1 then h - 1 - (y + 16 - oam 0) else y + 16 - oam 0
    let tile := if h = 16 then oam 2 / 2 * 2 + row / 8 else oam 2
    let lo := Memory.read m (0x8000 + 16 * tile + 2 * (row % 8))
    let hi := Memory.read m (0x8000 + 16 * tile + 2 * (row % 8) + 1)
    let k := if bitNat attr 5 = 1 then x + 8 - oam 1 else 7 - (x + 8 - oam 1)
    let index := 2 * bitNat hi k + bitNat lo k
    if index ≠ 0 ∧ (bitNat attr 7 = 0 ∨ (specBackground m p y x).1 = 0) then
      some ((if bitNat attr 4 = 1 then p.obp1 else p.obp0).toNat / 4 ^ index % 4)
    else none
  else none

end Sys2Proof.Machine
end

