-- ==== Sys2Proof/Certificates/Slice0/Obligations.lean ====
section
/-! DEFINITION. The statements for the provers, each from numbered rules of the spec. Their terms are the machine's own and
those of Sys2Proof/Safety.lean. -/

open Sys2Proof Sys2Proof.Machine

/-! ### Encoding -/

/-- R100 to R109: no bit of an encoding is dropped. The prefix by itself is an instruction only at the end of the bytes
(log entry 7). -/
def Obligations.DecodeOfEncode : Prop :=
  ∀ (i : Instr) (rest : List Byte), i.wellFormed = true → (i = .prefixCb → rest = []) →
    decode (encode i ++ rest) = .instr i rest

/-- R100, R107, R108, R113: any three bytes begin with one instruction and no other, of one, two or three bytes, two when the
first is `$CB`, and the bytes are its encoding. -/
def Obligations.EveryWordHasOneMeaning : Prop :=
  (∀ (bytes : List Byte) (i : Instr) (rest : List Byte), decode bytes = .instr i rest →
    i.wellFormed = true ∧ bytes = encode i ++ rest) ∧
  ∀ b0 b1 b2 : Byte, ∃ i n, decode [b0, b1, b2] = .instr i ([b0, b1, b2].drop n) ∧ 1 ≤ n ∧ n ≤ 3 ∧
    n = (encode i).length ∧ (b0 = 0xCB#8 → n = 2)

/-- Words written out from R101 to R106, a few of each family (R3 names the first five). -/
def Obligations.SampleWords : Prop :=
  decode [0b00001001#8] = .instr (.addHlRr .bc) [] ∧ decode [0b10000000#8] = .instr (.addR .b) [] ∧
  decode [0b00100111#8] = .instr .daa [] ∧ decode [0b01110110#8] = .instr .halt [] ∧
  decode [0b00111100#8] = .instr (.incR .a) [] ∧
  decode [0b01010011#8] = .instr (.ldRR .d .e) [] ∧ decode [0b00110110#8, 0x5A#8] = .instr (.ldAtHlN 0x5A#8) [] ∧
  decode [0b00110001#8, 0x34#8, 0x12#8] = .instr (.ldRrNn .sp 0x1234#16) [] ∧
  decode [0b11110101#8] = .instr (.push .af) [] ∧ decode [0b11011110#8, 0x0F#8] = .instr (.sbcN 0x0F#8) [] ∧
  decode [0xCB#8, 0b00110111#8] = .instr (.swapR .a) [] ∧ decode [0xCB#8, 0b01101110#8] = .instr (.bitAtHl 5) [] ∧
  decode [0b11010010#8, 0x00#8, 0x80#8] = .instr (.jpCc .nc 0x8000#16) [] ∧
  decode [0b11101111#8] = .instr (.rst 0x28#8) [] ∧ decode [0b11011101#8] = .instr .undefDD []

/-! ### The step loop -/

/-- R300 S4 to S6, R306, R308: a step that neither idles nor dispatches runs the instruction whose bytes it fetches, in the
state those fetches leave, and then moves the `EI` delay on. -/
def Obligations.StepRunsFetchedInstruction : Prop :=
  ∀ (s : State) (i : Instr) (rest : List Byte), runsInstr s = true →
    decode [codeByte (wake s) 0, codeByte (wake s) 1, codeByte (wake s) 2] = .instr i rest →
    step s = match exec i (afterFetch (wake s) (encode i).length) with
      | .next t => .next (eiDelay t)
      | .fault f => .fault f
      | .refused r => .refused r

/-- R303, R304, R312, R313: an idle step is 4 T-cycles of time and nothing else, but that a halt ends when an enabled
interrupt is pending; a stop outlasts it. A halted CPU with an enabled interrupt pending goes on in the same step as if it
had not been halted: it takes the interrupt if `ime` is set, and runs an instruction if not. -/
def Obligations.IdleAndWake : Prop :=
  ∀ s : State,
    (s.stopped = true ∨ (s.halted = true ∧ pending s = 0#5) →
      ∃ t, step s = .next t ∧ OnlyTime 4 { s with halted := s.halted && pending s == 0#5 } t ∧ t.regs = s.regs) ∧
    (s.halted = true → s.stopped = false → pending s ≠ 0#5 →
      (s.ime = true → step s = .next (dispatch { s with halted := false })) ∧
      (s.ime = false → step s = runInstr { s with halted := false }))

/-- R305, R310, R311, R314: what taking an interrupt saves, changes and leaves. The least-numbered pending one is taken, alone;
the others stay flagged (where the pushes do not write IF themselves). The two pushed bytes go where bus writes to SP - 1 and
SP - 2 go, in that order. -/
def Obligations.InterruptEntry : Prop :=
  ∀ (s : State) (n : Nat), s.ime = true → s.stopped = false → n < 5 → (pending s).getLsbD n = true →
    (∀ m < n, (pending s).getLsbD m = false) →
    let s1 := { s with halted := false, intFlags := s.intFlags &&& ~~~(1#5 <<< n), ime := false, imePending := 0 }
    ∃ t, step s = .next t ∧
      t.regs = { s.regs with sp := s.regs.sp - 2#16, pc := BitVec.ofNat 16 (0x40 + 8 * n) } ∧
      t.ime = false ∧ t.imePending = 0 ∧ t.halted = false ∧ t.stopped = false ∧ t.haltBug = s.haltBug ∧
      t.cyclesTotal = s.cyclesTotal + 20 ∧
      (s.regs.sp ≠ 0xFF10#16 → s.regs.sp ≠ 0xFF11#16 → ∀ m, m ≠ n → s.intFlags.getLsbD m = true →
        t.intFlags.getLsbD m = true) ∧
      StoredTwo s1 (s.regs.sp - 1#16) (s.regs.pc.extractLsb' 8 8) (s.regs.sp - 2#16) (s.regs.pc.extractLsb' 0 8) 16 t

/-- R308, R293, R294: the table of the `EI` delay. -/
def Obligations.EiDelayTable : Prop :=
  ∀ (s t : State) (i : Instr), runsInstr s = true → fetches s i → step s = .next t →
    (i = .ei → t.ime = s.ime ∧ t.imePending = 1) ∧
    (i = .di → t.ime = false ∧ t.imePending = 0) ∧
    (i ≠ .ei → i ≠ .di → s.imePending = 1 → t.ime = true ∧ t.imePending = 0) ∧
    (i ≠ .ei → i ≠ .di → i ≠ .reti → s.imePending = 0 → t.ime = s.ime ∧ t.imePending = 0)

/-- R28, R31, R324 (c): `ime` comes on only by RETI or at the end of the `EI` delay; `halt_bug` comes on only by HALT, and an
instruction step uses it up; a stop is ended by no step. -/
def Obligations.WhoSetsControlState : Prop :=
  ∀ s t : State, step s = .next t →
    (s.ime = false → t.ime = true → runsInstr s = true ∧ (fetches s .reti ∨ s.imePending = 1)) ∧
    (t.haltBug = true → (runsInstr s = true ∧ fetches s .halt) ∨ (runsInstr s = false ∧ s.haltBug = true)) ∧
    (s.stopped = true → t.stopped = true) ∧
    (s.stopped = false → t.stopped = true → runsInstr s = true ∧ fetches s .stop)

/-- R421: the host's joypad edge sets IF bit 4 and ends a stop, and changes nothing else. R422: an event of an EXT_IO device
sets IF bits and moves the device, and changes nothing else; the default EXT_IO has none (log entry 14). -/
def Obligations.JoypadEdgeEffect : Prop :=
  ∀ s : State,
    joypadEdge s = { s with intFlags := BitVec.ofNat 5 (s.intFlags.toNat % 16 + 16), stopped := false } ∧
    ∀ (n : Nat) (flags : BitVec 5),
      (s.extIo = .absent → extIoEvent s n flags = s) ∧
      (∀ k, s.extIo = .device k → extIoEvent s n flags = { s with extIo := .device n, intFlags := s.intFlags ||| flags })

/-- R296: the eleven undefined opcodes under each policy, by themselves and as a step. -/
def Obligations.UndefinedOpcodesBothPolicies : Prop :=
  ∀ op i, (op, i) ∈ undefinedOpcodes →
    decode [op] = .instr i [] ∧
    (∀ s : State, s.undefPolicy = .fault → exec i s = .fault (.undefinedOpcode op s)) ∧
    (∀ s : State, s.undefPolicy = .nop → exec i s = .next s) ∧
    (∀ s : State, runsInstr s = true → codeByte (wake s) 0 = op → s.undefPolicy = .fault →
      step s = .fault (.undefinedOpcode op (afterFetch (wake s) 1))) ∧
    (∀ s : State, runsInstr s = true → codeByte (wake s) 0 = op → s.undefPolicy = .nop →
      step s = .next (eiDelay (afterFetch (wake s) 1)))

/-- R316: the one fault, and when it comes; nothing is refused. -/
def Obligations.TheOnlyFault : Prop :=
  ∀ s : State,
    (∀ f, step s = .fault f → s.undefPolicy = .fault ∧ runsInstr s = true ∧
      ∃ op i, (op, i) ∈ undefinedOpcodes ∧ codeByte (wake s) 0 = op ∧
        f = .undefinedOpcode op (afterFetch (wake s) 1)) ∧
    (∀ r, step s ≠ .refused r)

/-- The `cycles N` line of every instruction's rule, and R323 for the other steps, on DMG. -/
def Obligations.StepTime : Prop :=
  ∀ s t : State, s.cgb = none → step s = .next t →
    (idles (wake s) = true → t.cyclesTotal = s.cyclesTotal + 4) ∧
    (idles (wake s) = false → takesInterrupt (wake s) = true → t.cyclesTotal = s.cyclesTotal + 20) ∧
    (∀ i, runsInstr s = true → fetches s i → t.cyclesTotal = s.cyclesTotal + costOf s.regs i) ∧
    t.cyclesTotal - s.cyclesTotal ∈ [4, 8, 12, 16, 20, 24] ∧ s.cyclesTotal < t.cyclesTotal

/-! ### Invariants -/

/-- R43, R324: every step keeps the invariant: F's low nibble zero, the counters in range, the PPU's mode in step with its
position (or the one state a write to LY in VBlank leaves), and both memory images canonical and inside the memories. -/
def Obligations.StepKeepsInvariant : Prop := ∀ s t : State, s.Inv → step s = .next t → t.Inv

/-- R43, R421, R422: so do the launch states, the host's events, and every state a run reaches from a well-formed launch. -/
def Obligations.ReachableStatesKeepInvariant : Prop :=
  (∀ s : State, s.LaunchWf → s.Inv) ∧ (∀ s : State, s.Inv → (joypadEdge s).Inv) ∧
    (∀ (s : State) (n : Nat) (flags : BitVec 5), s.Inv → (extIoEvent s n flags).Inv) ∧
    ∀ s t : State, s.LaunchWf → Reaches s t → t.Inv

/-- R43: the two named launch states are well formed, whatever canonical image and other parameters they are
given. -/
def Obligations.NamedLaunchStatesWellFormed : Prop :=
  State.reset.LaunchWf ∧
    ∀ (image bios : List Host.Cell) (policy : UndefPolicy) (g : Regs) (cgb : Option Cgb)
      (cart : Cart) (extIo : ExtIo),
      Memory.wf image = true → image.all (fun c => backed c.1) = true → Memory.wf bios = true →
      bios.all (fun c => decide (c.1 ≤ 0x08FF)) = true →
      (State.launchPostBoot image policy cart extIo).LaunchWf ∧
        (State.launchPowerOn g image bios policy cgb cart extIo).LaunchWf

/-- R42: the machine right after reset. Memory with nothing listed is the spec's own default; that reset is this profile
and not `power_on`, with UNDEF_POLICY = fault, no CGB, and the default CART and EXT_IO, is the default of R6 (log entries 2, 3, 4
and 14). -/
def Obligations.ResetValues : Prop :=
  let s := State.reset
  s.regs.pc = 0x0100#16 ∧ s.regs.a = 0x01#8 ∧ s.regs.f = 0xB0#8 ∧ s.regs.b = 0x00#8 ∧ s.regs.c = 0x13#8 ∧
  s.regs.d = 0x00#8 ∧ s.regs.e = 0xD8#8 ∧ s.regs.h = 0x01#8 ∧ s.regs.l = 0x4D#8 ∧ s.regs.sp = 0xFFFE#16 ∧
  s.ime = false ∧ s.halted = false ∧ s.stopped = false ∧ s.haltBug = false ∧ s.imePending = 0 ∧ s.cyclesTotal = 0 ∧
  s.intFlags = 1#5 ∧ s.intEnable = 0#5 ∧ s.timer = ⟨0xABCC#16, 0#8, 0#8, 0#3, 0⟩ ∧
  s.ppu.lcdc = 0x91#8 ∧ s.ppu.statEnables = 0#4 ∧ s.ppu.scy = 0#8 ∧ s.ppu.scx = 0#8 ∧ s.ppu.ly = 0#8 ∧ s.ppu.lyc = 0#8 ∧
  s.ppu.wy = 0#8 ∧ s.ppu.wx = 0#8 ∧ s.ppu.bgp = 0xFC#8 ∧ s.ppu.obp0 = 0xFF#8 ∧ s.ppu.obp1 = 0xFF#8 ∧
  s.ppu.mode = .oamScan ∧ s.ppu.lineCycle = 0 ∧ s.ppu.coincidence = true ∧ s.ppu.lineSprites = [] ∧
  (∀ (y : Fin 144) (x : Fin 160), s.ppu.framebuffer[y][x] = 0#2) ∧ s.ppu.frameCount = 0 ∧
  (∀ n, Memory.read s.mem n = 0x00#8) ∧ s.biosEnabled = false ∧ s.dmaRemaining = 0 ∧
  s.cart = .noMbc ∧ s.extIo = .absent ∧ State.launchPostBoot [] .fault .noMbc .absent = s ∧
  (∀ image policy cart extIo, (State.launchPostBoot image policy cart extIo).ppu.lineSprites = spritesOfLine image 8 0)

/-- R8, R66, R75: no step changes a ROM or BIOS byte, maps the BIOS again, or changes a launch parameter: of the cartridge
and of EXT_IO only their own states move (log entry 14). -/
def Obligations.FixedForLife : Prop :=
  ∀ s t : State, step s = .next t →
    (∀ n < 0x8000, Memory.read t.mem n = Memory.read s.mem n) ∧ t.bios = s.bios ∧
    (t.biosEnabled = true → s.biosEnabled = true) ∧ t.undefPolicy = s.undefPolicy ∧ t.cgb.isSome = s.cgb.isSome ∧
    t.cart.romOf = s.cart.romOf ∧ t.extIo.isDevice = s.extIo.isDevice

/-! ### Time: timer -/

/-- R324 (d), R361: the divider counts every T-cycle, whatever else goes on, and DIV is its high byte. -/
def Obligations.DividerCountsTCycles : Prop :=
  ∀ (k : Nat) (s : State), (tick k s).timer.divCounter.toNat = (s.timer.divCounter.toNat + k) % 65536 ∧
    (busRead (tick k s) 0xFF04#16).toNat = (s.timer.divCounter.toNat + k) % 65536 / 256

/-- R370: TIMA counts once in a period, from any phase, when the timer is on and no overflow comes; it holds when it is off. -/
def Obligations.TimaPeriod : Prop :=
  ∀ s : State, s.timer.timaDelay = 0 →
    let period := if s.timer.tac.extractLsb' 0 2 = 0#2 then 1024 else if s.timer.tac.extractLsb' 0 2 = 1#2 then 16
      else if s.timer.tac.extractLsb' 0 2 = 2#2 then 64 else 256
    (s.timer.tac.getLsbD 2 = true → s.timer.tima ≠ 0xFF#8 →
      (tick period s).timer.tima = s.timer.tima + 1#8 ∧ (tick period s).timer.timaDelay = 0) ∧
    (s.timer.tac.getLsbD 2 = false → ∀ k, (tick k s).timer.tima = s.timer.tima)

/-- R368, R369: an overflow in one T-cycle leaves TIMA at $00, and four T-cycles later TIMA is TMA and the TIMER interrupt is
flagged, not before (no other source touches IF bit 2). -/
def Obligations.TimaOverflowAndReload : Prop :=
  ∀ s : State, s.timer.timaDelay = 0 → s.timer.tac.getLsbD 2 = true → s.timer.tima = 0xFF#8 →
    s.timer.divCounter.getLsbD (tacBit (s.timer.tac.extractLsb' 0 2)) = true →
    (s.timer.divCounter + 1#16).getLsbD (tacBit (s.timer.tac.extractLsb' 0 2)) = false →
    (∀ k, 1 ≤ k → k ≤ 4 → (tick k s).timer.tima = 0x00#8 ∧ (tick k s).timer.timaDelay = 5 - k ∧
      (tick k s).intFlags.getLsbD 2 = s.intFlags.getLsbD 2) ∧
    (tick 5 s).timer.tima = s.timer.tma ∧ (tick 5 s).intFlags.getLsbD 2 = true ∧ (tick 5 s).timer.timaDelay = 0

/-- R362, R363, R364, R365: the timer registers' writes: DIV clears all 16 bits and counts a falling edge, TIMA cancels a
reload, TAC never counts. -/
def Obligations.TimerRegisterWrites : Prop :=
  ∀ (s : State) (v : Byte),
    let edge := s.timer.tac.getLsbD 2 && s.timer.divCounter.getLsbD (tacBit (s.timer.tac.extractLsb' 0 2))
    busWrite s 0xFF04#16 v = { s with timer := { s.timer with
      divCounter := 0#16
      tima := BitVec.ofNat 8 (s.timer.tima.toNat + edge.toNat)
      timaDelay := if edge = true ∧ s.timer.tima = 0xFF#8 then 4 else s.timer.timaDelay } } ∧
    busWrite s 0xFF05#16 v = { s with timer := { s.timer with tima := v, timaDelay := 0 } } ∧
    busWrite s 0xFF06#16 v = { s with timer := { s.timer with tma := v } } ∧
    busWrite s 0xFF07#16 v = { s with timer := { s.timer with tac := BitVec.ofNat 3 (v.toNat % 8) } }

/-! ### Time: PPU -/

/-- R14, R385, R386: each T-cycle (DMG) is one `PpuTick`. With the LCD on it moves the PPU one place through the 70,224 of a
frame, and the mode is the place's. R387, R388, R399, R403: on the way, the T-cycle that reaches `line_cycle` 80 of a visible
line gives the framebuffer what `RenderLine` gives, the one that enters a visible line gives `line_sprites` what the sprite
scan of that line gives, the one that enters VBlank counts a frame, and no other T-cycle changes any of the three, nor does
any change memory. What `RenderLine` and the scan give is BackgroundRow's, SpritePriority's and SpriteScanRule's to say. -/
def Obligations.PpuWalksTheFrame : Prop :=
  (∀ (k : Nat) (s : State), s.cgb = none → (tick (k + 1) s).ppu = (ppuTick (tick k s)).ppu) ∧
  (∀ (k : Nat) (s : State), s.cgb = none → lcdOn s.ppu = true → PpuRanges s.ppu →
    framePos (tick k s).ppu = (framePos s.ppu + k) % 70224 ∧ (tick k s).ppu.lineCycle ≤ 455 ∧
    (s.ppu.mode = modeAt s.ppu.ly.toNat s.ppu.lineCycle →
      (tick k s).ppu.mode = modeAt (tick k s).ppu.ly.toNat (tick k s).ppu.lineCycle)) ∧
  ∀ s : State, lcdOn s.ppu = true → PpuRanges s.ppu →
    let t := ppuTick s
    let ends := s.ppu.lineCycle = 455
    let next := (s.ppu.ly.toNat + 1) % 154
    let renders := s.ppu.lineCycle = 79 ∧ s.ppu.ly.toNat < 144
    (renders → t.ppu.framebuffer = (renderLine s).ppu.framebuffer ∧ t.ppu.mode = .rendering) ∧
    (¬ renders → t.ppu.framebuffer = s.ppu.framebuffer) ∧
    (ends ∧ next < 144 → t.ppu.mode = .oamScan ∧ t.ppu.lineSprites =
      (spriteScan { s with ppu := { s.ppu with ly := BitVec.ofNat 8 next } }).ppu.lineSprites) ∧
    (¬ (ends ∧ next < 144) → t.ppu.lineSprites = s.ppu.lineSprites) ∧
    t.ppu.frameCount = (if ends ∧ next = 144 then s.ppu.frameCount + 1 else s.ppu.frameCount) ∧
    t.mem = s.mem

/-- R388, R407, R408: a whole frame of T-cycles, from any place, enters VBlank once: one more frame counted and the VBLANK
interrupt flagged; and LY comes back to what it was. -/
def Obligations.OneVBlankPerFrame : Prop :=
  ∀ s : State, s.cgb = none → lcdOn s.ppu = true → PpuRanges s.ppu →
    (tick 70224 s).ppu.frameCount = s.ppu.frameCount + 1 ∧ (tick 70224 s).intFlags.getLsbD 0 = true ∧
    (tick 70224 s).ppu.ly = s.ppu.ly ∧ (tick 70224 s).ppu.lineCycle = s.ppu.lineCycle

/-- R387, R388, R389, R391: which interrupts one T-cycle of the PPU flags. -/
def Obligations.PpuInterruptSources : Prop :=
  ∀ s : State, lcdOn s.ppu = true → PpuRanges s.ppu →
    let ends := s.ppu.lineCycle = 455
    let ly := (s.ppu.ly.toNat + 1) % 154
    ((ppuTick s).intFlags.getLsbD 0 = true ↔ s.intFlags.getLsbD 0 = true ∨ (ends ∧ ly = 144)) ∧
    ((ppuTick s).intFlags.getLsbD 1 = true ↔ s.intFlags.getLsbD 1 = true ∨
      (ends ∧ ly = s.ppu.lyc.toNat ∧ s.ppu.statEnables.getLsbD 3 = true) ∨
      (ends ∧ ly < 144 ∧ s.ppu.statEnables.getLsbD 2 = true) ∨
      (ends ∧ ly = 144 ∧ s.ppu.statEnables.getLsbD 1 = true) ∨
      (s.ppu.lineCycle = 251 ∧ s.ppu.ly.toNat < 144 ∧ s.ppu.statEnables.getLsbD 0 = true)) ∧
    (∀ n, 2 ≤ n → (ppuTick s).intFlags.getLsbD n = s.intFlags.getLsbD n)

/-- R389, R384: the comparison stores its result and flags STAT when it is enabled; a write to LY clears LY, compares and
does nothing else; a write to LYC or to STAT does not compare. -/
def Obligations.LyCompareRule : Prop :=
  ∀ (s : State) (v : Byte),
    lyCompare s = { s with
      ppu := { s.ppu with coincidence := decide (s.ppu.ly.toNat = s.ppu.lyc.toNat) }
      intFlags := if s.ppu.ly = s.ppu.lyc ∧ s.ppu.statEnables.getLsbD 3 = true then s.intFlags ||| 2#5
        else s.intFlags } ∧
    busWrite s 0xFF44#16 v = lyCompare { s with ppu := { s.ppu with ly := 0#8 } } ∧
    busWrite s 0xFF45#16 v = { s with ppu := { s.ppu with lyc := v } } ∧
    busWrite s 0xFF41#16 v = { s with ppu := { s.ppu with statEnables := BitVec.ofNat 4 (v.toNat / 8 % 16) } }

/-- R390, R381: turning the LCD off and on, and a write that does neither. Turning it on enters mode 2 of line 0 (R387): the
comparison with LYC and the entry each flag STAT where they are enabled, and the sprites of line 0 are scanned at once. -/
def Obligations.LcdOffAndOn : Prop :=
  ∀ (s : State) (v : Byte),
    (bitNat s.ppu.lcdc 7 = 1 → bitNat v 7 = 0 → busWrite s 0xFF40#16 v =
      lyCompare { s with ppu := { s.ppu with lcdc := v, ly := 0#8, mode := .hblank, lineCycle := 0 } }) ∧
    (bitNat s.ppu.lcdc 7 = 0 → bitNat v 7 = 1 → busWrite s 0xFF40#16 v =
      { s with
        ppu := { s.ppu with
          lcdc := v
          ly := 0#8
          mode := .oamScan
          lineCycle := 0
          coincidence := decide (s.ppu.lyc.toNat = 0)
          lineSprites := (spriteScan { s with ppu := { s.ppu with lcdc := v, ly := 0#8 } }).ppu.lineSprites }
        intFlags := if (s.ppu.lyc.toNat = 0 ∧ s.ppu.statEnables.getLsbD 3 = true) ∨ s.ppu.statEnables.getLsbD 2 = true then
          s.intFlags ||| 2#5 else s.intFlags }) ∧
    (bitNat s.ppu.lcdc 7 = bitNat v 7 → busWrite s 0xFF40#16 v = { s with ppu := { s.ppu with lcdc := v } }) ∧
    (bitNat s.ppu.lcdc 7 = 0 → ∀ k, (tick k s).ppu = s.ppu ∧
      (∀ n, n ≤ 1 → (tick k s).intFlags.getLsbD n = s.intFlags.getLsbD n))

/-- R398: the sprite scan: at most ten, each once, each on the line, best key first, and none left out that comes before
one kept. -/
def Obligations.SpriteScanRule : Prop :=
  ∀ s : State,
    let l := (spriteScan s).ppu.lineSprites
    let h : Int := if bitNat s.ppu.lcdc 2 = 1 then 16 else 8
    let onLine (i : Fin 40) : Prop := ((Memory.read s.mem (0xFE00 + 4 * i.val)).toNat : Int) - 16 ≤ s.ppu.ly.toNat ∧
      (s.ppu.ly.toNat : Int) < (Memory.read s.mem (0xFE00 + 4 * i.val)).toNat - 16 + h
    spriteScan s = { s with ppu := { s.ppu with lineSprites := l } } ∧
    l.length ≤ 10 ∧ l.Pairwise (spriteKeyLt s.mem) ∧ (∀ i ∈ l, onLine i) ∧
    (∀ i, onLine i → i ∉ l → l.length = 10 ∧ ∀ j ∈ l, spriteKeyLt s.mem j i)

/-- R399, R400, R402, R403: a line with sprites off is background and window by exact arithmetic. With sprites on or off, the
other rows keep their pixels and nothing but the framebuffer changes. -/
def Obligations.BackgroundRow : Prop :=
  ∀ (s : State) (y : Fin 144), s.ppu.ly.toNat = y.val →
    (s.ppu.lcdc.getLsbD 1 = false →
      ∀ x : Fin 160, (renderLine s).ppu.framebuffer[y][x].toNat = (specBackground s.mem s.ppu y.val x.val).2) ∧
    (∀ z : Fin 144, z ≠ y → (renderLine s).ppu.framebuffer[z] = s.ppu.framebuffer[z]) ∧
    renderLine s = { s with ppu := { s.ppu with framebuffer := (renderLine s).ppu.framebuffer } }

/-- R406, R401, R395, R396: with sprites on, a pixel is the shade of the first sprite of the line's list that shows there, or
the background's, by exact arithmetic; on CGB (R429) it is that of the sprite with the smallest OAM index. -/
def Obligations.SpritePriority : Prop :=
  ∀ (s : State) (y : Fin 144) (x : Fin 160), s.ppu.ly.toNat = y.val → s.ppu.lcdc.getLsbD 1 = true →
    let pixel := (renderLine s).ppu.framebuffer[y][x].toNat
    let shade := specSprite s.mem s.ppu y.val x.val
    (s.cgb = none → pixel = match s.ppu.lineSprites.findSome? shade with
      | some v => v
      | none => (specBackground s.mem s.ppu y.val x.val).2) ∧
    (s.cgb ≠ none → ∀ i ∈ s.ppu.lineSprites, ∀ v, shade i = some v →
      (∀ j ∈ s.ppu.lineSprites, j < i → shade j = none) → pixel = v) ∧
    ((∀ i ∈ s.ppu.lineSprites, shade i = none) → pixel = (specBackground s.mem s.ppu y.val x.val).2)

/-! ### The bus -/

/-- R62 to R73, R79, R427: what a read gives, region by region, the cartridge and EXT_IO being whatever the launch supplies
(log entry 14), and that a read changes nothing but, where it has side effects of its own, an EXT_IO device and IF. The I/O
registers' values are IoReadValues'. -/
def Obligations.BusReadMap : Prop :=
  ∀ (s : State) (a : Word),
    (a.toNat < 0x8000 → s.biosEnabled = true → overlayAddress s a → busRead s a = Memory.read s.bios a.toNat) ∧
    (a.toNat < 0x8000 → ¬ (s.biosEnabled = true ∧ overlayAddress s a) →
      (s.cart = .noMbc → busRead s a = Memory.read s.mem a.toNat) ∧
      (∀ rom n, s.cart = .other rom n → busRead s a = Config.cartRead rom n a)) ∧
    (0x8000 ≤ a.toNat → a.toNat < 0xA000 →
      busRead s a = if s.ppu.mode = .rendering then 0xFF#8 else Memory.read s.mem a.toNat) ∧
    (0xA000 ≤ a.toNat → a.toNat < 0xC000 →
      (s.cart = .noMbc → busRead s a = 0xFF#8) ∧
      (∀ rom n, s.cart = .other rom n → busRead s a = Config.cartRead rom n a)) ∧
    (0xC000 ≤ a.toNat → a.toNat < 0xE000 → busRead s a = Memory.read s.mem a.toNat) ∧
    (0xE000 ≤ a.toNat → a.toNat < 0xFE00 → busRead s a = Memory.read s.mem (a.toNat - 0x2000)) ∧
    (0xFE00 ≤ a.toNat → a.toNat < 0xFEA0 → busRead s a =
      if s.ppu.mode = .oamScan ∨ s.ppu.mode = .rendering ∨ 0 < s.dmaRemaining then 0xFF#8
      else Memory.read s.mem a.toNat) ∧
    (0xFEA0 ≤ a.toNat → a.toNat < 0xFF00 → busRead s a = 0xFF#8) ∧
    (0xFF80 ≤ a.toNat → a.toNat < 0xFFFF → busRead s a = Memory.read s.mem a.toNat) ∧
    (a.toNat = 0xFFFF → (busRead s a).toNat = 0xE0 + s.intEnable.toNat) ∧
    (extIoAddress a → s.extIo = .absent → busRead s a = 0xFF#8) ∧
    (∀ n, extIoAddress a → s.extIo = .device n → busRead s a = Config.extIoRead n a ∧
      readEffect s a = { s with
        extIo := .device (Config.extIoAfterRead n a).1, intFlags := s.intFlags ||| (Config.extIoAfterRead n a).2 }) ∧
    (¬ extIoAddress a ∨ s.extIo = .absent → readEffect s a = s)

/-- R67, R68, R72 and R64, R69: WRAM, the echo and HRAM read as their bytes at any time. A write to VRAM or OAM that the PPU's
mode locks changes nothing. A byte written to RAM the CPU can reach (canonical memory) is the byte that is there after, and
no other cell changes; a write to OAM goes through during a DMA lockout too (the spec's decision D17). -/
def Obligations.RamWrites : Prop :=
  ∀ (s : State) (a : Word) (v : Byte),
    let plain := (0xC000 ≤ a.toNat ∧ a.toNat < 0xFE00) ∨ (0xFF80 ≤ a.toNat ∧ a.toNat < 0xFFFF)
    let vram := 0x8000 ≤ a.toNat ∧ a.toNat < 0xA000
    let oam := 0xFE00 ≤ a.toNat ∧ a.toNat < 0xFEA0
    let cell := if 0xE000 ≤ a.toNat ∧ a.toNat < 0xFE00 then a.toNat - 0x2000 else a.toNat
    (plain → busRead s a = Memory.read s.mem cell) ∧
    (vram ∧ s.ppu.mode = .rendering ∨ oam ∧ (s.ppu.mode = .rendering ∨ s.ppu.mode = .oamScan) → busWrite s a v = s) ∧
    (plain ∨ (vram ∧ s.ppu.mode ≠ .rendering) ∨ (oam ∧ s.ppu.mode ≠ .rendering ∧ s.ppu.mode ≠ .oamScan) →
      (∀ n, n ≠ cell → Memory.read (busWrite s a v).mem n = Memory.read s.mem n) ∧
      busWrite s a v = { s with mem := (busWrite s a v).mem } ∧
      (Memory.wf s.mem = true →
        Memory.read (busWrite s a v).mem cell = v ∧ (oam ∨ busRead (busWrite s a v) a = v)))

/-- R68: an address of the echo range and the WRAM address $2000 below it are the same byte, to reads and to writes. -/
def Obligations.EchoIsWram : Prop :=
  ∀ (s : State) (a : Word) (v : Byte), 0xE000 ≤ a.toNat → a.toNat < 0xFE00 →
    busRead s a = Memory.read s.mem (a.toNat - 0x2000) ∧
    busWrite s a v = { s with mem := Memory.write s.mem (a.toNat - 0x2000) v } ∧
    busRead s (a - 0x2000#16) = busRead s a ∧ busWrite s (a - 0x2000#16) v = busWrite s a v

/-- R62, R65, R66, R70, R71, R74, R422: writes that no memory or register of the block takes. The cartridge and EXT_IO take
theirs: they change their own states alone, and a device sets IF bits (log entry 14). At the defaults D15 and
D16 they take nothing. -/
def Obligations.DeadWrites : Prop :=
  ∀ (s : State) (a : Word) (v : Byte),
    (0xFEA0 ≤ a.toNat ∧ a.toNat < 0xFF00 → busWrite s a v = s) ∧
    (cartAddress a →
      (s.cart = .noMbc → busWrite s a v = s) ∧
      (∀ rom n, s.cart = .other rom n →
        busWrite s a v = { s with cart := .other rom (Config.cartWrite rom n a v) })) ∧
    (extIoAddress a →
      (s.extIo = .absent → busWrite s a v = s) ∧
      (∀ n, s.extIo = .device n → busWrite s a v = { s with
        extIo := .device (Config.extIoAfterWrite n a v).1
        intFlags := s.intFlags ||| (Config.extIoAfterWrite n a v).2 }))

/-- R350, R351, R352, R361, R365, R382, R415: the column "Read returns", by value. -/
def Obligations.IoReadValues : Prop :=
  ∀ s : State,
    (busRead s 0xFF04#16).toNat = s.timer.divCounter.toNat / 256 ∧ busRead s 0xFF05#16 = s.timer.tima ∧
    busRead s 0xFF06#16 = s.timer.tma ∧ (busRead s 0xFF07#16).toNat = 0xF8 + s.timer.tac.toNat ∧
    (busRead s 0xFF0F#16).toNat = 0xE0 + s.intFlags.toNat ∧ busRead s 0xFF40#16 = s.ppu.lcdc ∧
    (busRead s 0xFF41#16).toNat = 0x80 + 8 * s.ppu.statEnables.toNat + 4 * s.ppu.coincidence.toNat +
      (match s.ppu.mode with | .hblank => 0 | .vblank => 1 | .oamScan => 2 | .rendering => 3) ∧
    busRead s 0xFF42#16 = s.ppu.scy ∧ busRead s 0xFF43#16 = s.ppu.scx ∧ busRead s 0xFF44#16 = s.ppu.ly ∧
    busRead s 0xFF45#16 = s.ppu.lyc ∧ busRead s 0xFF46#16 = 0xFF#8 ∧ busRead s 0xFF47#16 = s.ppu.bgp ∧
    busRead s 0xFF48#16 = s.ppu.obp0 ∧ busRead s 0xFF49#16 = s.ppu.obp1 ∧ busRead s 0xFF4A#16 = s.ppu.wy ∧
    busRead s 0xFF4B#16 = s.ppu.wx ∧ busRead s 0xFF50#16 = 0xFF#8 ∧
    (busRead s 0xFFFF#16).toNat = 0xE0 + s.intEnable.toNat

/-- R350, R351, R352, R75, R383, R392, R393: the writes that only store. Bits 7 to 5 of IF and IE are dropped; $FF50 unmaps
the BIOS whatever the byte. -/
def Obligations.IoWriteValues : Prop :=
  ∀ (s : State) (v : Byte),
    busWrite s 0xFF0F#16 v = { s with intFlags := BitVec.ofNat 5 (v.toNat % 32) } ∧
    busWrite s 0xFFFF#16 v = { s with intEnable := BitVec.ofNat 5 (v.toNat % 32) } ∧
    busWrite s 0xFF50#16 v = { s with biosEnabled := false } ∧
    busWrite s 0xFF42#16 v = { s with ppu := { s.ppu with scy := v } } ∧
    busWrite s 0xFF43#16 v = { s with ppu := { s.ppu with scx := v } } ∧
    busWrite s 0xFF47#16 v = { s with ppu := { s.ppu with bgp := v } } ∧
    busWrite s 0xFF48#16 v = { s with ppu := { s.ppu with obp0 := v } } ∧
    busWrite s 0xFF49#16 v = { s with ppu := { s.ppu with obp1 := v } } ∧
    busWrite s 0xFF4A#16 v = { s with ppu := { s.ppu with wy := v } } ∧
    busWrite s 0xFF4B#16 v = { s with ppu := { s.ppu with wx := v } }

/-- R415, R416: OAM DMA fills all of OAM at once from page `v`: what the CPU would read there of ROM (the BIOS overlay
included) and of the cartridge, and VRAM, WRAM and the echo past any lockout, and $FF from pages $FE and $FF. It changes no
other byte, and closes OAM to the CPU's reads for 640 T-cycles. That the bytes are there at once, and the engine's view of
the bus, are the spec's decision D17; that the source is read before any byte is copied, log entry 16. -/
def Obligations.OamDma : Prop :=
  ∀ (s : State) (v : Byte), Memory.wf s.mem = true →
    let t := busWrite s 0xFF46#16 v
    (∀ i < 160, Memory.read t.mem (0xFE00 + i) =
      let a := v.toNat * 256 + i
      if a < 0x8000 then busRead s (BitVec.ofNat 16 a) else if a < 0xA000 then Memory.read s.mem a
      else if a < 0xC000 then busRead s (BitVec.ofNat 16 a) else if a < 0xE000 then Memory.read s.mem a
      else if a < 0xFE00 then Memory.read s.mem (a - 0x2000) else 0xFF#8) ∧
    (∀ n, n < 0xFE00 ∨ 0xFEA0 ≤ n → Memory.read t.mem n = Memory.read s.mem n) ∧
    t = { s with mem := t.mem, dmaRemaining := 640 } ∧
    (∀ k, (tick k t).dmaRemaining = 640 - k) ∧
    (∀ k < 640, ∀ a : Word, 0xFE00 ≤ a.toNat → a.toNat < 0xFEA0 → busRead (tick k t) a = 0xFF#8)

/-! ### Instructions: loads -/

/-- R130, R131, R160: a register or pair takes the value, and nothing else changes. -/
def Obligations.RegisterLoads : Prop :=
  ∀ s : State,
    (∀ dst r, ∃ g, exec (.ldRR dst r) s = .next (s.withRegs g) ∧ g.get dst = s.regs.get r ∧
      (∀ q, q ≠ dst → g.get q = s.regs.get q) ∧ g.f = s.regs.f ∧ g.sp = s.regs.sp ∧ g.pc = s.regs.pc) ∧
    (∀ dst n, ∃ g, exec (.ldRN dst n) s = .next (s.withRegs g) ∧ g.get dst = n ∧
      (∀ q, q ≠ dst → g.get q = s.regs.get q) ∧ g.f = s.regs.f ∧ g.sp = s.regs.sp ∧ g.pc = s.regs.pc) ∧
    (∀ p nn, ∃ g, exec (.ldRrNn p nn) s = .next (s.withRegs g) ∧ g.pair p = nn ∧
      (∀ q, pairHas p q = false → g.get q = s.regs.get q) ∧ g.f = s.regs.f ∧ (p ≠ .sp → g.sp = s.regs.sp) ∧
      g.pc = s.regs.pc)

/-- R132, R135, R136, R139, R141, R143, R146, R148: a byte read into a register in 4 T-cycles (`readEffect`, the side effect
of the read, is nothing but at EXT_IO: BusReadMap). HL moves by one, modulo 65536, in the last two forms. -/
def Obligations.ByteLoads : Prop :=
  ∀ s : State,
    let loads (i : Instr) (r : R8) (a : Word) (g : Regs) : Prop :=
      ∃ t, exec i s = .next t ∧ t.regs = g.set r (busRead s a) ∧ OnlyTime 4 (readEffect s a) t
    let hl : Word := BitVec.ofNat 16 (256 * s.regs.h.toNat + s.regs.l.toNat)
    let bc : Word := BitVec.ofNat 16 (256 * s.regs.b.toNat + s.regs.c.toNat)
    let de : Word := BitVec.ofNat 16 (256 * s.regs.d.toNat + s.regs.e.toNat)
    (∀ r, loads (.ldRAtHl r) r hl s.regs) ∧ loads .ldAAtBc .a bc s.regs ∧ loads .ldAAtDe .a de s.regs ∧
    (∀ nn, loads (.ldAAtNn nn) .a nn s.regs) ∧
    loads .ldhAAtC .a (BitVec.ofNat 16 (0xFF00 + s.regs.c.toNat)) s.regs ∧
    (∀ n : Byte, loads (.ldhAAtN n) .a (BitVec.ofNat 16 (0xFF00 + n.toNat)) s.regs) ∧
    loads .ldAAtHli .a hl { s.regs with h := (hl + 1#16).extractLsb' 8 8, l := (hl + 1#16).extractLsb' 0 8 } ∧
    loads .ldAAtHld .a hl { s.regs with h := (hl - 1#16).extractLsb' 8 8, l := (hl - 1#16).extractLsb' 0 8 }

/-- R133, R134, R137, R138, R140, R142, R144, R145, R147: a byte written in 4 T-cycles; only HL moves, in the last two
forms. -/
def Obligations.ByteStores : Prop :=
  ∀ s : State,
    let stores (i : Instr) (a : Word) (v : Byte) (g : Regs) : Prop :=
      ∃ t, exec i s = .next t ∧ t.regs = g ∧ StoredByte s a v 4 t
    let hl : Word := BitVec.ofNat 16 (256 * s.regs.h.toNat + s.regs.l.toNat)
    let bc : Word := BitVec.ofNat 16 (256 * s.regs.b.toNat + s.regs.c.toNat)
    let de : Word := BitVec.ofNat 16 (256 * s.regs.d.toNat + s.regs.e.toNat)
    (∀ r, stores (.ldAtHlR r) hl (s.regs.get r) s.regs) ∧ (∀ n, stores (.ldAtHlN n) hl n s.regs) ∧
    stores .ldAtBcA bc s.regs.a s.regs ∧ stores .ldAtDeA de s.regs.a s.regs ∧
    (∀ nn, stores (.ldAtNnA nn) nn s.regs.a s.regs) ∧
    stores .ldhAtCA (BitVec.ofNat 16 (0xFF00 + s.regs.c.toNat)) s.regs.a s.regs ∧
    (∀ n : Byte, stores (.ldhAtNA n) (BitVec.ofNat 16 (0xFF00 + n.toNat)) s.regs.a s.regs) ∧
    stores .ldAtHliA hl s.regs.a { s.regs with h := (hl + 1#16).extractLsb' 8 8, l := (hl + 1#16).extractLsb' 0 8 } ∧
    stores .ldAtHldA hl s.regs.a { s.regs with h := (hl - 1#16).extractLsb' 8 8, l := (hl - 1#16).extractLsb' 0 8 }

/-- R161, R164: the two-byte stores: SP at nn and nn + 1, low byte first; a pair at SP - 1 and SP - 2, high byte first, with
4 T-cycles after it. -/
def Obligations.TwoByteStores : Prop :=
  ∀ s : State,
    (∀ nn, ∃ t, exec (.ldAtNnSp nn) s = .next t ∧ t.regs = s.regs ∧
      StoredTwo s nn (s.regs.sp.extractLsb' 0 8) (nn + 1#16) (s.regs.sp.extractLsb' 8 8) 4 t) ∧
    (∀ p, ∃ t, exec (.push p) s = .next t ∧ t.regs = { s.regs with sp := s.regs.sp - 2#16 } ∧
      let (hi, lo) := match p with
        | .bc => (s.regs.b, s.regs.c) | .de => (s.regs.d, s.regs.e) | .hl => (s.regs.h, s.regs.l)
        | .af => (s.regs.a, s.regs.f)
      StoredTwo s (s.regs.sp - 1#16) hi (s.regs.sp - 2#16) lo 8 t)

/-- R165, R23: POP takes the low half at SP, the high half at SP + 1 a bus access later; AF drops the low nibble of F. -/
def Obligations.PopResults : Prop :=
  ∀ (s : State) (p : R16Stk),
    let lo := busRead s s.regs.sp
    let hi := busRead (afterRead s s.regs.sp) (s.regs.sp + 1#16)
    ∃ t, exec (.pop p) s = .next t ∧ OnlyTime 4 (readEffect (afterRead s s.regs.sp) (s.regs.sp + 1#16)) t ∧
      t.regs = match p with
        | .bc => { s.regs with b := hi, c := lo, sp := s.regs.sp + 2#16 }
        | .de => { s.regs with d := hi, e := lo, sp := s.regs.sp + 2#16 }
        | .hl => { s.regs with h := hi, l := lo, sp := s.regs.sp + 2#16 }
        | .af => { s.regs with a := hi, f := BitVec.ofNat 8 (lo.toNat / 16 * 16), sp := s.regs.sp + 2#16 }

/-- R162, R163, R220, R224: SP from HL, and SP plus a signed byte with flags from the low bytes' unsigned sum. -/
def Obligations.StackPointerArithmetic : Prop :=
  ∀ s : State,
    (∃ t, exec .ldSpHl s = .next t ∧ OnlyTime 4 s t ∧
      t.regs = { s.regs with sp := BitVec.ofNat 16 (256 * s.regs.h.toNat + s.regs.l.toNat) }) ∧
    ∀ e : Byte,
      let sum : Int := s.regs.sp.toNat + (if e.toNat < 128 then (e.toNat : Int) else e.toNat - 256)
      let f := specF false false (decide (s.regs.sp.toNat % 16 + e.toNat % 16 > 15))
        (decide (s.regs.sp.toNat % 256 + e.toNat > 255))
      (∃ t, exec (.addSpE e) s = .next t ∧ OnlyTime 8 s t ∧ t.regs = { s.regs with sp := BitVec.ofInt 16 sum, f := f }) ∧
      (∃ t, exec (.ldHlSpE e) s = .next t ∧ OnlyTime 4 s t ∧
        t.regs = { s.regs with h := BitVec.ofInt 8 (sum / 256), l := BitVec.ofInt 8 sum, f := f })

/-- R17, R164, R165: PUSH then POP of any pair moves the value, when the stack is in WRAM or HRAM and the pushed bytes are
where the pops look. -/
def Obligations.PushPopRoundTrip : Prop :=
  ∀ (s : State) (p q : R16Stk), Memory.wf s.mem = true →
    (0xC002 ≤ s.regs.sp.toNat ∧ s.regs.sp.toNat ≤ 0xE000) ∨ 0xFF82 ≤ s.regs.sp.toNat →
    ∃ t u, exec (.push p) s = .next t ∧ exec (.pop q) t = .next u ∧ u.regs.sp = s.regs.sp ∧
      u.regs.stackPair q = (if q = .af then s.regs.stackPair p &&& 0xFFF0#16 else s.regs.stackPair p)

/-! ### Instructions: 8-bit arithmetic and logic -/

/-- R175, R178 to R185: ADD and ADC in every form. -/
def Obligations.AddAndAdc : Prop :=
  ∀ s : State,
    let hl : Word := BitVec.ofNat 16 (256 * s.regs.h.toNat + s.regs.l.toNat)
    (∀ r, exec (.addR r) s = .next (s.withRegs (addResult s.regs (s.regs.get r) 0))) ∧
    (∀ n, exec (.addN n) s = .next (s.withRegs (addResult s.regs n 0))) ∧
    (∃ t, exec .addAtHl s = .next t ∧ OnlyTime 4 (readEffect s hl) t ∧
      t.regs = addResult s.regs (busRead s hl) 0) ∧
    (∀ r, exec (.adcR r) s = .next (s.withRegs (addResult s.regs (s.regs.get r) (flagC s.regs).toNat))) ∧
    (∀ n, exec (.adcN n) s = .next (s.withRegs (addResult s.regs n (flagC s.regs).toNat))) ∧
    (∃ t, exec .adcAtHl s = .next t ∧ OnlyTime 4 (readEffect s hl) t ∧
      t.regs = addResult s.regs (busRead s hl) (flagC s.regs).toNat)

/-- R176, R186 to R191, R201 to R203: SUB, SBC and CP in every form. -/
def Obligations.SubSbcAndCp : Prop :=
  ∀ s : State,
    let hl : Word := BitVec.ofNat 16 (256 * s.regs.h.toNat + s.regs.l.toNat)
    (∀ r, exec (.subR r) s = .next (s.withRegs (subResult s.regs (s.regs.get r) 0))) ∧
    (∀ n, exec (.subN n) s = .next (s.withRegs (subResult s.regs n 0))) ∧
    (∃ t, exec .subAtHl s = .next t ∧ OnlyTime 4 (readEffect s hl) t ∧
      t.regs = subResult s.regs (busRead s hl) 0) ∧
    (∀ r, exec (.sbcR r) s = .next (s.withRegs (subResult s.regs (s.regs.get r) (flagC s.regs).toNat))) ∧
    (∀ n, exec (.sbcN n) s = .next (s.withRegs (subResult s.regs n (flagC s.regs).toNat))) ∧
    (∃ t, exec .sbcAtHl s = .next t ∧ OnlyTime 4 (readEffect s hl) t ∧
      t.regs = subResult s.regs (busRead s hl) (flagC s.regs).toNat) ∧
    (∀ r, exec (.cpR r) s = .next (s.withRegs (compareResult s.regs (s.regs.get r)))) ∧
    (∀ n, exec (.cpN n) s = .next (s.withRegs (compareResult s.regs n))) ∧
    (∃ t, exec .cpAtHl s = .next t ∧ OnlyTime 4 (readEffect s hl) t ∧
      t.regs = compareResult s.regs (busRead s hl))

/-- R177, R192 to R200: AND, XOR and OR in every form. -/
def Obligations.AndXorOr : Prop :=
  ∀ s : State,
    let hl : Word := BitVec.ofNat 16 (256 * s.regs.h.toNat + s.regs.l.toNat)
    let a := s.regs.a
    (∀ r, exec (.andR r) s = .next (s.withRegs (logicResult s.regs (a &&& s.regs.get r) true))) ∧
    (∀ n, exec (.andN n) s = .next (s.withRegs (logicResult s.regs (a &&& n) true))) ∧
    (∃ t, exec .andAtHl s = .next t ∧ OnlyTime 4 (readEffect s hl) t ∧
      t.regs = logicResult s.regs (a &&& busRead s hl) true) ∧
    (∀ r, exec (.xorR r) s = .next (s.withRegs (logicResult s.regs (a ^^^ s.regs.get r) false))) ∧
    (∀ n, exec (.xorN n) s = .next (s.withRegs (logicResult s.regs (a ^^^ n) false))) ∧
    (∃ t, exec .xorAtHl s = .next t ∧ OnlyTime 4 (readEffect s hl) t ∧
      t.regs = logicResult s.regs (a ^^^ busRead s hl) false) ∧
    (∀ r, exec (.orR r) s = .next (s.withRegs (logicResult s.regs (a ||| s.regs.get r) false))) ∧
    (∀ n, exec (.orN n) s = .next (s.withRegs (logicResult s.regs (a ||| n) false))) ∧
    (∃ t, exec .orAtHl s = .next t ∧ OnlyTime 4 (readEffect s hl) t ∧
      t.regs = logicResult s.regs (a ||| busRead s hl) false)

/-- R204 to R207: INC and DEC of a byte, in a register and at HL; C is kept. -/
def Obligations.IncAndDecByte : Prop :=
  ∀ s : State,
    let hl : Word := BitVec.ofNat 16 (256 * s.regs.h.toNat + s.regs.l.toNat)
    let up (v : Byte) : Byte := BitVec.ofNat 8 (v.toNat + 1)
    let down (v : Byte) : Byte := BitVec.ofNat 8 (v.toNat + 255)
    let upF (v : Byte) := specF (decide (v.toNat = 255)) false (decide (v.toNat % 16 = 15)) (flagC s.regs)
    let downF (v : Byte) := specF (decide (v.toNat = 1)) true (decide (v.toNat % 16 = 0)) (flagC s.regs)
    (∀ r, exec (.incR r) s = .next (s.withRegs { s.regs.set r (up (s.regs.get r)) with f := upF (s.regs.get r) })) ∧
    (∀ r, exec (.decR r) s = .next (s.withRegs { s.regs.set r (down (s.regs.get r)) with f := downF (s.regs.get r) })) ∧
    (∃ t, exec .incAtHl s = .next t ∧ StoredByte (afterRead s hl) hl (up (busRead s hl)) 4 t ∧
      t.regs = { s.regs with f := upF (busRead s hl) }) ∧
    (∃ t, exec .decAtHl s = .next t ∧ StoredByte (afterRead s hl) hl (down (busRead s hl)) 4 t ∧
      t.regs = { s.regs with f := downF (busRead s hl) })

/-- R208 to R211: DAA by its pseudocode in exact integers, CPL, SCF and CCF. -/
def Obligations.AccumulatorAdjust : Prop :=
  ∀ s : State,
    (let a : Int := s.regs.a.toNat
     let (r, c) : Int × Bool :=
      if flagN s.regs = false then
        (a + (if flagC s.regs = true ∨ a > 0x99 then 0x60 else 0) + (if flagH s.regs = true ∨ a % 16 > 9 then 0x06 else 0),
          decide (flagC s.regs = true ∨ a > 0x99))
      else (a - (if flagC s.regs = true then 0x60 else 0) - (if flagH s.regs = true then 0x06 else 0), flagC s.regs)
    exec .daa s = .next (s.withRegs
      { s.regs with a := BitVec.ofInt 8 r, f := specF (decide (r % 256 = 0)) (flagN s.regs) false c })) ∧
    exec .cpl s = .next (s.withRegs { s.regs with
      a := BitVec.ofNat 8 (255 - s.regs.a.toNat), f := specF (flagZ s.regs) true true (flagC s.regs) }) ∧
    exec .scf s = .next (s.withRegs { s.regs with f := specF (flagZ s.regs) false false true }) ∧
    exec .ccf s = .next (s.withRegs { s.regs with f := specF (flagZ s.regs) false false (!flagC s.regs) })

/-- R208 with R183 and R189: after ADC or SBC of two-digit decimals, DAA gives the decimal sum or difference, with C its
carry or borrow. -/
def Obligations.DaaIsDecimal : Prop :=
  ∀ (s : State) (r : R8), isBcd s.regs.a = true → isBcd (s.regs.get r) = true →
    let x := bcdValue s.regs.a
    let y := bcdValue (s.regs.get r) + (flagC s.regs).toNat
    (∃ t u, exec (.adcR r) s = .next t ∧ exec .daa t = .next u ∧ isBcd u.regs.a = true ∧
      bcdValue u.regs.a = (x + y) % 100 ∧ flagC u.regs = decide (100 ≤ x + y)) ∧
    (∃ t u, exec (.sbcR r) s = .next t ∧ exec .daa t = .next u ∧ isBcd u.regs.a = true ∧
      bcdValue u.regs.a = (x + 200 - y) % 100 ∧ flagC u.regs = decide (x < y))

/-! ### Instructions: 16-bit arithmetic, rotates, bits -/

/-- R221, R222, R223: ADD HL keeps Z and carries out of bits 11 and 15; INC and DEC of a pair touch no flag. -/
def Obligations.PairArithmetic : Prop :=
  ∀ (s : State) (p : R16),
    let hl := 256 * s.regs.h.toNat + s.regs.l.toNat
    let v := (s.regs.pair p).toNat
    (∃ t, exec (.addHlRr p) s = .next t ∧ OnlyTime 4 s t ∧ t.regs = { s.regs with
      h := BitVec.ofNat 8 ((hl + v) / 256), l := BitVec.ofNat 8 (hl + v)
      f := specF (flagZ s.regs) false (decide (hl % 4096 + v % 4096 > 4095)) (decide (hl + v > 65535)) }) ∧
    (∃ t, exec (.incRr p) s = .next t ∧ OnlyTime 4 s t ∧ (t.regs.pair p).toNat = (v + 1) % 65536 ∧
      (∀ q, pairHas p q = false → t.regs.get q = s.regs.get q) ∧ t.regs.f = s.regs.f ∧ (p ≠ .sp → t.regs.sp = s.regs.sp) ∧
      t.regs.pc = s.regs.pc) ∧
    (∃ t, exec (.decRr p) s = .next t ∧ OnlyTime 4 s t ∧ (t.regs.pair p).toNat = (v + 65535) % 65536 ∧
      (∀ q, pairHas p q = false → t.regs.get q = s.regs.get q) ∧ t.regs.f = s.regs.f ∧ (p ≠ .sp → t.regs.sp = s.regs.sp) ∧
      t.regs.pc = s.regs.pc)

/-- R230 to R249, register forms: the four accumulator rotates, which clear Z, and the eight CB rotates and shifts, which set
it from the result. -/
def Obligations.RotateRegisters : Prop :=
  ∀ s : State,
    let rot (f : Rot) (v : Byte) := specRotate f v.toNat (flagC s.regs).toNat
    let acc (i : Instr) (f : Rot) : Prop := exec i s = .next (s.withRegs { s.regs with
      a := BitVec.ofNat 8 (rot f s.regs.a).1, f := specF false false false (rot f s.regs.a).2 })
    let reg (i : Instr) (f : Rot) (r : R8) : Prop := exec i s = .next (s.withRegs
      { s.regs.set r (BitVec.ofNat 8 (rot f (s.regs.get r)).1) with
        f := specF (decide ((rot f (s.regs.get r)).1 = 0)) false false (rot f (s.regs.get r)).2 })
    acc .rlca .rlc ∧ acc .rrca .rrc ∧ acc .rla .rl ∧ acc .rra .rr ∧
    ∀ r, reg (.rlcR r) .rlc r ∧ reg (.rrcR r) .rrc r ∧ reg (.rlR r) .rl r ∧ reg (.rrR r) .rr r ∧
      reg (.slaR r) .sla r ∧ reg (.sraR r) .sra r ∧ reg (.swapR r) .swap r ∧ reg (.srlR r) .srl r

/-- R236 to R250, memory forms: read, then 4 T-cycles later write. -/
def Obligations.RotateMemory : Prop :=
  ∀ s : State,
    let hl : Word := BitVec.ofNat 16 (256 * s.regs.h.toNat + s.regs.l.toNat)
    let mem (i : Instr) (f : Rot) : Prop :=
      let r := specRotate f (busRead s hl).toNat (flagC s.regs).toNat
      ∃ t, exec i s = .next t ∧ StoredByte (afterRead s hl) hl (BitVec.ofNat 8 r.1) 4 t ∧
        t.regs = { s.regs with f := specF (decide (r.1 = 0)) false false r.2 }
    mem .rlcAtHl .rlc ∧ mem .rrcAtHl .rrc ∧ mem .rlAtHl .rl ∧ mem .rrAtHl .rr ∧ mem .slaAtHl .sla ∧
      mem .sraAtHl .sra ∧ mem .swapAtHl .swap ∧ mem .srlAtHl .srl

/-- R251 to R256: BIT tests and writes nothing back, RES and SET change one bit and no flag. -/
def Obligations.BitOperations : Prop :=
  ∀ (s : State) (b : Fin 8),
    let hl : Word := BitVec.ofNat 16 (256 * s.regs.h.toNat + s.regs.l.toNat)
    let bitF (v : Byte) := specF (decide (bitNat v b.val = 0)) false true (flagC s.regs)
    let res (v : Byte) : Byte := BitVec.ofNat 8 (v.toNat - 2 ^ b.val * bitNat v b.val)
    let set (v : Byte) : Byte := BitVec.ofNat 8 (v.toNat + 2 ^ b.val * (1 - bitNat v b.val))
    (∀ r, exec (.bitR b r) s = .next (s.withRegs { s.regs with f := bitF (s.regs.get r) })) ∧
    (∀ r, exec (.resR b r) s = .next (s.withRegs (s.regs.set r (res (s.regs.get r))))) ∧
    (∀ r, exec (.setR b r) s = .next (s.withRegs (s.regs.set r (set (s.regs.get r))))) ∧
    (∃ t, exec (.bitAtHl b) s = .next t ∧ OnlyTime 4 (readEffect s hl) t ∧ t.regs = { s.regs with f := bitF (busRead s hl) }) ∧
    (∃ t, exec (.resAtHl b) s = .next t ∧ StoredByte (afterRead s hl) hl (res (busRead s hl)) 4 t ∧ t.regs = s.regs) ∧
    (∃ t, exec (.setAtHl b) s = .next t ∧ StoredByte (afterRead s hl) hl (set (busRead s hl)) 4 t ∧ t.regs = s.regs)

/-- R295: the prefix by itself fetches one more byte and is the operation of the CB table that byte names. -/
def Obligations.PrefixRunsTheTable : Prop :=
  ∀ s : State,
    let k := busRead s s.regs.pc
    exec .prefixCb s = exec (decodeCb k) ((afterRead s s.regs.pc).withRegs { s.regs with pc := s.regs.pc + 1#16 }) ∧
    decode [0xCB#8, k] = .instr (decodeCb k) [] ∧ ∃ t, exec .prefixCb s = .next t

/-! ### Instructions: control flow and system -/

/-- R270 to R274: jumps. A condition that fails costs no time of its own and leaves everything. -/
def Obligations.Jumps : Prop :=
  ∀ s : State,
    let rel (e : Byte) : Word :=
      BitVec.ofInt 16 ((s.regs.pc.toNat : Int) + (if e.toNat < 128 then (e.toNat : Int) else e.toNat - 256))
    let goes (i : Instr) (dest : Word) : Prop :=
      ∃ t, exec i s = .next t ∧ OnlyTime 4 s t ∧ t.regs = { s.regs with pc := dest }
    (∀ nn, goes (.jpNn nn) nn) ∧ (∀ e, goes (.jrE e) (rel e)) ∧
    exec .jpHl s = .next (s.withRegs { s.regs with pc := BitVec.ofNat 16 (256 * s.regs.h.toNat + s.regs.l.toNat) }) ∧
    (∀ cc nn, (condMet s.regs cc = true → goes (.jpCc cc nn) nn) ∧ (condMet s.regs cc = false → exec (.jpCc cc nn) s = .next s)) ∧
    (∀ cc e, (condMet s.regs cc = true → goes (.jrCc cc e) (rel e)) ∧ (condMet s.regs cc = false → exec (.jrCc cc e) s = .next s))

/-- R275, R276, R280: CALL, CALL cc and RST push PC, high byte first, and jump. -/
def Obligations.Calls : Prop :=
  ∀ s : State,
    let calls (i : Instr) (dest : Word) : Prop :=
      ∃ t, exec i s = .next t ∧ t.regs = { s.regs with sp := s.regs.sp - 2#16, pc := dest } ∧
        StoredTwo s (s.regs.sp - 1#16) (s.regs.pc.extractLsb' 8 8) (s.regs.sp - 2#16) (s.regs.pc.extractLsb' 0 8) 8 t
    (∀ nn, calls (.callNn nn) nn) ∧ (∀ v : Byte, calls (.rst v) (BitVec.ofNat 16 v.toNat)) ∧
    (∀ cc nn, (condMet s.regs cc = true → calls (.callCc cc nn) nn) ∧ (condMet s.regs cc = false → exec (.callCc cc nn) s = .next s))

/-- R277, R278, R279, R318: RET, RET cc and RETI pop PC; RETI sets `ime` at once and restores nothing else. -/
def Obligations.Returns : Prop :=
  ∀ s : State,
    let back : Regs := { s.regs with
      sp := s.regs.sp + 2#16
      pc := BitVec.ofNat 16 (256 * (busRead (afterRead s s.regs.sp) (s.regs.sp + 1#16)).toNat + (busRead s s.regs.sp).toNat) }
    let last := readEffect (afterRead s s.regs.sp) (s.regs.sp + 1#16)
    (∃ t, exec .ret s = .next t ∧ OnlyTime 8 last t ∧ t.regs = back) ∧
    (∃ t, exec .reti s = .next t ∧ OnlyTime 8 { last with ime := true } t ∧ t.regs = back) ∧
    (∀ cc, (condMet s.regs cc = true → ∃ t, exec (.retCc cc) s = .next t ∧ OnlyTime 12 last t ∧ t.regs = back) ∧
      (condMet s.regs cc = false → ∃ t, exec (.retCc cc) s = .next t ∧ OnlyTime 4 s t ∧ t.regs = s.regs))

/-- R17, R275, R277, R310, R279: with the stack in WRAM or HRAM, RET brings back the PC a CALL pushed, and RETI the PC an
interrupt pushed, with SP as it was and `ime` on. -/
def Obligations.CallsReturn : Prop :=
  ∀ s : State, Memory.wf s.mem = true →
    (0xC002 ≤ s.regs.sp.toNat ∧ s.regs.sp.toNat ≤ 0xE000) ∨ 0xFF82 ≤ s.regs.sp.toNat →
    (∀ nn, ∃ t u, exec (.callNn nn) s = .next t ∧ exec .ret t = .next u ∧ u.regs = s.regs) ∧
    (s.ime = true → s.stopped = false → pending s ≠ 0#5 →
      ∃ t u, step s = .next t ∧ exec .reti t = .next u ∧ u.regs = s.regs ∧ u.ime = true)

/-- R290 to R294: NOP, HALT, STOP (DMG), DI and EI, and that nothing else changes. -/
def Obligations.SystemInstructions : Prop :=
  ∀ s : State,
    exec .nop s = .next s ∧
    exec .di s = .next { s with ime := false, imePending := 0 } ∧
    exec .ei s = .next { s with imePending := 2 } ∧
    (s.ime = true ∨ (∀ n, (s.intEnable.getLsbD n && s.intFlags.getLsbD n) = false) →
      exec .halt s = .next { s with halted := true }) ∧
    (s.ime = false → (∃ n, (s.intEnable.getLsbD n && s.intFlags.getLsbD n) = true) →
      exec .halt s = .next { s with haltBug := true }) ∧
    (s.cgb = none → exec .stop s = .next { s with stopped := true })

/-- R292, R425: STOP on a CGB machine: the stopped state, or with KEY1 bit 0 set the speed switch, 128 T-cycles long; in
double speed the PPU gets half the T-cycles and the timer all of them. -/
def Obligations.SpeedSwitchRule : Prop :=
  ∀ (s : State) (g : Cgb), s.cgb = some g →
    (g.key1Request = false → exec .stop s = .next { s with stopped := true }) ∧
    (g.key1Request = true → ∃ t, exec .stop s = .next t ∧ t.regs = s.regs ∧ t.stopped = s.stopped ∧
      t.cyclesTotal = s.cyclesTotal + 128 ∧ t.cgb = some { key1Request := false, doubleSpeed := !g.doubleSpeed } ∧
      MemoryKept s t ∧ t.timer = (tick 128 s).timer ∧ t.ppu = (tick 128 s).ppu) ∧
    (g.doubleSpeed = true → ∀ k, (tick (2 * k) s).ppu = (tick k { s with cgb := some { g with doubleSpeed := false } }).ppu ∧
      (tick (2 * k) s).timer.divCounter = s.timer.divCounter + BitVec.ofNat 16 (2 * k))
end

