-- ==== Sys2Proof/Laws/Memory.lean ====
section
/-! SUPPORT. The laws of a memory image: read after write, the canonical form, and that equal images are equal data. -/

namespace Sys2Proof.Machine

theorem Memory.wf_cons {k : Nat} {v : Byte} {m : List Host.Cell} :
    Memory.wf ((k, v) :: m) = true ↔ v ≠ Config.unlisted ∧ (∀ c ∈ m, k < c.1) ∧ Memory.wf m = true := by
  simp [Memory.wf, and_assoc]

/-- An address below all entries is not listed. -/
theorem Memory.read_of_lt {m : List Host.Cell} {a : Nat} (h : ∀ c ∈ m, a < c.1) : Memory.read m a = Config.unlisted := by
  induction m with
  | nil => rfl
  | cons c rest ih =>
    have h1 := h c (by simp)
    simp only [Memory.read]
    rw [if_neg (by omega)]
    exact ih fun d hd => h d (by simp [hd])

/-- Every entry of a written image was there before, or is the one written. -/
theorem Memory.mem_write {m : List Host.Cell} {a : Nat} {v : Byte} {c : Host.Cell} (h : c ∈ Memory.write m a v) :
    c ∈ m ∨ c = (a, v) := by
  induction m with
  | nil => simp only [Memory.write] at h; split at h <;> simp_all
  | cons d rest ih =>
    simp only [Memory.write] at h
    split at h
    · split at h <;> simp_all; tauto
    · split at h
      · split at h <;> simp_all; tauto
      · rcases List.mem_cons.1 h with rfl | h
        · simp
        · rcases ih h with h | h <;> simp [h]

/-- A write leaves every other address alone. -/
theorem Memory.read_write_other {m : List Host.Cell} {a n : Nat} {v : Byte} (h : n ≠ a) :
    Memory.read (Memory.write m a v) n = Memory.read m n := by
  induction m with
  | nil => simp only [Memory.write]; split <;> simp [Memory.read, Ne.symm h]
  | cons d rest ih =>
    simp only [Memory.write]
    split
    · split <;> simp [Memory.read, Ne.symm h]
    · split
      · rename_i h1
        subst h1
        split <;> simp [Memory.read, Ne.symm h]
      · simp only [Memory.read, ih]

/-- A write keeps the canonical form. -/
theorem Memory.wf_write {m : List Host.Cell} (a : Nat) (v : Byte) (hm : Memory.wf m = true) :
    Memory.wf (Memory.write m a v) = true := by
  induction m with
  | nil => simp only [Memory.write]; split <;> simp_all [Memory.wf]
  | cons d rest ih =>
    obtain ⟨k, w⟩ := d
    obtain ⟨h1, h2, h3⟩ := Memory.wf_cons.1 hm
    simp only [Memory.write]
    split
    · split
      · exact hm
      · refine Memory.wf_cons.2 ⟨‹_›, fun c hc => ?_, hm⟩
        rcases List.mem_cons.1 hc with rfl | hc
        · assumption
        · have := h2 c hc; omega
    · split
      · rename_i h4
        subst h4
        split
        · exact h3
        · exact Memory.wf_cons.2 ⟨‹_›, h2, h3⟩
      · refine Memory.wf_cons.2 ⟨h1, fun c hc => ?_, ih h3⟩
        rcases Memory.mem_write hc with hc | rfl
        · exact h2 c hc
        · omega

/-- A read after a write to the same address gives the byte written. -/
theorem Memory.read_write_same {m : List Host.Cell} (a : Nat) (v : Byte) (hm : Memory.wf m = true) :
    Memory.read (Memory.write m a v) a = v := by
  induction m with
  | nil => simp only [Memory.write]; split <;> simp_all [Memory.read]
  | cons d rest ih =>
    obtain ⟨k, w⟩ := d
    obtain ⟨-, h2, h3⟩ := Memory.wf_cons.1 hm
    simp only [Memory.write]
    split
    · split
      · rename_i h4 h5
        rw [h5, Memory.read, if_neg (by omega)]
        exact Memory.read_of_lt fun c hc => by have := h2 c hc; omega
      · simp [Memory.read]
    · split
      · rename_i h4
        subst h4
        split
        · rename_i h5
          rw [h5]; exact Memory.read_of_lt h2
        · simp [Memory.read]
      · rw [Memory.read, if_neg (by omega)]; exact ih h3

/-- A property of every address listed holds after a write to an address that has it. -/
theorem Memory.all_write {m : List Host.Cell} {p : Nat → Bool} {a : Nat} (v : Byte) (hm : m.all (fun c => p c.1) = true)
    (ha : p a = true) : (Memory.write m a v).all (fun c => p c.1) = true := by
  rw [List.all_eq_true] at *
  intro c hc
  rcases Memory.mem_write hc with hc | rfl
  · exact hm c hc
  · exact ha

theorem Memory.wf_writeBytes {m : List Host.Cell} (a : Nat) (vs : List Byte) (hm : Memory.wf m = true) :
    Memory.wf (Memory.writeBytes m a vs) = true := by
  induction vs generalizing m a with
  | nil => exact hm
  | cons v vs ih => exact ih (a + 1) (Memory.wf_write a v hm)

theorem Memory.all_writeBytes {m : List Host.Cell} {p : Nat → Bool} {a : Nat} {vs : List Byte}
    (hm : m.all (fun c => p c.1) = true) (h : ∀ i < vs.length, p (a + i) = true) :
    (Memory.writeBytes m a vs).all (fun c => p c.1) = true := by
  induction vs generalizing m a with
  | nil => exact hm
  | cons v vs ih =>
    refine ih (Memory.all_write v hm (by simpa using h 0 (by simp))) fun i hi => ?_
    have := h (i + 1) (by simpa using hi)
    rwa [show a + 1 + i = a + (i + 1) by omega]

theorem Memory.read_writeBytes_other {m : List Host.Cell} {a n : Nat} {vs : List Byte} (h : n < a ∨ a + vs.length ≤ n) :
    Memory.read (Memory.writeBytes m a vs) n = Memory.read m n := by
  induction vs generalizing m a with
  | nil => rfl
  | cons v vs ih =>
    simp only [List.length_cons] at h
    rw [Memory.writeBytes, ih (by omega), Memory.read_write_other (by omega)]

theorem Memory.read_writeBytes_at {m : List Host.Cell} {a i : Nat} {vs : List Byte} (hm : Memory.wf m = true)
    (h : i < vs.length) : Memory.read (Memory.writeBytes m a vs) (a + i) = vs[i] := by
  induction vs generalizing m a i with
  | nil => simp at h
  | cons v vs ih =>
    rw [Memory.writeBytes]
    cases i with
    | zero => rw [Memory.read_writeBytes_other (by omega)]; simpa using Memory.read_write_same a v hm
    | succ i =>
      rw [show a + (i + 1) = a + 1 + i by omega]
      simpa using ih (Memory.wf_write a v hm) (by simpa using h)

/-- Two images in canonical form that read alike are the same data. -/
theorem Memory.eq_of_read {m m' : List Host.Cell} (hm : Memory.wf m = true) (hm' : Memory.wf m' = true)
    (h : ∀ n, Memory.read m n = Memory.read m' n) : m = m' := by
  induction m generalizing m' with
  | nil =>
    cases m' with
    | nil => rfl
    | cons d rest =>
      obtain ⟨h1, -, -⟩ := Memory.wf_cons.1 hm'
      exact absurd (by simpa [Memory.read] using (h d.1).symm) h1
  | cons c rest ih =>
    obtain ⟨k, v⟩ := c
    obtain ⟨h1, h2, h3⟩ := Memory.wf_cons.1 hm
    cases m' with
    | nil => exact absurd (by simpa [Memory.read] using h k) h1
    | cons d rest' =>
      obtain ⟨k', v'⟩ := d
      obtain ⟨h1', h2', h3'⟩ := Memory.wf_cons.1 hm'
      have hk : k = k' := by
        rcases Nat.lt_trichotomy k k' with hlt | heq | hgt
        · have := h k
          rw [Memory.read, if_pos rfl, Memory.read, if_neg (by omega),
            Memory.read_of_lt fun c hc => by have := h2' c hc; omega] at this
          exact absurd this h1
        · exact heq
        · have := h k'
          rw [Memory.read, if_neg (by omega), Memory.read_of_lt fun c hc => by have := h2 c hc; omega, Memory.read,
            if_pos rfl] at this
          exact absurd this.symm h1'
      subst hk
      have hv : v = v' := by simpa [Memory.read] using h k
      subst hv
      refine congrArg _ (ih h3 h3' fun n => ?_)
      by_cases hn : k = n
      · subst hn; rw [Memory.read_of_lt h2, Memory.read_of_lt h2']
      · have := h n
        rwa [Memory.read, if_neg hn, Memory.read, if_neg hn] at this

end Sys2Proof.Machine
end

