-- ==== Sys2Proof/Laws/State.lean ====
section
/-! SUPPORT. One lemma per field and update of State. The updates of the register file all become `State.withRegs`, so that a
proof meets one form of them and never unfolds a record update. -/

namespace Sys2Proof.Machine

/-! ### Every register write as a new register file -/

@[simp] theorem State.setR8_eq (s : State) (r : R8) (v : Byte) : s.setR8 r v = s.withRegs (s.regs.set r v) := rfl
@[simp] theorem State.setR16_eq (s : State) (p : R16) (v : Word) : s.setR16 p v = s.withRegs (s.regs.setPair p v) := rfl
@[simp] theorem State.setR16Stk_eq (s : State) (p : R16Stk) (v : Word) : s.setR16Stk p v = s.withRegs (s.regs.setStackPair p v) := rfl
@[simp] theorem State.setPc_eq (s : State) (v : Word) : s.setPc v = s.withRegs { s.regs with pc := v } := rfl
@[simp] theorem State.setSp_eq (s : State) (v : Word) : s.setSp v = s.withRegs { s.regs with sp := v } := rfl
@[simp] theorem State.setFlags_eq (s : State) (fl : Flags) : s.setFlags fl = s.withRegs (s.regs.setF (byteOfFlags fl)) := rfl
@[simp] theorem State.setAFlags_eq (s : State) (r : Byte × Flags) : s.setAFlags r = s.withRegs ((s.regs.set .a r.1).setF (byteOfFlags r.2)) := rfl

@[simp] theorem State.withRegs_withRegs (s : State) (g g' : Regs) : (s.withRegs g).withRegs g' = s.withRegs g' := rfl
@[simp] theorem State.withRegs_self (s : State) : s.withRegs s.regs = s := rfl

/-! ### The fields of a state with another register file -/

@[simp] theorem State.withRegs_regs (s : State) (g : Regs) : (s.withRegs g).regs = g := rfl
@[simp] theorem State.withRegs_cyclesTotal (s : State) (g : Regs) : (s.withRegs g).cyclesTotal = s.cyclesTotal := rfl
@[simp] theorem State.withRegs_ime (s : State) (g : Regs) : (s.withRegs g).ime = s.ime := rfl
@[simp] theorem State.withRegs_imePending (s : State) (g : Regs) : (s.withRegs g).imePending = s.imePending := rfl
@[simp] theorem State.withRegs_halted (s : State) (g : Regs) : (s.withRegs g).halted = s.halted := rfl
@[simp] theorem State.withRegs_stopped (s : State) (g : Regs) : (s.withRegs g).stopped = s.stopped := rfl
@[simp] theorem State.withRegs_haltBug (s : State) (g : Regs) : (s.withRegs g).haltBug = s.haltBug := rfl
@[simp] theorem State.withRegs_intFlags (s : State) (g : Regs) : (s.withRegs g).intFlags = s.intFlags := rfl
@[simp] theorem State.withRegs_intEnable (s : State) (g : Regs) : (s.withRegs g).intEnable = s.intEnable := rfl
@[simp] theorem State.withRegs_timer (s : State) (g : Regs) : (s.withRegs g).timer = s.timer := rfl
@[simp] theorem State.withRegs_ppu (s : State) (g : Regs) : (s.withRegs g).ppu = s.ppu := rfl
@[simp] theorem State.withRegs_mem (s : State) (g : Regs) : (s.withRegs g).mem = s.mem := rfl
@[simp] theorem State.withRegs_bios (s : State) (g : Regs) : (s.withRegs g).bios = s.bios := rfl
@[simp] theorem State.withRegs_biosEnabled (s : State) (g : Regs) : (s.withRegs g).biosEnabled = s.biosEnabled := rfl
@[simp] theorem State.withRegs_dmaRemaining (s : State) (g : Regs) : (s.withRegs g).dmaRemaining = s.dmaRemaining := rfl
@[simp] theorem State.withRegs_undefPolicy (s : State) (g : Regs) : (s.withRegs g).undefPolicy = s.undefPolicy := rfl
@[simp] theorem State.withRegs_cgb (s : State) (g : Regs) : (s.withRegs g).cgb = s.cgb := rfl
@[simp] theorem State.withRegs_cart (s : State) (g : Regs) : (s.withRegs g).cart = s.cart := rfl
@[simp] theorem State.withRegs_extIo (s : State) (g : Regs) : (s.withRegs g).extIo = s.extIo := rfl

/-! ### The fields of a state with an interrupt flagged -/

@[simp] theorem State.raise_regs (s : State) (n : Nat) : (s.raise n).regs = s.regs := rfl
@[simp] theorem State.raise_cyclesTotal (s : State) (n : Nat) : (s.raise n).cyclesTotal = s.cyclesTotal := rfl
@[simp] theorem State.raise_ime (s : State) (n : Nat) : (s.raise n).ime = s.ime := rfl
@[simp] theorem State.raise_imePending (s : State) (n : Nat) : (s.raise n).imePending = s.imePending := rfl
@[simp] theorem State.raise_halted (s : State) (n : Nat) : (s.raise n).halted = s.halted := rfl
@[simp] theorem State.raise_stopped (s : State) (n : Nat) : (s.raise n).stopped = s.stopped := rfl
@[simp] theorem State.raise_haltBug (s : State) (n : Nat) : (s.raise n).haltBug = s.haltBug := rfl
@[simp] theorem State.raise_intFlags (s : State) (n : Nat) : (s.raise n).intFlags = s.intFlags ||| (1#5 <<< n) := rfl
@[simp] theorem State.raise_intEnable (s : State) (n : Nat) : (s.raise n).intEnable = s.intEnable := rfl
@[simp] theorem State.raise_timer (s : State) (n : Nat) : (s.raise n).timer = s.timer := rfl
@[simp] theorem State.raise_ppu (s : State) (n : Nat) : (s.raise n).ppu = s.ppu := rfl
@[simp] theorem State.raise_mem (s : State) (n : Nat) : (s.raise n).mem = s.mem := rfl
@[simp] theorem State.raise_bios (s : State) (n : Nat) : (s.raise n).bios = s.bios := rfl
@[simp] theorem State.raise_biosEnabled (s : State) (n : Nat) : (s.raise n).biosEnabled = s.biosEnabled := rfl
@[simp] theorem State.raise_dmaRemaining (s : State) (n : Nat) : (s.raise n).dmaRemaining = s.dmaRemaining := rfl
@[simp] theorem State.raise_undefPolicy (s : State) (n : Nat) : (s.raise n).undefPolicy = s.undefPolicy := rfl
@[simp] theorem State.raise_cgb (s : State) (n : Nat) : (s.raise n).cgb = s.cgb := rfl
@[simp] theorem State.raise_cart (s : State) (n : Nat) : (s.raise n).cart = s.cart := rfl
@[simp] theorem State.raise_extIo (s : State) (n : Nat) : (s.raise n).extIo = s.extIo := rfl

/-! ### The fields of a register file after each write -/

@[simp] theorem Regs.setF_a (g : Regs) (v : Byte) : (g.setF v).a = g.a := rfl
@[simp] theorem Regs.setF_f (g : Regs) (v : Byte) : (g.setF v).f = v &&& 0xF0#8 := rfl
@[simp] theorem Regs.setF_b (g : Regs) (v : Byte) : (g.setF v).b = g.b := rfl
@[simp] theorem Regs.setF_c (g : Regs) (v : Byte) : (g.setF v).c = g.c := rfl
@[simp] theorem Regs.setF_d (g : Regs) (v : Byte) : (g.setF v).d = g.d := rfl
@[simp] theorem Regs.setF_e (g : Regs) (v : Byte) : (g.setF v).e = g.e := rfl
@[simp] theorem Regs.setF_h (g : Regs) (v : Byte) : (g.setF v).h = g.h := rfl
@[simp] theorem Regs.setF_l (g : Regs) (v : Byte) : (g.setF v).l = g.l := rfl
@[simp] theorem Regs.setF_sp (g : Regs) (v : Byte) : (g.setF v).sp = g.sp := rfl
@[simp] theorem Regs.setF_pc (g : Regs) (v : Byte) : (g.setF v).pc = g.pc := rfl
@[simp] theorem Regs.set_f (g : Regs) (r : R8) (v : Byte) : (g.set r v).f = g.f := by cases r <;> rfl
@[simp] theorem Regs.set_sp (g : Regs) (r : R8) (v : Byte) : (g.set r v).sp = g.sp := by cases r <;> rfl
@[simp] theorem Regs.set_pc (g : Regs) (r : R8) (v : Byte) : (g.set r v).pc = g.pc := by cases r <;> rfl
@[simp] theorem Regs.setPair_a (g : Regs) (p : R16) (v : Word) : (g.setPair p v).a = g.a := by cases p <;> rfl
@[simp] theorem Regs.setPair_f (g : Regs) (p : R16) (v : Word) : (g.setPair p v).f = g.f := by cases p <;> rfl
@[simp] theorem Regs.setPair_pc (g : Regs) (p : R16) (v : Word) : (g.setPair p v).pc = g.pc := by cases p <;> rfl
@[simp] theorem Regs.setStackPair_sp (g : Regs) (p : R16Stk) (v : Word) : (g.setStackPair p v).sp = g.sp := by cases p <;> rfl
@[simp] theorem Regs.setStackPair_pc (g : Regs) (p : R16Stk) (v : Word) : (g.setStackPair p v).pc = g.pc := by cases p <;> rfl

/-! ### Reads after writes -/

@[simp] theorem Regs.get_set_same (g : Regs) (r : R8) (v : Byte) : (g.set r v).get r = v := by cases r <;> rfl
theorem Regs.get_set_other (g : Regs) {r r' : R8} (v : Byte) (h : r' ≠ r) : (g.set r v).get r' = g.get r' := by
  cases r <;> cases r' <;> first | rfl | exact absurd rfl h
theorem toNat_wordOf (hi lo : Byte) : (wordOf hi lo).toNat = 256 * hi.toNat + lo.toNat := by
  refine (BitVec.toNat_append hi lo).trans ?_
  rw [← Nat.shiftLeft_add_eq_or_of_lt lo.isLt, Nat.shiftLeft_eq]; omega
theorem toNat_hiByte (v : Word) : (hiByte v).toNat = v.toNat / 256 := by
  simp only [hiByte, BitVec.extractLsb'_toNat, Nat.shiftRight_eq_div_pow]; have := v.isLt; omega
theorem toNat_loByte (v : Word) : (loByte v).toNat = v.toNat % 256 := by
  simp [loByte, BitVec.extractLsb'_toNat]
@[simp] theorem wordOf_hiByte_loByte (v : Word) : wordOf (hiByte v) (loByte v) = v :=
  BitVec.eq_of_toNat_eq (by rw [toNat_wordOf, toNat_hiByte, toNat_loByte]; omega)
@[simp] theorem hiByte_wordOf (hi lo : Byte) : hiByte (wordOf hi lo) = hi :=
  BitVec.eq_of_toNat_eq (by rw [toNat_hiByte, toNat_wordOf]; omega)
@[simp] theorem loByte_wordOf (hi lo : Byte) : loByte (wordOf hi lo) = lo :=
  BitVec.eq_of_toNat_eq (by rw [toNat_loByte, toNat_wordOf]; omega)
@[simp] theorem Regs.pair_setPair_same (g : Regs) (p : R16) (v : Word) : (g.setPair p v).pair p = v := by
  cases p <;> simp [Regs.setPair, Regs.pair]

/-- The byte of F that four flags make, by value, with the low nibble zero (R12, R23). -/
theorem byteOfFlags_masked (fl : Flags) : byteOfFlags fl &&& 0xF0#8 = specF fl.z fl.n fl.h fl.c := by
  obtain ⟨z, n, h, c⟩ := fl
  cases z <;> cases n <;> cases h <;> cases c <;> rfl

/-- No flag byte has a bit in its low nibble (R23). -/
theorem specF_low (z n h c : Bool) : specF z n h c &&& 0x0F#8 = 0#8 := by
  cases z <;> cases n <;> cases h <;> cases c <;> rfl

@[simp] theorem Regs.setF_byteOfFlags (g : Regs) (fl : Flags) :
    g.setF (byteOfFlags fl) = { g with f := specF fl.z fl.n fl.h fl.c } := by
  simp only [Regs.setF, byteOfFlags_masked]

end Sys2Proof.Machine
end

