-- ==== Sys2Proof/Laws/Tick.lean ====
section
/-! SUPPORT. What time does and what it does not: `tick` moves the clock, the timer, the PPU, the DMA lockout and IF, reads
nothing of the CPU's own state, and runs in parts as well as in one go. -/

namespace Sys2Proof.Machine

/-- The state that the devices of the block neither read nor write in a T-cycle. -/
structure Ctl where
  regs : Regs
  cyclesTotal : Nat
  ime : Bool
  imePending : Nat
  halted : Bool
  stopped : Bool
  haltBug : Bool
  intEnable : BitVec 5
  bios : List Host.Cell
  biosEnabled : Bool
  undefPolicy : UndefPolicy
  cart : Cart
  extIo : ExtIo

def State.ctl (s : State) : Ctl :=
  ⟨s.regs, s.cyclesTotal, s.ime, s.imePending, s.halted, s.stopped, s.haltBug, s.intEnable, s.bios, s.biosEnabled,
    s.undefPolicy, s.cart, s.extIo⟩

def State.withCtl (s : State) (c : Ctl) : State :=
  { s with regs := c.regs, cyclesTotal := c.cyclesTotal, ime := c.ime, imePending := c.imePending, halted := c.halted,
           stopped := c.stopped, haltBug := c.haltBug, intEnable := c.intEnable, bios := c.bios,
           biosEnabled := c.biosEnabled, undefPolicy := c.undefPolicy, cart := c.cart, extIo := c.extIo }

@[simp] theorem State.withCtl_ctl (s : State) : s.withCtl s.ctl = s := rfl
@[simp] theorem State.ctl_withCtl (s : State) (c : Ctl) : (s.withCtl c).ctl = c := rfl

/-- What a device action `f` does not do: look at the CPU's own state, or change it, memory or the CGB state. -/
structure DeviceAction (f : State → State) : Prop where
  ctl : ∀ s c, f (s.withCtl c) = (f s).withCtl c
  mem : ∀ s, (f s).mem = s.mem
  cgb : ∀ s, (f s).cgb = s.cgb

theorem DeviceAction.id : DeviceAction (fun s => s) := ⟨fun _ _ => rfl, fun _ => rfl, fun _ => rfl⟩

theorem DeviceAction.comp {g f : State → State} (hg : DeviceAction g) (hf : DeviceAction f) :
    DeviceAction (fun s => g (f s)) :=
  ⟨fun s c => by rw [hf.ctl, hg.ctl], fun s => by rw [hg.mem, hf.mem], fun s => by rw [hg.cgb, hf.cgb]⟩

/-- A choice that looks at device state and memory only. -/
theorem DeviceAction.ite {f g : State → State} (p : State → Prop) [DecidablePred p] (hf : DeviceAction f)
    (hg : DeviceAction g) (hp : ∀ s c, p (s.withCtl c) ↔ p s) : DeviceAction (fun s => if p s then f s else g s) := by
  refine ⟨fun s c => ?_, fun s => ?_, fun s => ?_⟩ <;> by_cases h : p s
  · simp only [hp, if_pos h, hf.ctl]
  · simp only [hp, if_neg h, hg.ctl]
  · simp only [if_pos h, hf.mem]
  · simp only [if_neg h, hg.mem]
  · simp only [if_pos h, hf.cgb]
  · simp only [if_neg h, hg.cgb]

/-- An action on the timer alone. -/
theorem DeviceAction.timer (f : Timer → Timer) : DeviceAction fun s => { s with timer := f s.timer } :=
  ⟨fun _ _ => rfl, fun _ => rfl, fun _ => rfl⟩

/-- An action on the PPU alone, from the PPU, memory and the CGB state. -/
theorem DeviceAction.ppu (f : List Host.Cell → Option Cgb → Ppu → Ppu) :
    DeviceAction fun s => { s with ppu := f s.mem s.cgb s.ppu } :=
  ⟨fun _ _ => rfl, fun _ => rfl, fun _ => rfl⟩

theorem DeviceAction.raise (n : Nat) : DeviceAction (State.raise · n) := ⟨fun _ _ => rfl, fun _ => rfl, fun _ => rfl⟩

theorem DeviceAction.reloadTick : DeviceAction reloadTick := by
  refine ⟨fun s c => ?_, fun s => ?_, fun s => ?_⟩ <;> rcases hd : s.timer.timaDelay with _ | _ | d
  all_goals
    have hd' : (s.withCtl s.ctl).timer.timaDelay = _ := hd
    simp only [Machine.reloadTick, State.withCtl, hd, State.raise]

theorem DeviceAction.timerTick : DeviceAction timerTick := by
  have h := DeviceAction.reloadTick.comp (.timer fun t => { t with divCounter := t.divCounter + 1#16 })
  refine ⟨fun s c => ?_, h.mem, h.cgb⟩
  have hc := h.ctl s c
  simp only [State.withCtl] at hc
  simp only [Machine.timerTick, State.withCtl, hc]

theorem DeviceAction.raiseStat (n : Nat) : DeviceAction (raiseStat n) :=
  .ite (fun s => statEnable s.ppu n = true) (.raise 1) .id fun _ _ => Iff.rfl

theorem DeviceAction.lyCompare : DeviceAction lyCompare :=
  .comp (g := fun s => if s.ppu.coincidence then Machine.raiseStat 6 s else s)
    (.ite (fun s => s.ppu.coincidence = true) (.raiseStat 6) .id fun _ _ => Iff.rfl)
    (.ppu fun _ _ p => { p with coincidence := p.ly == p.lyc })

theorem DeviceAction.spriteScan : DeviceAction spriteScan :=
  .ppu fun m _ p => { p with lineSprites := spritesOfLine m (spriteHeight p) p.ly.toNat }

theorem DeviceAction.renderLine : DeviceAction renderLine :=
  .ppu fun m g p => { p with framebuffer := p.framebuffer.setIfInBounds p.ly.toNat (renderedLine m p g p.ly.toNat) }

theorem DeviceAction.enterMode2 : DeviceAction enterMode2 :=
  .comp (g := fun s => Machine.spriteScan (Machine.raiseStat 5 s)) (.comp .spriteScan (.raiseStat 5))
    (.ppu fun _ _ p => { p with mode := .oamScan })

theorem DeviceAction.enterMode3 : DeviceAction enterMode3 :=
  .comp (g := Machine.renderLine) .renderLine (.ppu fun _ _ p => { p with mode := .rendering })

theorem DeviceAction.enterMode0 : DeviceAction enterMode0 :=
  .comp (g := Machine.raiseStat 3) (.raiseStat 3) (.ppu fun _ _ p => { p with mode := .hblank })

theorem DeviceAction.enterVBlank : DeviceAction enterVBlank :=
  .comp (g := fun s => Machine.raiseStat 4 (s.raise 0)) (.comp (.raiseStat 4) (.raise 0))
    (.ppu fun _ _ p => { p with mode := .vblank, frameCount := p.frameCount + 1 })

theorem DeviceAction.endOfLine : DeviceAction endOfLine :=
  .comp (g := fun s => if s.ppu.ly.toNat = visibleLines then Machine.enterVBlank s
      else if s.ppu.ly.toNat < visibleLines then Machine.enterMode2 s else s)
    (.ite (fun s => s.ppu.ly.toNat = visibleLines) .enterVBlank
      (.ite (fun s => s.ppu.ly.toNat < visibleLines) .enterMode2 .id fun _ _ => Iff.rfl) fun _ _ => Iff.rfl)
    (.comp (g := Machine.lyCompare) .lyCompare
      (.ppu fun _ _ p => { p with lineCycle := 0, ly := BitVec.ofNat 8 ((p.ly.toNat + 1) % frameLines) }))

theorem DeviceAction.lineEvent : DeviceAction lineEvent :=
  .ite (fun s => s.ppu.lineCycle = lineCycles) .endOfLine
    (.ite (fun s => s.ppu.ly.toNat < visibleLines ∧ s.ppu.lineCycle = scanCycles) .enterMode3
      (.ite (fun s => s.ppu.ly.toNat < visibleLines ∧ s.ppu.lineCycle = renderEnd) .enterMode0 .id fun _ _ => Iff.rfl)
      fun _ _ => Iff.rfl) fun _ _ => Iff.rfl

theorem DeviceAction.ppuTick : DeviceAction ppuTick :=
  .ite (fun s => lcdOn s.ppu = true) (.comp (g := Machine.lineEvent) .lineEvent
    (.ppu fun _ _ p => { p with lineCycle := p.lineCycle + 1 })) .id fun _ _ => Iff.rfl

theorem DeviceAction.dmaTick : DeviceAction dmaTick := ⟨fun _ _ => rfl, fun _ => rfl, fun _ => rfl⟩

theorem DeviceAction.tCycle (left : Nat) : DeviceAction (tCycle · left) :=
  .comp (g := Machine.dmaTick) .dmaTick (.ite (fun s => ppuMoves s left = true) (.comp .ppuTick .timerTick) .timerTick
    fun _ _ => Iff.rfl)

theorem DeviceAction.tCycles (k : Nat) : DeviceAction (tCycles k) := by
  induction k with
  | zero => exact .id
  | succ k ih => exact ih.comp (.tCycle k)

/-! ### The frame of `tick` -/

theorem tick_ctl (k : Nat) (s : State) : (tick k s).ctl = { s.ctl with cyclesTotal := s.cyclesTotal + k } := by
  have h := (DeviceAction.tCycles k).ctl s { s.ctl with cyclesTotal := s.cyclesTotal + k }
  have e : s.withCtl { s.ctl with cyclesTotal := s.cyclesTotal + k } = { s with cyclesTotal := s.cyclesTotal + k } := rfl
  rw [e] at h
  rw [tick, h, State.ctl_withCtl]

@[simp] theorem tick_regs (k : Nat) (s : State) : (tick k s).regs = s.regs := congrArg Ctl.regs (tick_ctl k s)
@[simp] theorem tick_cyclesTotal (k : Nat) (s : State) : (tick k s).cyclesTotal = s.cyclesTotal + k :=
  congrArg Ctl.cyclesTotal (tick_ctl k s)
@[simp] theorem tick_ime (k : Nat) (s : State) : (tick k s).ime = s.ime := congrArg Ctl.ime (tick_ctl k s)
@[simp] theorem tick_imePending (k : Nat) (s : State) : (tick k s).imePending = s.imePending :=
  congrArg Ctl.imePending (tick_ctl k s)
@[simp] theorem tick_halted (k : Nat) (s : State) : (tick k s).halted = s.halted := congrArg Ctl.halted (tick_ctl k s)
@[simp] theorem tick_stopped (k : Nat) (s : State) : (tick k s).stopped = s.stopped := congrArg Ctl.stopped (tick_ctl k s)
@[simp] theorem tick_haltBug (k : Nat) (s : State) : (tick k s).haltBug = s.haltBug := congrArg Ctl.haltBug (tick_ctl k s)
@[simp] theorem tick_intEnable (k : Nat) (s : State) : (tick k s).intEnable = s.intEnable :=
  congrArg Ctl.intEnable (tick_ctl k s)
@[simp] theorem tick_bios (k : Nat) (s : State) : (tick k s).bios = s.bios := congrArg Ctl.bios (tick_ctl k s)
@[simp] theorem tick_biosEnabled (k : Nat) (s : State) : (tick k s).biosEnabled = s.biosEnabled :=
  congrArg Ctl.biosEnabled (tick_ctl k s)
@[simp] theorem tick_undefPolicy (k : Nat) (s : State) : (tick k s).undefPolicy = s.undefPolicy :=
  congrArg Ctl.undefPolicy (tick_ctl k s)
@[simp] theorem tick_cart (k : Nat) (s : State) : (tick k s).cart = s.cart := congrArg Ctl.cart (tick_ctl k s)
@[simp] theorem tick_extIo (k : Nat) (s : State) : (tick k s).extIo = s.extIo := congrArg Ctl.extIo (tick_ctl k s)
@[simp] theorem tick_mem (k : Nat) (s : State) : (tick k s).mem = s.mem := (DeviceAction.tCycles k).mem _
@[simp] theorem tick_cgb (k : Nat) (s : State) : (tick k s).cgb = s.cgb := (DeviceAction.tCycles k).cgb _

/-- `tick` does not look at the CPU's own state. -/
theorem tick_withCtl (k : Nat) (s : State) (c : Ctl) :
    tick k (s.withCtl c) = (tick k s).withCtl { c with cyclesTotal := c.cyclesTotal + k } := by
  have h := (DeviceAction.tCycles k).ctl
  have h1 := h s { c with cyclesTotal := c.cyclesTotal + k }
  have h2 := h s { s.ctl with cyclesTotal := s.cyclesTotal + k }
  show Machine.tCycles k (s.withCtl { c with cyclesTotal := c.cyclesTotal + k }) =
    (Machine.tCycles k (s.withCtl { s.ctl with cyclesTotal := s.cyclesTotal + k })).withCtl _
  rw [h1, h2]
  rfl

@[simp] theorem tick_withRegs (k : Nat) (s : State) (g : Regs) : tick k (s.withRegs g) = (tick k s).withRegs g := by
  have h := tick_withCtl k s { s.ctl with regs := g }
  have e : s.withRegs g = s.withCtl { s.ctl with regs := g } := rfl
  rw [e, h]
  have hc := tick_ctl k s
  rw [← State.withCtl_ctl ((tick k s).withRegs g)]
  have : ((tick k s).withRegs g).ctl = { (tick k s).ctl with regs := g } := rfl
  rw [this, hc]
  rfl

theorem ControlKept.tick (k : Nat) (s : State) : ControlKept s (tick k s) := by constructor <;> simp
theorem MemoryKept.tick (k : Nat) (s : State) : MemoryKept s (tick k s) := fun n => by simp

/-- What an instruction that spends `k` T-cycles and writes registers leaves of the rest. -/
theorem DevicesMove.tick (k : Nat) (s : State) : DevicesMove k s (tick k s) := by constructor <;> simp

/-- The T-cycles of two ticks are those of one, when the second is of an even number. -/
theorem tCycles_tCycles (j k : Nat) (hk : k % 2 = 0) (s : State) : tCycles k (tCycles j s) = tCycles (j + k) s := by
  induction j generalizing s with
  | zero => rw [Nat.zero_add]; rfl
  | succ j ih =>
    have hj : tCycle s (j + k) = tCycle s j := by
      have : ppuMoves s (j + k) = ppuMoves s j := by
        unfold ppuMoves
        rw [show (j + k) % 2 = j % 2 by omega]
      unfold tCycle
      rw [this]
    rw [show j + 1 + k = (j + k) + 1 by omega]
    show tCycles k (tCycles j (tCycle s j)) = tCycles (j + k) (tCycle s (j + k))
    rw [ih, hj]

theorem tick_tick (j k : Nat) (hk : k % 2 = 0) (s : State) : tick k (tick j s) = tick (j + k) s := by
  have hj := (DeviceAction.tCycles j).ctl s
  have hjk := (DeviceAction.tCycles (j + k)).ctl s
  have hk' := (DeviceAction.tCycles k).ctl (tCycles j s)
  have e1 : tick j s = (tCycles j s).withCtl { s.ctl with cyclesTotal := s.cyclesTotal + j } :=
    hj { s.ctl with cyclesTotal := s.cyclesTotal + j }
  have e2 : tick (j + k) s = (tCycles (j + k) s).withCtl { s.ctl with cyclesTotal := s.cyclesTotal + (j + k) } :=
    hjk { s.ctl with cyclesTotal := s.cyclesTotal + (j + k) }
  have e3 : tick k (tick j s) =
      tCycles k ((tCycles j s).withCtl { s.ctl with cyclesTotal := s.cyclesTotal + j + k }) := by
    rw [e1]; rfl
  rw [e3, e2, hk', tCycles_tCycles j k hk, Nat.add_assoc]

end Sys2Proof.Machine
end

