-- ==== Sys2Proof/Laws/Bus.lean ====
section
/-! SUPPORT. What a bus access looks at and what a bus write can change. -/

namespace Sys2Proof.Machine

/-! ### Reads -/

@[simp] theorem busRead_withRegs (s : State) (g : Regs) (a : Word) : busRead (s.withRegs g) a = busRead s a := rfl
@[simp] theorem storeCell_withRegs (s : State) (g : Regs) (a : Word) : storeCell (s.withRegs g) a = storeCell s a := rfl

/-- The range of addresses of each region. -/
theorem regionOf_range (a : Word) :
    match regionOf a with
    | .rom => a.toNat < 0x8000
    | .vram => 0x8000 ≤ a.toNat ∧ a.toNat < 0xA000
    | .cartRam => 0xA000 ≤ a.toNat ∧ a.toNat < 0xC000
    | .wram => 0xC000 ≤ a.toNat ∧ a.toNat < 0xE000
    | .echo => 0xE000 ≤ a.toNat ∧ a.toNat < 0xFE00
    | .oam => 0xFE00 ≤ a.toNat ∧ a.toNat < 0xFEA0
    | .unusable => 0xFEA0 ≤ a.toNat ∧ a.toNat < 0xFF00
    | .io => 0xFF00 ≤ a.toNat ∧ a.toNat < 0xFF80
    | .hram => 0xFF80 ≤ a.toNat ∧ a.toNat < 0xFFFF
    | .ie => a.toNat = 0xFFFF := by
  have := a.isLt
  unfold regionOf
  dsimp only
  split_ifs <;> dsimp only <;> omega

/-- The cell behind a RAM address is one where a byte can stand. -/
theorem ramCell_backed {a : Word} {n : Nat} (h : ramCell a = some n) : backed n = true ∧ 0x8000 ≤ n := by
  have hr := regionOf_range a
  unfold ramCell at h
  cases hreg : regionOf a <;> simp only [hreg, reduceCtorEq, Option.some.injEq] at h hr
  all_goals
    subst h
    simp only [backed, Bool.or_eq_true, Bool.and_eq_true, decide_eq_true_eq]
    omega

/-- A CPU write reaches the cell behind the address, or none. -/
theorem storeCell_ramCell {s : State} {a : Word} {n : Nat} (h : storeCell s a = some n) : ramCell a = some n := by
  unfold storeCell at h
  cases hreg : regionOf a <;> simp only [hreg] at h <;> first | exact h | (split at h <;> simp_all)

theorem storeCell_backed {s : State} {a : Word} {n : Nat} (h : storeCell s a = some n) : backed n = true ∧ 0x8000 ≤ n :=
  ramCell_backed (storeCell_ramCell h)

/-! ### What a write to a register leaves alone -/

/-- The parts of the CPU's state no bus write changes. -/
structure CpuKept (s t : State) : Prop where
  regs : t.regs = s.regs
  cyclesTotal : t.cyclesTotal = s.cyclesTotal
  ime : t.ime = s.ime
  imePending : t.imePending = s.imePending
  halted : t.halted = s.halted
  stopped : t.stopped = s.stopped
  haltBug : t.haltBug = s.haltBug
  bios : t.bios = s.bios
  undefPolicy : t.undefPolicy = s.undefPolicy
  cgb : t.cgb = s.cgb

theorem CpuKept.refl (s : State) : CpuKept s s := by constructor <;> rfl

/-- A device action changes nothing of the CPU's state. -/
theorem DeviceAction.kept {f : State → State} (hf : DeviceAction f) (s : State) : (f s).ctl = s.ctl := by
  have h := hf.ctl s s.ctl
  rw [State.withCtl_ctl] at h
  rw [h, State.ctl_withCtl]

theorem DeviceAction.cpuKept {f : State → State} (hf : DeviceAction f) (s : State) : CpuKept s (f s) := by
  have h := hf.kept s
  exact ⟨congrArg Ctl.regs h, congrArg Ctl.cyclesTotal h, congrArg Ctl.ime h, congrArg Ctl.imePending h,
    congrArg Ctl.halted h, congrArg Ctl.stopped h, congrArg Ctl.haltBug h, congrArg Ctl.bios h,
    congrArg Ctl.undefPolicy h, hf.cgb s⟩

theorem DeviceAction.lyWrite : DeviceAction lyWrite :=
  .comp (g := Machine.lyCompare) .lyCompare (.ppu fun _ _ p => { p with ly := 0#8 })

theorem DeviceAction.lcdcWrite (v : Byte) : DeviceAction (lcdcWrite · v) :=
  .ite (fun s => (lcdOn s.ppu && !v.getLsbD 7) = true)
    (.comp (g := Machine.lyCompare) .lyCompare
      (.ppu fun _ _ p => { { p with lcdc := v } with ly := 0#8, mode := .hblank, lineCycle := 0 }))
    (.ite (fun s => (!lcdOn s.ppu && v.getLsbD 7) = true)
      (.comp (g := fun s => Machine.enterMode2 (Machine.lyCompare s)) (.comp .enterMode2 .lyCompare)
        (.ppu fun _ _ p => { { p with lcdc := v } with ly := 0#8, lineCycle := 0 }))
      (.ppu fun _ _ p => { p with lcdc := v }) fun _ _ => Iff.rfl) fun _ _ => Iff.rfl

/-- A write to the cartridge changes at most the cartridge's own state (R66). -/
theorem cartWrite_cases (s : State) (a : Word) (v : Byte) :
    ∃ c, c.romOf = s.cart.romOf ∧ cartWrite s a v = { s with cart := c } := by
  unfold cartWrite; split
  · exact ⟨s.cart, rfl, rfl⟩
  · next h => exact ⟨_, by rw [h]; rfl, rfl⟩

/-- An access of EXT_IO changes at most the device's own state, and IF (R71, R422). -/
theorem extIoWrite_cases (s : State) (a : Word) (v : Byte) :
    ∃ e f, e.isDevice = s.extIo.isDevice ∧ extIoWrite s a v = { s with extIo := e, intFlags := s.intFlags ||| f } := by
  unfold extIoWrite; split
  · exact ⟨s.extIo, 0#5, rfl, by simp⟩
  · next h => exact ⟨_, _, by rw [h]; rfl, rfl⟩

theorem extIoAfterRead_cases (s : State) (a : Word) :
    ∃ e f, e.isDevice = s.extIo.isDevice ∧ extIoAfterRead s a = { s with extIo := e, intFlags := s.intFlags ||| f } := by
  unfold extIoAfterRead; split
  · exact ⟨s.extIo, 0#5, rfl, by simp⟩
  · next h => exact ⟨_, _, by rw [h]; rfl, rfl⟩

/-- The side effect of a read changes EXT_IO's own state and sets IF bits, at most (R79, R422). -/
theorem readEffect_cases (s : State) (a : Word) :
    ∃ e f, e.isDevice = s.extIo.isDevice ∧ readEffect s a = { s with extIo := e, intFlags := s.intFlags ||| f } := by
  have h0 : ∃ e f, ExtIo.isDevice e = s.extIo.isDevice ∧ s = { s with extIo := e, intFlags := s.intFlags ||| f } :=
    ⟨s.extIo, 0#5, rfl, by simp⟩
  unfold readEffect
  split
  · split
    · exact h0
    · exact extIoAfterRead_cases s a
  · exact h0

/-- The four things a bus write can be: a store, a register's, IE's, or one that leaves the block. -/
theorem busWrite_cases (s : State) (a : Word) (v : Byte) :
    (busWrite s a v = storeByte s a v ∧ regionOf a ≠ .io) ∨ (∃ r, ioRegAt a = some r ∧ busWrite s a v = ioWrite s r v) ∨
      (a = 0xFFFF#16 ∧ busWrite s a v = { s with intEnable := v.extractLsb' 0 5 }) ∨
      ∃ c e f, c.romOf = s.cart.romOf ∧ e.isDevice = s.extIo.isDevice ∧
        busWrite s a v = { s with cart := c, extIo := e, intFlags := s.intFlags ||| f } := by
  have hr := regionOf_range a
  unfold busWrite
  cases hreg : regionOf a <;> rw [hreg] at hr <;> dsimp only at hr ⊢
  case io =>
    cases hio : ioRegAt a with
    | none => obtain ⟨e, f, he, h⟩ := extIoWrite_cases s a v; exact .inr (.inr (.inr ⟨s.cart, e, f, rfl, he, h⟩))
    | some r => exact .inr (.inl ⟨r, rfl, rfl⟩)
  case ie => exact .inr (.inr (.inl ⟨BitVec.eq_of_toNat_eq hr, rfl⟩))
  case rom | cartRam =>
    obtain ⟨c, hc, h⟩ := cartWrite_cases s a v
    exact .inr (.inr (.inr ⟨c, s.extIo, 0#5, hc, rfl, by rw [h]; simp⟩))
  case unusable => exact .inr (.inr (.inr ⟨s.cart, s.extIo, 0#5, rfl, rfl, by simp⟩))
  all_goals exact .inl ⟨rfl, nofun⟩

theorem storeByte_cases (s : State) (a : Word) (v : Byte) :
    (∃ n, storeCell s a = some n ∧ storeByte s a v = { s with mem := Memory.write s.mem n v }) ∨
      (storeCell s a = none ∧ storeByte s a v = s) := by
  unfold storeByte
  cases h : storeCell s a with
  | none => exact .inr ⟨rfl, rfl⟩
  | some n => exact .inl ⟨n, rfl, rfl⟩

theorem busWrite_cpuKept (s : State) (a : Word) (v : Byte) : CpuKept s (busWrite s a v) := by
  rcases busWrite_cases s a v with ⟨e, -⟩ | ⟨r, -, e⟩ | ⟨-, e⟩ | ⟨_, _, _, -, -, e⟩ <;> rw [e]
  · rcases storeByte_cases s a v with ⟨n, -, e⟩ | ⟨-, e⟩ <;> rw [e]
    · constructor <;> dsimp only
    · exact .refl s
  · cases r
    case lcdc => exact (DeviceAction.lcdcWrite v).cpuKept s
    case ly => exact DeviceAction.lyWrite.cpuKept s
    all_goals constructor <;> dsimp only [ioWrite, dmaWrite]
  · constructor <;> dsimp only
  · constructor <;> dsimp only

/-- A bus write leaves the same cartridge in place, and the same kind of EXT_IO (R66, R71). -/
theorem busWrite_units (s : State) (a : Word) (v : Byte) :
    (busWrite s a v).cart.romOf = s.cart.romOf ∧ (busWrite s a v).extIo.isDevice = s.extIo.isDevice := by
  rcases busWrite_cases s a v with ⟨e, -⟩ | ⟨r, -, e⟩ | ⟨-, e⟩ | ⟨_, _, _, hc, he, e⟩ <;> rw [e]
  · rcases storeByte_cases s a v with ⟨n, -, e⟩ | ⟨-, e⟩ <;> rw [e] <;> exact ⟨rfl, rfl⟩
  · cases r
    case lcdc =>
      have h := (DeviceAction.lcdcWrite v).kept s
      exact ⟨congrArg (fun c : Ctl => c.cart.romOf) h, congrArg (fun c : Ctl => c.extIo.isDevice) h⟩
    case ly =>
      have h := DeviceAction.lyWrite.kept s
      exact ⟨congrArg (fun c : Ctl => c.cart.romOf) h, congrArg (fun c : Ctl => c.extIo.isDevice) h⟩
    all_goals (dsimp only [ioWrite, dmaWrite]; exact ⟨rfl, rfl⟩)
  · exact ⟨rfl, rfl⟩
  · exact ⟨hc, he⟩

@[simp] theorem busWrite_cartRom (s : State) (a : Word) (v : Byte) : (busWrite s a v).cart.romOf = s.cart.romOf :=
  (busWrite_units s a v).1
@[simp] theorem busWrite_extIoKind (s : State) (a : Word) (v : Byte) :
    (busWrite s a v).extIo.isDevice = s.extIo.isDevice := (busWrite_units s a v).2
@[simp] theorem busWrite_regs (s : State) (a : Word) (v : Byte) : (busWrite s a v).regs = s.regs :=
  (busWrite_cpuKept s a v).regs
@[simp] theorem busWrite_cyclesTotal (s : State) (a : Word) (v : Byte) : (busWrite s a v).cyclesTotal = s.cyclesTotal :=
  (busWrite_cpuKept s a v).cyclesTotal
@[simp] theorem busWrite_ime (s : State) (a : Word) (v : Byte) : (busWrite s a v).ime = s.ime := (busWrite_cpuKept s a v).ime
@[simp] theorem busWrite_imePending (s : State) (a : Word) (v : Byte) : (busWrite s a v).imePending = s.imePending :=
  (busWrite_cpuKept s a v).imePending
@[simp] theorem busWrite_halted (s : State) (a : Word) (v : Byte) : (busWrite s a v).halted = s.halted :=
  (busWrite_cpuKept s a v).halted
@[simp] theorem busWrite_stopped (s : State) (a : Word) (v : Byte) : (busWrite s a v).stopped = s.stopped :=
  (busWrite_cpuKept s a v).stopped
@[simp] theorem busWrite_haltBug (s : State) (a : Word) (v : Byte) : (busWrite s a v).haltBug = s.haltBug :=
  (busWrite_cpuKept s a v).haltBug
@[simp] theorem busWrite_bios (s : State) (a : Word) (v : Byte) : (busWrite s a v).bios = s.bios :=
  (busWrite_cpuKept s a v).bios
@[simp] theorem busWrite_undefPolicy (s : State) (a : Word) (v : Byte) : (busWrite s a v).undefPolicy = s.undefPolicy :=
  (busWrite_cpuKept s a v).undefPolicy
@[simp] theorem busWrite_cgb (s : State) (a : Word) (v : Byte) : (busWrite s a v).cgb = s.cgb := (busWrite_cpuKept s a v).cgb

/-- A bus write does not look at the register file. -/
@[simp] theorem busWrite_withRegs (s : State) (g : Regs) (a : Word) (v : Byte) :
    busWrite (s.withRegs g) a v = (busWrite s a v).withRegs g := by
  have key {f : State → State} (hf : DeviceAction f) : f (s.withRegs g) = (f s).withRegs g := by
    have e : s.withRegs g = s.withCtl { s.ctl with regs := g } := rfl
    have h := hf.kept s
    rw [e, hf.ctl, ← h]
    rfl
  have hio (r : IoReg) : ioWrite (s.withRegs g) r v = (ioWrite s r v).withRegs g := by
    cases r
    case lcdc => exact key (DeviceAction.lcdcWrite v)
    case ly => exact key DeviceAction.lyWrite
    all_goals dsimp only [ioWrite, dmaWrite, State.withRegs]
    congr 1
  have hstore : storeByte (s.withRegs g) a v = (storeByte s a v).withRegs g := by
    unfold storeByte
    rw [storeCell_withRegs]
    cases storeCell s a <;> rfl
  have hcart : cartWrite (s.withRegs g) a v = (cartWrite s a v).withRegs g := by
    unfold cartWrite State.withRegs; dsimp only; split <;> rfl
  have hext : extIoWrite (s.withRegs g) a v = (extIoWrite s a v).withRegs g := by
    unfold extIoWrite State.withRegs; dsimp only; split <;> rfl
  unfold busWrite
  cases regionOf a <;> dsimp only
  case io =>
    cases ioRegAt a with
    | none => exact hext
    | some r => exact hio r
  case rom | cartRam => exact hcart
  case ie => rfl
  all_goals exact hstore

/-! ### The side effect of a read -/

@[simp] theorem readEffect_regs (s : State) (a : Word) : (readEffect s a).regs = s.regs := by
  obtain ⟨_, _, -, h⟩ := readEffect_cases s a; rw [h]
@[simp] theorem readEffect_cyclesTotal (s : State) (a : Word) : (readEffect s a).cyclesTotal = s.cyclesTotal := by
  obtain ⟨_, _, -, h⟩ := readEffect_cases s a; rw [h]
@[simp] theorem readEffect_ime (s : State) (a : Word) : (readEffect s a).ime = s.ime := by
  obtain ⟨_, _, -, h⟩ := readEffect_cases s a; rw [h]
@[simp] theorem readEffect_imePending (s : State) (a : Word) : (readEffect s a).imePending = s.imePending := by
  obtain ⟨_, _, -, h⟩ := readEffect_cases s a; rw [h]
@[simp] theorem readEffect_halted (s : State) (a : Word) : (readEffect s a).halted = s.halted := by
  obtain ⟨_, _, -, h⟩ := readEffect_cases s a; rw [h]
@[simp] theorem readEffect_stopped (s : State) (a : Word) : (readEffect s a).stopped = s.stopped := by
  obtain ⟨_, _, -, h⟩ := readEffect_cases s a; rw [h]
@[simp] theorem readEffect_haltBug (s : State) (a : Word) : (readEffect s a).haltBug = s.haltBug := by
  obtain ⟨_, _, -, h⟩ := readEffect_cases s a; rw [h]
@[simp] theorem readEffect_intEnable (s : State) (a : Word) : (readEffect s a).intEnable = s.intEnable := by
  obtain ⟨_, _, -, h⟩ := readEffect_cases s a; rw [h]
@[simp] theorem readEffect_timer (s : State) (a : Word) : (readEffect s a).timer = s.timer := by
  obtain ⟨_, _, -, h⟩ := readEffect_cases s a; rw [h]
@[simp] theorem readEffect_ppu (s : State) (a : Word) : (readEffect s a).ppu = s.ppu := by
  obtain ⟨_, _, -, h⟩ := readEffect_cases s a; rw [h]
@[simp] theorem readEffect_mem (s : State) (a : Word) : (readEffect s a).mem = s.mem := by
  obtain ⟨_, _, -, h⟩ := readEffect_cases s a; rw [h]
@[simp] theorem readEffect_bios (s : State) (a : Word) : (readEffect s a).bios = s.bios := by
  obtain ⟨_, _, -, h⟩ := readEffect_cases s a; rw [h]
@[simp] theorem readEffect_biosEnabled (s : State) (a : Word) : (readEffect s a).biosEnabled = s.biosEnabled := by
  obtain ⟨_, _, -, h⟩ := readEffect_cases s a; rw [h]
@[simp] theorem readEffect_dmaRemaining (s : State) (a : Word) : (readEffect s a).dmaRemaining = s.dmaRemaining := by
  obtain ⟨_, _, -, h⟩ := readEffect_cases s a; rw [h]
@[simp] theorem readEffect_undefPolicy (s : State) (a : Word) : (readEffect s a).undefPolicy = s.undefPolicy := by
  obtain ⟨_, _, -, h⟩ := readEffect_cases s a; rw [h]
@[simp] theorem readEffect_cgb (s : State) (a : Word) : (readEffect s a).cgb = s.cgb := by
  obtain ⟨_, _, -, h⟩ := readEffect_cases s a; rw [h]
@[simp] theorem readEffect_extIoKind (s : State) (a : Word) : (readEffect s a).extIo.isDevice = s.extIo.isDevice := by
  obtain ⟨_, _, he, h⟩ := readEffect_cases s a; rw [h]; exact he
@[simp] theorem readEffect_cart (s : State) (a : Word) : (readEffect s a).cart = s.cart := by
  obtain ⟨_, _, -, h⟩ := readEffect_cases s a; rw [h]

/-- The side effect looks at EXT_IO alone: with the CPU's registers and the halt bug changed it is the same. -/
@[simp] theorem readEffect_withRegs (s : State) (g : Regs) (a : Word) :
    readEffect (s.withRegs g) a = (readEffect s a).withRegs g := by
  have h : extIoAfterRead (s.withRegs g) a = (extIoAfterRead s a).withRegs g := by
    unfold extIoAfterRead State.withRegs; dsimp only; split <;> rfl
  unfold readEffect
  split
  · split
    · rfl
    · exact h
  · rfl

theorem readEffect_haltBug_regs (s : State) (g : Regs) (b : Bool) (a : Word) :
    readEffect { s with regs := g, haltBug := b } a = { readEffect s a with regs := g, haltBug := b } := by
  have h : extIoAfterRead { s with regs := g, haltBug := b } a = { extIoAfterRead s a with regs := g, haltBug := b } := by
    unfold extIoAfterRead; dsimp only; split <;> rfl
  unfold readEffect
  split
  · split
    · rfl
    · exact h
  · rfl

/-- Outside EXT_IO, and everywhere when it is absent, a read changes nothing (R79). -/
theorem readEffect_eq {s : State} {a : Word} (h : s.extIo = .absent ∨ regionOf a ≠ .io ∨ ioRegAt a ≠ none) :
    readEffect s a = s := by
  unfold readEffect
  split
  · next hr =>
    split
    · rfl
    · next hn =>
      rcases h with h | h | h
      · unfold extIoAfterRead; rw [h]
      · exact absurd hr h
      · exact absurd hn h
  · rfl

/-! ### What a write does to memory -/

theorem ioReg_skip {p : Prop} [Decidable p] {r r' : IoReg} {e : Option IoReg} (hr : r ≠ r')
    (h : (if p then some r else e) = some r') : e = some r' := by
  by_cases hp : p
  · rw [if_pos hp] at h; exact absurd (Option.some.inj h) hr
  · rwa [if_neg hp] at h

theorem ioRegAt_dma {a : Word} (h : ioRegAt a = some .dma) : a = 0xFF46#16 := by
  unfold ioRegAt at h
  iterate 11 replace h := ioReg_skip (by decide) h
  by_cases hp : a = 0xFF46#16
  · exact hp
  · rw [if_neg hp] at h
    iterate 6 replace h := ioReg_skip (by decide) h
    exact nomatch h

@[simp] theorem dmaSource_length (s : State) (v : Byte) : (dmaSource s v).length = 160 := by simp [dmaSource]

/-- The memory image after a bus write: one cell written, or OAM filled by a DMA, or nothing. -/
theorem busWrite_mem (s : State) (a : Word) (v : Byte) :
    (∃ n, storeCell s a = some n ∧ (busWrite s a v).mem = Memory.write s.mem n v) ∨
      (a = 0xFF46#16 ∧ (busWrite s a v).mem = Memory.writeBytes s.mem 0xFE00 (dmaSource s v)) ∨
      (busWrite s a v).mem = s.mem := by
  rcases busWrite_cases s a v with ⟨e, -⟩ | ⟨r, hr, e⟩ | ⟨-, e⟩ | ⟨_, _, _, -, -, e⟩ <;> rw [e]
  · rcases storeByte_cases s a v with ⟨n, hn, e⟩ | ⟨-, e⟩ <;> rw [e]
    · exact .inl ⟨n, hn, rfl⟩
    · exact .inr (.inr rfl)
  · cases r
    case dma => exact .inr (.inl ⟨ioRegAt_dma hr, by dsimp only [ioWrite, dmaWrite]⟩)
    case lcdc => exact .inr (.inr ((DeviceAction.lcdcWrite v).mem s))
    case ly => exact .inr (.inr (DeviceAction.lyWrite.mem s))
    all_goals exact .inr (.inr (by dsimp only [ioWrite]))
  · exact .inr (.inr rfl)
  · exact .inr (.inr rfl)

/-- A bus write leaves every cell it does not store to. -/
theorem busWrite_read_other {s : State} {a : Word} {v : Byte} {n : Nat} (h : ¬ storesTo s a n) :
    Memory.read (busWrite s a v).mem n = Memory.read s.mem n := by
  unfold storesTo at h
  rcases busWrite_mem s a v with ⟨k, hk, e⟩ | ⟨ha, e⟩ | e
  · rw [e, Memory.read_write_other (by rintro rfl; exact h (.inl hk))]
  · rw [e, Memory.read_writeBytes_other]
    rw [dmaSource_length]
    have : ¬ (0xFE00 ≤ n ∧ n < 0xFEA0) := fun hn => h (.inr ⟨ha, hn⟩)
    omega
  · rw [e]

/-- The cell a CPU write reaches then holds the byte written. -/
theorem busWrite_read_same {s : State} {a : Word} {v : Byte} {n : Nat} (hm : Memory.wf s.mem = true)
    (h : storeCell s a = some n) : Memory.read (busWrite s a v).mem n = v := by
  have hb := storeCell_ramCell h
  have hs : storeByte s a v = { s with mem := Memory.write s.mem n v } := by unfold storeByte; rw [h]
  have e : busWrite s a v = storeByte s a v := by
    unfold ramCell at hb
    unfold busWrite
    cases hreg : regionOf a <;> simp only [hreg, reduceCtorEq] at hb ⊢
  rw [e, hs]
  exact Memory.read_write_same _ _ hm

/-- ROM bytes never change. -/
theorem busWrite_rom {s : State} {a : Word} {v : Byte} {n : Nat} (h : n < 0x8000) :
    Memory.read (busWrite s a v).mem n = Memory.read s.mem n := by
  refine busWrite_read_other fun hs => ?_
  rcases hs with hs | ⟨-, hs, -⟩
  · have := (storeCell_backed hs).2; omega
  · omega

/-- A bus write keeps the images in form. -/
theorem busWrite_memInv {s : State} (a : Word) (v : Byte) (hm : MemInv s) : MemInv (busWrite s a v) := by
  obtain ⟨h1, h2, h3, h4⟩ := hm
  rw [MemInv, busWrite_bios]
  rcases busWrite_mem s a v with ⟨n, hn, e⟩ | ⟨-, e⟩ | e <;> rw [e]
  · exact ⟨Memory.wf_write n v h1, h2, Memory.all_write v h3 (storeCell_backed hn).1, h4⟩
  · refine ⟨Memory.wf_writeBytes _ _ h1, h2, Memory.all_writeBytes h3 fun i hi => ?_, h4⟩
    rw [dmaSource_length] at hi
    simp [backed]; omega
  · exact ⟨h1, h2, h3, h4⟩

end Sys2Proof.Machine
end

