-- ==== Sys2Proof/Laws/Ops.lean ====
section
/-! SUPPORT. One lemma for each shared operation of Machine/Ops.lean, saying everything it does, so that a proof about an
instruction cites it and never unfolds the operation. -/

namespace Sys2Proof.Machine

/-! ### Timed access -/

@[simp] theorem memRead_fst (s : State) (a : Word) : (memRead s a).1 = busRead s a := rfl
@[simp] theorem memRead_snd (s : State) (a : Word) : (memRead s a).2 = afterRead s a := rfl

@[simp] theorem memWrite_withRegs (s : State) (g : Regs) (a : Word) (v : Byte) :
    memWrite (s.withRegs g) a v = (memWrite s a v).withRegs g := by simp [memWrite]
@[simp] theorem memWrite_regs (s : State) (a : Word) (v : Byte) : (memWrite s a v).regs = s.regs := by simp [memWrite]
@[simp] theorem memWrite_cyclesTotal (s : State) (a : Word) (v : Byte) :
    (memWrite s a v).cyclesTotal = s.cyclesTotal + 4 := by simp [memWrite]
@[simp] theorem memWrite_ime (s : State) (a : Word) (v : Byte) : (memWrite s a v).ime = s.ime := by simp [memWrite]
@[simp] theorem memWrite_imePending (s : State) (a : Word) (v : Byte) : (memWrite s a v).imePending = s.imePending := by
  simp [memWrite]
@[simp] theorem memWrite_halted (s : State) (a : Word) (v : Byte) : (memWrite s a v).halted = s.halted := by simp [memWrite]
@[simp] theorem memWrite_stopped (s : State) (a : Word) (v : Byte) : (memWrite s a v).stopped = s.stopped := by
  simp [memWrite]
@[simp] theorem memWrite_haltBug (s : State) (a : Word) (v : Byte) : (memWrite s a v).haltBug = s.haltBug := by
  simp [memWrite]
@[simp] theorem memWrite_bios (s : State) (a : Word) (v : Byte) : (memWrite s a v).bios = s.bios := by simp [memWrite]
@[simp] theorem memWrite_undefPolicy (s : State) (a : Word) (v : Byte) : (memWrite s a v).undefPolicy = s.undefPolicy := by
  simp [memWrite]
@[simp] theorem memWrite_cgb (s : State) (a : Word) (v : Byte) : (memWrite s a v).cgb = s.cgb := by simp [memWrite]
@[simp] theorem memWrite_mem (s : State) (a : Word) (v : Byte) : (memWrite s a v).mem = (busWrite s a v).mem := by
  simp [memWrite]

/-- A timed write leaves every cell it does not store to. -/
theorem memWrite_read_other {s : State} {a : Word} {v : Byte} {n : Nat} (h : ¬ storesTo s a n) :
    Memory.read (memWrite s a v).mem n = Memory.read s.mem n := by
  rw [memWrite_mem, busWrite_read_other h]

/-- The time of a timed write, after the bus write itself. -/
theorem DevicesMove.memWrite (s : State) (a : Word) (v : Byte) : DevicesMove 4 (busWrite s a v) (memWrite s a v) :=
  .tick 4 _

theorem ControlKept.memWrite (s : State) (a : Word) (v : Byte) : ControlKept (busWrite s a v) (memWrite s a v) :=
  .tick 4 _

/-! ### Reads -/

@[simp] theorem afterRead_withRegs (s : State) (g : Regs) (a : Word) :
    afterRead (s.withRegs g) a = (afterRead s a).withRegs g := by simp [afterRead]
@[simp] theorem afterRead_regs (s : State) (a : Word) : (afterRead s a).regs = s.regs := by simp [afterRead]
@[simp] theorem afterRead_cyclesTotal (s : State) (a : Word) : (afterRead s a).cyclesTotal = s.cyclesTotal + 4 := by
  simp [afterRead]
@[simp] theorem afterRead_ime (s : State) (a : Word) : (afterRead s a).ime = s.ime := by simp [afterRead]
@[simp] theorem afterRead_imePending (s : State) (a : Word) : (afterRead s a).imePending = s.imePending := by simp [afterRead]
@[simp] theorem afterRead_halted (s : State) (a : Word) : (afterRead s a).halted = s.halted := by simp [afterRead]
@[simp] theorem afterRead_stopped (s : State) (a : Word) : (afterRead s a).stopped = s.stopped := by simp [afterRead]
@[simp] theorem afterRead_haltBug (s : State) (a : Word) : (afterRead s a).haltBug = s.haltBug := by simp [afterRead]
@[simp] theorem afterRead_intEnable (s : State) (a : Word) : (afterRead s a).intEnable = s.intEnable := by simp [afterRead]
@[simp] theorem afterRead_mem (s : State) (a : Word) : (afterRead s a).mem = s.mem := by simp [afterRead]
@[simp] theorem afterRead_bios (s : State) (a : Word) : (afterRead s a).bios = s.bios := by simp [afterRead]
@[simp] theorem afterRead_biosEnabled (s : State) (a : Word) : (afterRead s a).biosEnabled = s.biosEnabled := by
  simp [afterRead]
@[simp] theorem afterRead_undefPolicy (s : State) (a : Word) : (afterRead s a).undefPolicy = s.undefPolicy := by
  simp [afterRead]
@[simp] theorem afterRead_cgb (s : State) (a : Word) : (afterRead s a).cgb = s.cgb := by simp [afterRead]
@[simp] theorem afterRead_extIoKind (s : State) (a : Word) : (afterRead s a).extIo.isDevice = s.extIo.isDevice := by
  simp [afterRead]
@[simp] theorem afterRead_cart (s : State) (a : Word) : (afterRead s a).cart = s.cart := by simp [afterRead]

/-- Neither the side effect of a read nor time looks at the register file or the halt bug. -/
theorem afterRead_haltBug_regs (s : State) (g : Regs) (b : Bool) (a : Word) :
    afterRead { s with regs := g, haltBug := b } a = { afterRead s a with regs := g, haltBug := b } := by
  have e : ({ readEffect s a with regs := g, haltBug := b } : State) =
      (readEffect s a).withCtl { (readEffect s a).ctl with regs := g, haltBug := b } := rfl
  unfold afterRead
  rw [readEffect_haltBug_regs, e, tick_withCtl]
  have h3 := State.withCtl_ctl (tick 4 (readEffect s a))
  rw [tick_ctl] at h3
  rw [← h3]
  rfl

/-! ### Fetch -/

theorem fetch8_eq (s : State) :
    fetch8 s = (busRead s s.regs.pc, (afterRead s s.regs.pc).withRegs { s.regs with pc := s.regs.pc + 1#16 }) := by
  simp [fetch8]

theorem State.with_haltBug_false {t : State} (h : t.haltBug = false) : { t with haltBug := false } = t := by
  cases t; simp_all

/-- The opcode fetch is the first byte and the state after it (R306). -/
theorem fetchOpcode_eq (s : State) : fetchOpcode s = (codeByte s 0, afterFetch s 1) := by
  refine Prod.ext rfl ?_
  unfold fetchOpcode afterFetch heldBack
  simp only [memRead_snd, afterRead_haltBug, afterRead_regs, State.setPc_eq, afterBytes, codeAddr]
  cases hb : s.haltBug
  · have h := State.with_haltBug_false
      (t := (afterRead s s.regs.pc).withRegs { s.regs with pc := s.regs.pc + 1#16 }) (by simp [hb])
    have hpc : s.regs.pc + BitVec.ofNat 16 1 - 0#16 = s.regs.pc + 1#16 := by bv_omega
    rw [if_neg (by decide), if_neg (by decide), hpc, ← h]
    rfl
  · have hpc : s.regs.pc + BitVec.ofNat 16 1 - 1#16 = s.regs.pc := by bv_omega
    rw [if_pos rfl, if_pos rfl, hpc]

/-- Another operand byte (R16). -/
theorem fetch8_afterFetch (s : State) (n : Nat) (hn : 0 < n) :
    fetch8 (afterFetch s n) = (codeByte s n, afterFetch s (n + 1)) := by
  obtain ⟨m, rfl⟩ : ∃ m, n = m + 1 := ⟨n - 1, by omega⟩
  have hpc : s.regs.pc + BitVec.ofNat 16 (m + 1) - heldBack s + 1#16 =
      s.regs.pc + BitVec.ofNat 16 (m + 1 + 1) - heldBack s := by
    rw [BitVec.ofNat_add (m + 1) 1]; bv_omega
  rw [fetch8_eq]
  refine Prod.ext rfl ?_
  rw [afterFetch, afterRead_haltBug_regs]
  simp only [State.withRegs, hpc]
  rfl

theorem operandBytes_le (op : Byte) : operandBytes op ≤ 2 := by
  revert op; decide +kernel

/-- S4 and the operand fetches of S5, in one: the instruction the bytes encode, and the state past them. -/
theorem fetchInstr_eq (s : State) :
    fetchInstr s = (decodeBytes (codeByte s 0) (if operandBytes (codeByte s 0) = 0 then 0#8 else codeByte s 1)
        (if operandBytes (codeByte s 0) = 2 then codeByte s 2 else 0#8),
      afterFetch s (1 + operandBytes (codeByte s 0))) := by
  have hle := operandBytes_le (codeByte s 0)
  unfold fetchInstr
  simp only [fetchOpcode_eq]
  rcases h : operandBytes (codeByte s 0) with _ | _ | _ | k
  · simp
  · simp [fetch8_afterFetch]
  · simp [fetch8_afterFetch]
  · rw [h] at hle; omega

/-! ### The stack -/

/-- `Push16` (R17): the high byte at SP - 1, then the low byte at SP - 2. -/
theorem push16_eq (s : State) (v : Word) :
    push16 s v = (memWrite (memWrite s (s.regs.sp - 1#16) (hiByte v)) (s.regs.sp - 2#16) (loByte v)).withRegs
      { s.regs with sp := s.regs.sp - 2#16 } := by
  have : s.regs.sp - 1#16 - 1#16 = s.regs.sp - 2#16 := by bv_omega
  simp [push16, push8, this]

/-- `Pop16` (R17): the low byte at SP, then the high byte at SP + 1. -/
theorem pop16_eq (s : State) :
    pop16 s = (wordOf (busRead (afterRead s s.regs.sp) (s.regs.sp + 1#16)) (busRead s s.regs.sp),
      (afterRead (afterRead s s.regs.sp) (s.regs.sp + 1#16)).withRegs { s.regs with sp := s.regs.sp + 2#16 }) := by
  have : s.regs.sp + 1#16 + 1#16 = s.regs.sp + 2#16 := by bv_omega
  simp [pop16, pop8, this]

theorem callTo_eq (s : State) (target : Word) :
    callTo s target = (memWrite (memWrite s (s.regs.sp - 1#16) (hiByte s.regs.pc)) (s.regs.sp - 2#16)
      (loByte s.regs.pc)).withRegs { s.regs with sp := s.regs.sp - 2#16, pc := target } := by
  simp [callTo, push16_eq]

theorem popPc_eq (s : State) :
    popPc s = (afterRead (afterRead s s.regs.sp) (s.regs.sp + 1#16)).withRegs
      { s.regs with sp := s.regs.sp + 2#16,
                    pc := wordOf (busRead (afterRead s s.regs.sp) (s.regs.sp + 1#16)) (busRead s s.regs.sp) } := by
  simp [popPc, pop16_eq]

/-! ### Interrupts and the step loop -/

/-- The chosen interrupt is pending, and no lower-numbered one is (R314). -/
theorem leastBit_spec {p : BitVec 5} (h : p ≠ 0#5) :
    leastBit p < 5 ∧ p.getLsbD (leastBit p) = true ∧ ∀ m < leastBit p, p.getLsbD m = false := by
  revert p; decide +kernel

theorem returnFromInterrupt_eq (s : State) :
    returnFromInterrupt s = { (tick 4 (afterRead (afterRead s s.regs.sp) (s.regs.sp + 1#16))).withRegs
      { s.regs with sp := s.regs.sp + 2#16,
                    pc := wordOf (busRead (afterRead s s.regs.sp) (s.regs.sp + 1#16)) (busRead s s.regs.sp) } with
      ime := true } := by
  have h (u : State) (g : Regs) : tick 4 { u.withRegs g with ime := true } = { (tick 4 u).withRegs g with ime := true } := by
    have e : ({ u.withRegs g with ime := true } : State) = u.withCtl { u.ctl with regs := g, ime := true } := rfl
    rw [e, tick_withCtl]
    have h3 := State.withCtl_ctl (tick 4 u)
    rw [tick_ctl] at h3
    rw [← h3]
    rfl
  rw [returnFromInterrupt, popPc_eq, h]

theorem wake_of_not_halted {s : State} (h : s.halted = false) : wake s = s := by simp [wake, h]

theorem wake_cases (s : State) : wake s = s ∨ (s.halted = true ∧ pending s ≠ 0#5 ∧ wake s = { s with halted := false }) := by
  unfold wake
  split
  · rename_i h; simp only [Bool.and_eq_true, bne_iff_ne] at h; exact .inr ⟨h.1, h.2, rfl⟩
  · exact .inl rfl

/-- S1 in one equation: a halt goes on only while nothing enabled is pending (R303). -/
theorem wake_eq (s : State) : wake s = { s with halted := s.halted && pending s == 0#5 } := by
  unfold wake
  by_cases h : s.halted = true <;> by_cases h2 : pending s = 0#5 <;> cases s <;> simp_all

/-- The table of R308. -/
theorem eiDelay_cases (s : State) :
    (s.imePending = 0 ∧ eiDelay s = s) ∨ (s.imePending = 1 ∧ eiDelay s = { s with imePending := 0, ime := true }) ∨
      (2 ≤ s.imePending ∧ eiDelay s = { s with imePending := s.imePending - 1 }) := by
  unfold eiDelay
  rcases s.imePending with _ | _ | d <;> simp

theorem undefinedOpcode_cases (op : Byte) (s : State) :
    (s.undefPolicy = .fault ∧ undefinedOpcode op s = .fault (.undefinedOpcode op s)) ∨
      (s.undefPolicy = .nop ∧ undefinedOpcode op s = .next s) := by
  unfold undefinedOpcode
  cases s.undefPolicy <;> simp

end Sys2Proof.Machine
end

