-- ==== Sys2Proof/Laws/Frames.lean ====
section
/-! SUPPORT. The frames an instruction can have, each proved once for the shared operations of Machine/Ops.lean: time and
registers alone, one byte stored, two bytes stored. -/

namespace Sys2Proof.Machine

/-- Time alone. -/
theorem OnlyTime.tick (k : Nat) (s : State) : OnlyTime k s (tick k s) where
  toControlKept := .tick k s
  toDevicesMove := .tick k s
  memory := .tick k s

/-- A new register file is no part of the frame. -/
theorem OnlyTime.withRegs {k : Nat} {s t : State} (h : OnlyTime k s t) (g : Regs) : OnlyTime k s (t.withRegs g) where
  toControlKept := ⟨h.ime, h.imePending, h.halted, h.stopped, h.haltBug, h.intEnable, h.bios, h.biosEnabled, h.undefPolicy, h.cgb,
    h.cart, h.extIo⟩
  toDevicesMove := ⟨h.cycles, h.timer, h.ppu, h.intFlags, h.dma⟩
  memory := h.memory

/-- The frame of an instruction that spends `k` T-cycles and writes registers. -/
theorem onlyTime_tick (k : Nat) (s : State) (g : Regs) : OnlyTime k s ((tick k s).withRegs g) :=
  (OnlyTime.tick k s).withRegs g

/-- The frame of an instruction that reads one byte and writes registers. -/
theorem onlyTime_read (s : State) (a : Word) (g : Regs) : OnlyTime 4 (readEffect s a) ((afterRead s a).withRegs g) :=
  onlyTime_tick 4 _ g

theorem StoredByte.withRegs {s t : State} {a : Word} {v : Byte} {k : Nat} (h : StoredByte s a v k t) (g : Regs) :
    StoredByte s a v k (t.withRegs g) where
  toControlKept := ⟨h.ime, h.imePending, h.halted, h.stopped, h.haltBug, h.intEnable, h.bios, h.biosEnabled, h.undefPolicy, h.cgb,
    h.cart, h.extIo⟩
  toDevicesMove := ⟨h.cycles, h.timer, h.ppu, h.intFlags, h.dma⟩
  frame := h.frame
  value := h.value

/-- The frame of one timed write. -/
theorem storedByte_memWrite (s : State) (a : Word) (v : Byte) : StoredByte s a v 4 (memWrite s a v) where
  toControlKept := .memWrite s a v
  toDevicesMove := .memWrite s a v
  frame := fun _ h => memWrite_read_other h
  value := fun hm _ h => by rw [memWrite_mem]; exact busWrite_read_same hm h

theorem StoredTwo.withRegs {s t : State} {a1 a2 : Word} {v1 v2 : Byte} {k : Nat} (h : StoredTwo s a1 v1 a2 v2 k t) (g : Regs) :
    StoredTwo s a1 v1 a2 v2 k (t.withRegs g) where
  toControlKept := ⟨h.ime, h.imePending, h.halted, h.stopped, h.haltBug, h.intEnable, h.bios, h.biosEnabled, h.undefPolicy, h.cgb,
    h.cart, h.extIo⟩
  toDevicesMove := ⟨h.cycles, h.timer, h.ppu, h.intFlags, h.dma⟩
  frame := h.frame
  first := h.first
  second := h.second

/-- A bus write keeps the memory image in canonical form. -/
theorem busWrite_wf {s : State} (a : Word) (v : Byte) (hm : Memory.wf s.mem = true) :
    Memory.wf (busWrite s a v).mem = true := by
  rcases busWrite_mem s a v with ⟨n, -, e⟩ | ⟨-, e⟩ | e <;> rw [e]
  · exact Memory.wf_write n v hm
  · exact Memory.wf_writeBytes _ _ hm
  · exact hm

/-- The frame of two timed writes with `k` more T-cycles. -/
theorem storedTwo_memWrite (s : State) (a1 : Word) (v1 : Byte) (a2 : Word) (v2 : Byte) (k : Nat) (hk : k % 2 = 0) :
    StoredTwo s a1 v1 a2 v2 (4 + k) (tick k (memWrite (memWrite s a1 v1) a2 v2)) := by
  have e : tick k (memWrite (memWrite s a1 v1) a2 v2) = tick (4 + k) (busWrite (memWrite s a1 v1) a2 v2) :=
    tick_tick 4 k hk _
  rw [e]
  exact {
    toControlKept := .tick _ _
    toDevicesMove := .tick _ _
    frame := fun n h1 h2 => by rw [tick_mem, busWrite_read_other h2, memWrite_read_other h1]
    first := fun hm n h1 h2 => by rw [tick_mem, busWrite_read_other h2, memWrite_mem]; exact busWrite_read_same hm h1
    second := fun hm n h => by
      rw [tick_mem]
      exact busWrite_read_same (by rw [memWrite_mem]; exact busWrite_wf _ _ hm) h }

end Sys2Proof.Machine
end

