-- ==== Sys2Proof/Laws/Exec.lean ====
section
/-! SUPPORT. What every instruction but RETI, DI, EI, HALT, STOP and the lone prefix leaves of the CPU's control state, of ROM
and of the launch parameters, and how long it takes: one lemma for `exec`. -/

namespace Sys2Proof.Machine

theorem condHolds_flags (cc : Cond) (s : State) : condHolds cc s.flags = condMet s.regs cc := by cases cc <;> rfl

/-- No bus write maps the BIOS again (R75). -/
theorem busWrite_biosEnabled {s : State} {a : Word} {v : Byte} (h : (busWrite s a v).biosEnabled = true) :
    s.biosEnabled = true := by
  revert h
  rcases busWrite_cases s a v with ⟨e, -⟩ | ⟨r, -, e⟩ | ⟨-, e⟩ | ⟨_, _, _, -, -, e⟩ <;> rw [e]
  · rcases storeByte_cases s a v with ⟨n, -, e⟩ | ⟨-, e⟩ <;> rw [e] <;> exact id
  · cases r
    case lcdc => exact fun h => (congrArg Ctl.biosEnabled ((DeviceAction.lcdcWrite v).kept s)).symm.trans h
    case ly => exact fun h => (congrArg Ctl.biosEnabled (DeviceAction.lyWrite.kept s)).symm.trans h
    case biosOff => exact fun h => absurd h (by simp [ioWrite])
    all_goals (dsimp only [ioWrite, dmaWrite]; exact id)
  · exact id
  · exact id

/-- `t` comes from `s` by time, register writes and bus writes, in `k` T-cycles. -/
structure Runs (k : Nat) (s t : State) : Prop where
  cycles : t.cyclesTotal = s.cyclesTotal + k
  policy : t.undefPolicy = s.undefPolicy
  bios : t.bios = s.bios
  overlay : t.biosEnabled = true → s.biosEnabled = true
  rom : ∀ n < 0x8000, Memory.read t.mem n = Memory.read s.mem n
  cgb : t.cgb = s.cgb
  ime : t.ime = s.ime
  imePending : t.imePending = s.imePending
  halted : t.halted = s.halted
  stopped : t.stopped = s.stopped
  haltBug : t.haltBug = s.haltBug
  cart : t.cart.romOf = s.cart.romOf
  extIo : t.extIo.isDevice = s.extIo.isDevice

theorem Runs.refl (s : State) : Runs 0 s s := ⟨rfl, rfl, rfl, id, fun _ _ => rfl, rfl, rfl, rfl, rfl, rfl, rfl, rfl, rfl⟩

theorem Runs.time {j : Nat} {s t : State} (h : Runs j s t) (k : Nat) : Runs (j + k) s (tick k t) := by
  obtain ⟨h1, h2, h3, h4, h5, h6, h7, h8, h9, h10, h11, h12, h13⟩ := h
  constructor <;> simp_all [Nat.add_assoc]

theorem Runs.regs {j : Nat} {s t : State} (h : Runs j s t) (g : Regs) : Runs j s (t.withRegs g) :=
  ⟨h.1, h.2, h.3, h.4, h.5, h.6, h.7, h.8, h.9, h.10, h.11, h.12, h.13⟩

theorem Runs.read {j : Nat} {s t : State} (h : Runs j s t) (a : Word) : Runs (j + 4) s (afterRead t a) := by
  obtain ⟨h1, h2, h3, h4, h5, h6, h7, h8, h9, h10, h11, h12, h13⟩ := h
  constructor <;> simp_all [Nat.add_assoc]

theorem Runs.write {j : Nat} {s t : State} (h : Runs j s t) (a : Word) (v : Byte) : Runs (j + 4) s (memWrite t a v) := by
  refine .time (t := busWrite t a v) ?_ 4
  obtain ⟨h1, h2, h3, h4, h5, h6, h7, h8, h9, h10, h11, h12, h13⟩ := h
  refine ⟨?_, ?_, ?_, fun hb => h4 (busWrite_biosEnabled hb), fun n hn => by rw [busWrite_rom hn, h5 n hn], ?_, ?_, ?_, ?_,
    ?_, ?_, ?_, ?_⟩ <;> simp_all

/-- Fetching `n` bytes takes 4 T-cycles a byte, uses the halt bug up and leaves the rest of the control state alone. -/
theorem Runs.bytes (s : State) (n : Nat) : Runs (4 * n) s (afterBytes s n) := by
  induction n with
  | zero => exact .refl s
  | succ n ih => exact .read ih (codeAddr s n)

theorem Runs.fetch (s : State) (n : Nat) : Runs (4 * n) { s with haltBug := false } (afterFetch s n) := by
  obtain ⟨h1, h2, h3, h4, h5, h6, h7, h8, h9, h10, -, h12, h13⟩ := Runs.bytes s n
  exact ⟨h1, h2, h3, h4, h5, h6, h7, h8, h9, h10, rfl, h12, h13⟩

/-- Every other instruction takes the time its rule gives and leaves the control state alone. -/
theorem exec_runs {i : Instr} {s t : State} (h : exec i s = .next t) (h1 : i ≠ .reti) (h2 : i ≠ .di) (h3 : i ≠ .ei)
    (h4 : i ≠ .halt) (h5 : i ≠ .stop) (h6 : i ≠ .prefixCb) :
    ∃ k, Runs k s t ∧ k + 4 * (encode i).length = costOf s.regs i := by
  cases i <;> dsimp only [exec] at h
  all_goals try contradiction
  all_goals simp only [
    execAdcAtHl, execAdcN, execAdcR, execAddAtHl, execAddHlRr, execAddN, execAddR, execAddSpE, execAndAtHl, execAndN,
    execAndR, execBitAtHl, execBitR, execCallCc, execCallNn, execCcf, execCpAtHl, execCpN, execCpR, execCpl, execDaa,
    execDecAtHl, execDecR, execDecRr, execIncAtHl, execIncR, execIncRr, execJpCc, execJpHl, execJpNn, execJrCc, execJrE,
    execLdAAtBc, execLdAAtDe, execLdAAtHld, execLdAAtHli, execLdAAtNn, execLdAtBcA, execLdAtDeA, execLdAtHlN, execLdAtHlR,
    execLdAtHldA, execLdAtHliA, execLdAtNnA, execLdAtNnSp, execLdHlSpE, execLdRAtHl, execLdRN, execLdRR, execLdRrNn,
    execLdSpHl, execLdhAAtC, execLdhAAtN, execLdhAtCA, execLdhAtNA, execNop, execOrAtHl, execOrN, execOrR, execPop,
    execPush, execResAtHl, execResR, execRet, execRetCc, execRlAtHl, execRlR, execRla, execRlcAtHl, execRlcR, execRlca,
    execRrAtHl, execRrR, execRra, execRrcAtHl, execRrcR, execRrca, execRst, execSbcAtHl, execSbcN, execSbcR, execScf,
    execSetAtHl, execSetR, execSlaAtHl, execSlaR, execSraAtHl, execSraR, execSrlAtHl, execSrlR, execSubAtHl, execSubN,
    execSubR, execSwapAtHl, execSwapR, execUndefD3, execUndefDB, execUndefDD, execUndefE3, execUndefE4, execUndefEB,
    execUndefEC, execUndefED, execUndefF4, execUndefFC, execUndefFD, execXorAtHl, execXorN, execXorR, undefinedOpcode] at h
  all_goals (try split at h)
  all_goals (try (cases h; done))
  all_goals (rw [Host.Outcome.next.injEq] at h; subst h)
  all_goals (try simp only [push16_eq, pop16_eq, callTo_eq, popPc_eq, memWrite16, loadFrom, accAtHl, modifyAtHl, rotateAcc,
    rotateReg, rotateAtHl, bitTestReg, bitTestAtHl, changeReg, changeAtHl, State.setR8_eq, State.setR16_eq,
    State.setFlags_eq, State.setPc_eq, State.setR16Stk_eq, State.setAFlags_eq, memRead_snd, memRead_fst])
  all_goals
    apply Exists.intro
    apply And.intro
    · repeat (first | with_reducible exact Runs.refl _ | with_reducible apply Runs.regs | with_reducible apply Runs.time |
        with_reducible apply Runs.read | with_reducible apply Runs.write)
    · simp [costOf, encode, imm16, cbPair, ← condHolds_flags, *]

end Sys2Proof.Machine
end

