-- ==== Sys2Proof/Laws/Video.lean ====
section
/-! SUPPORT. What each action of the PPU does to the PPU and to IF, one lemma per action, and one lemma for a whole T-cycle. -/

namespace Sys2Proof.Machine

@[simp] theorem raiseStat_ppu (n : Nat) (s : State) : (raiseStat n s).ppu = s.ppu := by unfold raiseStat; split <;> rfl
@[simp] theorem raiseStat_timer (n : Nat) (s : State) : (raiseStat n s).timer = s.timer := by unfold raiseStat; split <;> rfl
@[simp] theorem raiseStat_dma (n : Nat) (s : State) : (raiseStat n s).dmaRemaining = s.dmaRemaining := by
  unfold raiseStat; split <;> rfl
@[simp] theorem raiseStat_mem (n : Nat) (s : State) : (raiseStat n s).mem = s.mem := by unfold raiseStat; split <;> rfl
theorem raiseStat_intFlags (n : Nat) (s : State) :
    (raiseStat n s).intFlags = if statEnable s.ppu n then s.intFlags ||| 2#5 else s.intFlags := by
  unfold raiseStat; split <;> rfl

@[simp] theorem lyCompare_ppu (s : State) :
    (lyCompare s).ppu = { s.ppu with coincidence := s.ppu.ly == s.ppu.lyc } := by
  unfold lyCompare; dsimp only; split <;> simp
@[simp] theorem lyCompare_timer (s : State) : (lyCompare s).timer = s.timer := by
  unfold lyCompare; dsimp only; split <;> simp
@[simp] theorem lyCompare_dma (s : State) : (lyCompare s).dmaRemaining = s.dmaRemaining := by
  unfold lyCompare; dsimp only; split <;> simp
@[simp] theorem lyCompare_mem (s : State) : (lyCompare s).mem = s.mem := DeviceAction.lyCompare.mem s
theorem lyCompare_intFlags (s : State) :
    (lyCompare s).intFlags = if s.ppu.ly == s.ppu.lyc && statEnable s.ppu 6 then s.intFlags ||| 2#5 else s.intFlags := by
  unfold lyCompare
  dsimp only
  by_cases h : (s.ppu.ly == s.ppu.lyc) = true
  · rw [if_pos h, raiseStat_intFlags]; simp [h, statEnable]
  · rw [if_neg h]; simp [h]

@[simp] theorem enterMode2_ppu (s : State) : (enterMode2 s).ppu =
    { s.ppu with mode := .oamScan, lineSprites := spritesOfLine s.mem (spriteHeight s.ppu) s.ppu.ly.toNat } := by
  simp [enterMode2, spriteScan, spriteHeight]
@[simp] theorem enterMode2_timer (s : State) : (enterMode2 s).timer = s.timer := by simp [enterMode2, spriteScan]
@[simp] theorem enterMode2_dma (s : State) : (enterMode2 s).dmaRemaining = s.dmaRemaining := by simp [enterMode2, spriteScan]
theorem enterMode2_intFlags (s : State) :
    (enterMode2 s).intFlags = if statEnable s.ppu 5 then s.intFlags ||| 2#5 else s.intFlags := by
  simp [enterMode2, spriteScan, raiseStat_intFlags, statEnable]

@[simp] theorem enterMode3_ppu (s : State) : (enterMode3 s).ppu =
    { s.ppu with
      mode := .rendering
      framebuffer := s.ppu.framebuffer.setIfInBounds s.ppu.ly.toNat
        (renderedLine s.mem { s.ppu with mode := .rendering } s.cgb s.ppu.ly.toNat) } := rfl
@[simp] theorem enterMode3_timer (s : State) : (enterMode3 s).timer = s.timer := rfl
@[simp] theorem enterMode3_dma (s : State) : (enterMode3 s).dmaRemaining = s.dmaRemaining := rfl
@[simp] theorem enterMode3_intFlags (s : State) : (enterMode3 s).intFlags = s.intFlags := rfl

@[simp] theorem enterMode0_ppu (s : State) : (enterMode0 s).ppu = { s.ppu with mode := .hblank } := by simp [enterMode0]
@[simp] theorem enterMode0_timer (s : State) : (enterMode0 s).timer = s.timer := by simp [enterMode0]
@[simp] theorem enterMode0_dma (s : State) : (enterMode0 s).dmaRemaining = s.dmaRemaining := by simp [enterMode0]
theorem enterMode0_intFlags (s : State) :
    (enterMode0 s).intFlags = if statEnable s.ppu 3 then s.intFlags ||| 2#5 else s.intFlags := by
  simp [enterMode0, raiseStat_intFlags, statEnable]

@[simp] theorem enterVBlank_ppu (s : State) :
    (enterVBlank s).ppu = { s.ppu with mode := .vblank, frameCount := s.ppu.frameCount + 1 } := by simp [enterVBlank]
@[simp] theorem enterVBlank_timer (s : State) : (enterVBlank s).timer = s.timer := by simp [enterVBlank]
@[simp] theorem enterVBlank_dma (s : State) : (enterVBlank s).dmaRemaining = s.dmaRemaining := by simp [enterVBlank]
theorem enterVBlank_intFlags (s : State) :
    (enterVBlank s).intFlags = if statEnable s.ppu 4 then s.intFlags ||| 3#5 else s.intFlags ||| 1#5 := by
  unfold enterVBlank
  rw [raiseStat_intFlags]
  show (if statEnable s.ppu 4 = true then _ else _) = _
  cases statEnable s.ppu 4
  · rfl
  · exact BitVec.or_assoc _ _ _

theorem spritesOfLine_length (m : List Host.Cell) (h y : Nat) : (spritesOfLine m h y).length ≤ 10 := by
  unfold spritesOfLine; rw [List.length_take]; omega

/-- A PPU that starts the next line. -/
def nextLine (p : Ppu) : Ppu :=
  let ly := BitVec.ofNat 8 ((p.ly.toNat + 1) % 154)
  { p with lineCycle := 0, ly := ly, coincidence := ly == p.lyc }

theorem nextLine_ly (p : Ppu) : (nextLine p).ly.toNat = (p.ly.toNat + 1) % 154 := by
  simp only [nextLine, BitVec.toNat_ofNat]; omega

theorem nextLine_lt (p : Ppu) : (p.ly.toNat + 1) % 154 < 256 := by omega

/-- The end of a line, into VBlank, into a visible line, or within VBlank (R385). -/
theorem endOfLine_eq (s : State) :
    (endOfLine s).ppu =
      (if (s.ppu.ly.toNat + 1) % 154 = 144 then
        { nextLine s.ppu with mode := .vblank, frameCount := s.ppu.frameCount + 1 }
      else if (s.ppu.ly.toNat + 1) % 154 < 144 then
        { nextLine s.ppu with
          mode := .oamScan
          lineSprites := spritesOfLine s.mem (spriteHeight s.ppu) ((s.ppu.ly.toNat + 1) % 154) }
      else nextLine s.ppu) ∧ (endOfLine s).timer = s.timer ∧ (endOfLine s).dmaRemaining = s.dmaRemaining := by
  have hly : (BitVec.ofNat 8 ((s.ppu.ly.toNat + 1) % 154)).toNat = (s.ppu.ly.toNat + 1) % 154 := by
    simp only [BitVec.toNat_ofNat]; omega
  unfold endOfLine
  simp only [lyCompare_ppu, frameLines, visibleLines, hly]
  split
  · simp [nextLine]
  · split
    · simp [nextLine, hly, spriteHeight]
    · simp [nextLine]

/-- One T-cycle of the PPU, LCD on: the end of a line, the two events inside a visible line, or nothing but the count. -/
theorem ppuTick_cases (s : State) (hon : lcdOn s.ppu = true) :
    (s.ppu.lineCycle + 1 = 456 ∧
      ppuTick s = endOfLine { s with ppu := { s.ppu with lineCycle := s.ppu.lineCycle + 1 } }) ∨
    (s.ppu.ly.toNat < 144 ∧ s.ppu.lineCycle + 1 = 80 ∧
      ppuTick s = enterMode3 { s with ppu := { s.ppu with lineCycle := s.ppu.lineCycle + 1 } }) ∨
    (s.ppu.ly.toNat < 144 ∧ s.ppu.lineCycle + 1 = 252 ∧
      ppuTick s = enterMode0 { s with ppu := { s.ppu with lineCycle := s.ppu.lineCycle + 1 } }) ∨
    (s.ppu.lineCycle + 1 ≠ 456 ∧ ¬ (s.ppu.ly.toNat < 144 ∧ (s.ppu.lineCycle + 1 = 80 ∨ s.ppu.lineCycle + 1 = 252)) ∧
      ppuTick s = { s with ppu := { s.ppu with lineCycle := s.ppu.lineCycle + 1 } }) := by
  have e : ppuTick s = lineEvent { s with ppu := { s.ppu with lineCycle := s.ppu.lineCycle + 1 } } := if_pos hon
  rw [e]
  unfold lineEvent
  by_cases h1 : s.ppu.lineCycle + 1 = 456
  · exact .inl ⟨h1, if_pos h1⟩
  · refine .inr ?_
    rw [if_neg (show ¬ _ = lineCycles from h1)]
    by_cases h2 : s.ppu.ly.toNat < 144 ∧ s.ppu.lineCycle + 1 = 80
    · exact .inl ⟨h2.1, h2.2, if_pos h2⟩
    · refine .inr ?_
      rw [if_neg (show ¬ (_ < visibleLines ∧ _ = scanCycles) from h2)]
      by_cases h3 : s.ppu.ly.toNat < 144 ∧ s.ppu.lineCycle + 1 = 252
      · exact .inl ⟨h3.1, h3.2, if_pos h3⟩
      · exact .inr ⟨h1, by tauto, if_neg h3⟩

theorem ppuTick_off {s : State} (hoff : lcdOn s.ppu = false) : ppuTick s = s := by
  unfold ppuTick; rw [if_neg (by simp [hoff])]

@[simp] theorem ppuTick_timer (s : State) : (ppuTick s).timer = s.timer := by
  cases hon : lcdOn s.ppu
  · rw [ppuTick_off hon]
  · rcases ppuTick_cases s hon with ⟨-, e⟩ | ⟨-, -, e⟩ | ⟨-, -, e⟩ | ⟨-, -, e⟩ <;> rw [e]
    · exact (endOfLine_eq _).2.1
    · rfl
    · simp

@[simp] theorem ppuTick_dma (s : State) : (ppuTick s).dmaRemaining = s.dmaRemaining := by
  cases hon : lcdOn s.ppu
  · rw [ppuTick_off hon]
  · rcases ppuTick_cases s hon with ⟨-, e⟩ | ⟨-, -, e⟩ | ⟨-, -, e⟩ | ⟨-, -, e⟩ <;> rw [e]
    · exact (endOfLine_eq _).2.2
    · rfl
    · simp

/-- The control registers of the PPU are no device's to change. -/
theorem ppuTick_lcdc (s : State) : (ppuTick s).ppu.lcdc = s.ppu.lcdc := by
  cases hon : lcdOn s.ppu
  · rw [ppuTick_off hon]
  · rcases ppuTick_cases s hon with ⟨-, e⟩ | ⟨-, -, e⟩ | ⟨-, -, e⟩ | ⟨-, -, e⟩ <;> rw [e]
    · rw [(endOfLine_eq _).1]; split_ifs <;> rfl
    · rfl
    · simp

end Sys2Proof.Machine
end

