-- ==== Sys2Proof/Laws/Inv.lean ====
section
/-! SUPPORT. The invariant, operation by operation: time, bus writes, register writes and interrupt flags keep it. -/

namespace Sys2Proof.Machine

/-- The PPU's part of the invariant. -/
def PpuInv (p : Ppu) : Prop := PpuRanges p ∧ FrozenRule p ∧ ModeByPositionOrLyWrite p

theorem State.inv_iff (s : State) :
    s.Inv ↔ CpuInv s ∧ s.timer.timaDelay ≤ 4 ∧ s.dmaRemaining ≤ 640 ∧ PpuInv s.ppu ∧ MemInv s := by
  unfold State.Inv PpuInv; tauto

/-! ### The PPU -/

/-- The position after one T-cycle (R385). -/
theorem ppuTick_position (s : State) (hon : lcdOn s.ppu = true) :
    ((ppuTick s).ppu.ly.toNat, (ppuTick s).ppu.lineCycle) =
      if s.ppu.lineCycle + 1 = 456 then ((s.ppu.ly.toNat + 1) % 154, 0) else (s.ppu.ly.toNat, s.ppu.lineCycle + 1) := by
  have hly := nextLine_ly s.ppu
  rcases ppuTick_cases s hon with ⟨h1, e⟩ | ⟨-, h1, e⟩ | ⟨-, h1, e⟩ | ⟨h1, -, e⟩ <;> rw [e]
  · rw [if_pos h1, (endOfLine_eq _).1]
    have : nextLine { s.ppu with lineCycle := s.ppu.lineCycle + 1 } = nextLine s.ppu := rfl
    dsimp only
    rw [this]
    split_ifs <;> exact Prod.ext hly rfl
  · rw [if_neg (by omega)]; rfl
  · rw [if_neg (by omega)]; simp
  · rw [if_neg h1]

/-- The mode after one T-cycle: as the position says, or as before where no event came (R385, R386). -/
theorem ppuTick_mode (s : State) (hon : lcdOn s.ppu = true) (hc : s.ppu.lineCycle ≤ 455) (hly : s.ppu.ly.toNat ≤ 153) :
    (ppuTick s).ppu.mode = modeAt (ppuTick s).ppu.ly.toNat (ppuTick s).ppu.lineCycle ∨
      ((ppuTick s).ppu.mode = s.ppu.mode ∧ (ppuTick s).ppu.ly = s.ppu.ly ∧
        (ppuTick s).ppu.lineCycle = s.ppu.lineCycle + 1 ∧ s.ppu.lineCycle + 1 < 456 ∧
        modeAt s.ppu.ly.toNat (s.ppu.lineCycle + 1) = modeAt s.ppu.ly.toNat s.ppu.lineCycle) ∨
      ((ppuTick s).ppu.mode = s.ppu.mode ∧ 144 ≤ s.ppu.ly.toNat ∧ 144 ≤ (ppuTick s).ppu.ly.toNat) := by
  have hpos := ppuTick_position s hon
  rcases ppuTick_cases s hon with ⟨h1, e⟩ | ⟨h0, h1, e⟩ | ⟨h0, h1, e⟩ | ⟨h1, h2, e⟩
  · rw [if_pos h1] at hpos
    obtain ⟨hl, hcc⟩ := Prod.mk.inj hpos
    rw [hl, hcc]
    have hm := congrArg State.ppu e
    rw [(endOfLine_eq _).1] at hm
    dsimp only at hm
    by_cases ha : (s.ppu.ly.toNat + 1) % 154 = 144
    · rw [if_pos ha] at hm
      left; rw [hm, ha]; rfl
    · by_cases hb : (s.ppu.ly.toNat + 1) % 154 < 144
      · rw [if_neg ha, if_pos hb] at hm
        left; rw [hm, modeAt, if_neg (by omega), if_pos (by omega)]
      · rw [if_neg ha, if_neg hb] at hm
        right; right
        refine ⟨?_, by omega, by omega⟩
        rw [hm]; rfl
  · rw [if_neg (by omega)] at hpos
    obtain ⟨hl, hcc⟩ := Prod.mk.inj hpos
    left
    rw [hl, hcc, e, h1, modeAt, if_neg (by omega)]
    rfl
  · rw [if_neg (by omega)] at hpos
    obtain ⟨hl, hcc⟩ := Prod.mk.inj hpos
    left
    rw [hl, hcc, e, h1, modeAt, if_neg (by omega)]
    simp
  · right; left
    rw [e]
    refine ⟨rfl, rfl, rfl, by omega, ?_⟩
    unfold modeAt
    split_ifs <;> first | rfl | omega

theorem ppuTick_sprites {s : State} (h : s.ppu.lineSprites.length ≤ 10) : (ppuTick s).ppu.lineSprites.length ≤ 10 := by
  cases hon : lcdOn s.ppu
  · rwa [ppuTick_off hon]
  · rcases ppuTick_cases s hon with ⟨-, e⟩ | ⟨-, -, e⟩ | ⟨-, -, e⟩ | ⟨-, -, e⟩ <;> rw [e]
    · rw [(endOfLine_eq _).1]
      split_ifs
      · exact h
      · exact spritesOfLine_length _ _ _
      · exact h
    · exact h
    · simpa using h
    · exact h

theorem ppuTick_lcdOn (s : State) : lcdOn (ppuTick s).ppu = lcdOn s.ppu := by
  unfold lcdOn; rw [ppuTick_lcdc]

theorem ppuTick_ranges {s : State} (h : PpuRanges s.ppu) : PpuRanges (ppuTick s).ppu := by
  cases hon : lcdOn s.ppu
  · rwa [ppuTick_off hon]
  · have hpos := ppuTick_position s hon
    obtain ⟨h1, h2, h3⟩ := h
    have hs := ppuTick_sprites (s := s) h3
    split at hpos <;> (obtain ⟨hl, hc⟩ := Prod.mk.inj hpos; exact ⟨by omega, by omega, hs⟩)

theorem ppuTick_frozen {s : State} (h : FrozenRule s.ppu) : FrozenRule (ppuTick s).ppu := by
  intro hoff
  rw [ppuTick_lcdOn] at hoff
  rw [ppuTick_off hoff]
  exact h hoff

/-- In step with its position, the mode stays so (R386, R408). -/
theorem ppuTick_modeByPosition {s : State} (hr : PpuRanges s.ppu) (h : ModeByPosition s.ppu) :
    ModeByPosition (ppuTick s).ppu := by
  intro hon
  rw [ppuTick_lcdOn] at hon
  rcases ppuTick_mode s hon hr.2.1 hr.1 with hm | ⟨hm, hl, hc, -, hq⟩ | ⟨hm, h1, h2⟩
  · exact hm
  · rw [hm, hl, hc, hq, h hon]
  · rw [hm, h hon, modeAt, modeAt, if_pos h1, if_pos h2]

theorem ppuTick_inv {s : State} (h : PpuInv s.ppu) : PpuInv (ppuTick s).ppu := by
  obtain ⟨hr, hf, hm⟩ := h
  refine ⟨ppuTick_ranges hr, ppuTick_frozen hf, fun hon => ?_⟩
  rw [ppuTick_lcdOn] at hon
  rcases ppuTick_mode s hon hr.2.1 hr.1 with h1 | ⟨h1, hl, hc, -, hq⟩ | ⟨h1, h2, h3⟩
  · exact .inl h1
  · rcases hm hon with h | ⟨h, h0⟩
    · left; rw [h1, hl, hc, hq, h]
    · right; rw [h1, hl]; exact ⟨h, h0⟩
  · rcases hm hon with h | ⟨h, h0⟩
    · left; rw [h1, h, modeAt, modeAt, if_pos h2, if_pos h3]
    · rw [h0] at h2; exact absurd h2 (by decide)

/-! ### The timer and a T-cycle -/

theorem edgeTick_delay {old : BitVec 16} {t : Timer} (h : t.timaDelay ≤ 4) : (edgeTick old t).timaDelay ≤ 4 := by
  unfold edgeTick incTima
  split_ifs <;> first | exact h | exact Nat.le_refl _

theorem reloadTick_delay {s : State} (h : s.timer.timaDelay ≤ 4) : (reloadTick s).timer.timaDelay ≤ 4 := by
  unfold reloadTick
  split
  · exact h
  · exact Nat.zero_le _
  · dsimp only; omega

theorem timerTick_delay {s : State} (h : s.timer.timaDelay ≤ 4) : (timerTick s).timer.timaDelay ≤ 4 :=
  edgeTick_delay (reloadTick_delay h)

@[simp] theorem reloadTick_ppu (s : State) : (reloadTick s).ppu = s.ppu := by unfold reloadTick; split <;> rfl
@[simp] theorem reloadTick_dma (s : State) : (reloadTick s).dmaRemaining = s.dmaRemaining := by
  unfold reloadTick; split <;> rfl
@[simp] theorem timerTick_ppu (s : State) : (timerTick s).ppu = s.ppu := by simp [timerTick]
@[simp] theorem timerTick_dma (s : State) : (timerTick s).dmaRemaining = s.dmaRemaining := by simp [timerTick]

/-- What a device action that keeps the devices' part keeps of the whole. -/
theorem DeviceAction.inv {f : State → State} (hf : DeviceAction f) {s : State} (h : s.Inv)
    (ht : (f s).timer.timaDelay ≤ 4) (hd : (f s).dmaRemaining ≤ 640) (hp : PpuInv (f s).ppu) : (f s).Inv := by
  rw [State.inv_iff] at h ⊢
  have hk := hf.kept s
  have h1 : (f s).regs = s.regs := congrArg Ctl.regs hk
  have h2 : (f s).imePending = s.imePending := congrArg Ctl.imePending hk
  have h3 : (f s).bios = s.bios := congrArg Ctl.bios hk
  refine ⟨?_, ht, hd, hp, ?_⟩
  · rw [CpuInv, h1, h2]; exact h.1
  · rw [MemInv, hf.mem, h3]; exact h.2.2.2.2

theorem tCycle_inv {s : State} (left : Nat) (h : s.Inv) : (tCycle s left).Inv := by
  have h0 := (State.inv_iff s).1 h
  refine (DeviceAction.tCycle left).inv h ?_ ?_ ?_ <;> unfold tCycle dmaTick <;> dsimp only
  · split
    · rw [ppuTick_timer]; exact timerTick_delay h0.2.1
    · exact timerTick_delay h0.2.1
  · have := h0.2.2.1
    split
    · rw [ppuTick_dma, timerTick_dma]; omega
    · rw [timerTick_dma]; omega
  · have hp : PpuInv (timerTick s).ppu := by rw [timerTick_ppu]; exact h0.2.2.2.1
    split
    · exact ppuTick_inv hp
    · exact hp

/-- Time keeps the invariant. -/
theorem tick_inv {s : State} (k : Nat) (h : s.Inv) : (tick k s).Inv := by
  have hk : ∀ (k : Nat) {s : State}, s.Inv → (tCycles k s).Inv := by
    intro k
    induction k with
    | zero => exact id
    | succ k ih => exact fun h => ih (tCycle_inv k h)
  exact hk k h

/-! ### Bus writes -/

theorem lyWrite_ppuInv {s : State} (h : PpuInv s.ppu) : PpuInv (lyWrite s).ppu := by
  obtain ⟨⟨h1, h2, h3⟩, hf, hm⟩ := h
  have e : (lyWrite s).ppu = { s.ppu with ly := 0#8, coincidence := 0#8 == s.ppu.lyc } := by simp [lyWrite]
  rw [e]
  refine ⟨⟨by simp, h2, h3⟩, fun hoff => ?_, fun hon => ?_⟩
  · obtain ⟨a, -, c⟩ := hf hoff; exact ⟨a, rfl, c⟩
  · rcases hm hon with h | ⟨h, -⟩
    · by_cases hv : 144 ≤ s.ppu.ly.toNat
      · right; exact ⟨by show s.ppu.mode = _; rw [h, modeAt, if_pos hv], rfl⟩
      · left
        show s.ppu.mode = modeAt 0 s.ppu.lineCycle
        rw [h]
        unfold modeAt
        rw [if_neg hv, if_neg (show ¬ 144 ≤ 0 by omega)]
    · right; exact ⟨h, rfl⟩

theorem lcdcWrite_ppuInv {s : State} (v : Byte) (h : PpuInv s.ppu) : PpuInv (lcdcWrite s v).ppu := by
  obtain ⟨⟨h1, h2, h3⟩, hf, hm⟩ := h
  unfold lcdcWrite
  dsimp only
  split
  · rename_i hc
    simp only [Bool.and_eq_true, Bool.not_eq_true'] at hc
    rw [lyCompare_ppu]
    refine ⟨⟨by simp, by simp, h3⟩, fun _ => ⟨rfl, rfl, rfl⟩, fun hon => ?_⟩
    have h7 : v.getLsbD 7 = true := hon
    rw [hc.2] at h7
    cases h7
  · split
    · rename_i hc
      simp only [Bool.and_eq_true, Bool.not_eq_true'] at hc
      rw [enterMode2_ppu, lyCompare_ppu]
      refine ⟨⟨by simp, by simp, spritesOfLine_length _ _ _⟩, fun hoff => ?_, fun _ => .inl rfl⟩
      have h7 : v.getLsbD 7 = false := hoff
      rw [hc.2] at h7
      cases h7
    · rename_i hc1 hc2
      have he : lcdOn { s.ppu with lcdc := v } = lcdOn s.ppu := by
        revert hc1 hc2; unfold lcdOn; dsimp only
        cases s.ppu.lcdc.getLsbD 7 <;> cases v.getLsbD 7 <;> simp
      exact ⟨⟨h1, h2, h3⟩, fun hoff => hf (he ▸ hoff), fun hon => hm (he ▸ hon)⟩

theorem ioWrite_devices (s : State) (r : IoReg) (v : Byte) (h : s.Inv) :
    (ioWrite s r v).timer.timaDelay ≤ 4 ∧ (ioWrite s r v).dmaRemaining ≤ 640 ∧ PpuInv (ioWrite s r v).ppu := by
  obtain ⟨-, ht, hd, hp, -⟩ := (State.inv_iff s).1 h
  cases r
  case div =>
    refine ⟨?_, hd, hp⟩
    show (divWrite s.timer).timaDelay ≤ 4
    exact edgeTick_delay ht
  case tima => exact ⟨Nat.zero_le _, hd, hp⟩
  case lcdc =>
    refine ⟨?_, ?_, lcdcWrite_ppuInv v hp⟩
    · have : (lcdcWrite s v).timer = s.timer := by unfold lcdcWrite; dsimp only; split_ifs <;> simp
      show (lcdcWrite s v).timer.timaDelay ≤ 4
      rw [this]; exact ht
    · have : (lcdcWrite s v).dmaRemaining = s.dmaRemaining := by unfold lcdcWrite; dsimp only; split_ifs <;> simp
      show (lcdcWrite s v).dmaRemaining ≤ 640
      rw [this]; exact hd
  case ly =>
    refine ⟨?_, ?_, lyWrite_ppuInv hp⟩
    · show (lyWrite s).timer.timaDelay ≤ 4
      simpa [lyWrite] using ht
    · show (lyWrite s).dmaRemaining ≤ 640
      simpa [lyWrite] using hd
  case dma =>
    dsimp only [ioWrite, dmaWrite]
    exact ⟨ht, Nat.le_refl _, hp⟩
  all_goals
    dsimp only [ioWrite]
    exact ⟨ht, hd, hp⟩

/-- A bus write keeps the invariant. -/
theorem busWrite_inv {s : State} (a : Word) (v : Byte) (h : s.Inv) : (busWrite s a v).Inv := by
  have h0 := (State.inv_iff s).1 h
  rw [State.inv_iff]
  refine ⟨?_, ?_⟩
  · rw [CpuInv, busWrite_regs, busWrite_imePending]; exact h0.1
  · have hd : (busWrite s a v).timer.timaDelay ≤ 4 ∧ (busWrite s a v).dmaRemaining ≤ 640 ∧ PpuInv (busWrite s a v).ppu := by
      rcases busWrite_cases s a v with ⟨e, -⟩ | ⟨r, -, e⟩ | ⟨-, e⟩ | ⟨_, _, _, -, -, e⟩ <;> rw [e]
      · rcases storeByte_cases s a v with ⟨n, -, e⟩ | ⟨-, e⟩ <;> rw [e]
        · exact ⟨h0.2.1, h0.2.2.1, h0.2.2.2.1⟩
        · exact ⟨h0.2.1, h0.2.2.1, h0.2.2.2.1⟩
      · exact ioWrite_devices s r v h
      · exact ⟨h0.2.1, h0.2.2.1, h0.2.2.2.1⟩
      · exact ⟨h0.2.1, h0.2.2.1, h0.2.2.2.1⟩
    exact ⟨hd.1, hd.2.1, hd.2.2, busWrite_memInv a v h0.2.2.2.2⟩

/-- The side effect of a read keeps it, and so does an event of an EXT_IO device. -/
theorem readEffect_inv {s : State} (a : Word) (h : s.Inv) : (readEffect s a).Inv := by
  obtain ⟨_, _, -, e⟩ := readEffect_cases s a; rw [e]; exact h

theorem extIoEvent_inv {s : State} (n : Nat) (flags : BitVec 5) (h : s.Inv) : (extIoEvent s n flags).Inv := by
  unfold extIoEvent; split <;> exact h

theorem afterRead_inv {s : State} (a : Word) (h : s.Inv) : (afterRead s a).Inv := tick_inv 4 (readEffect_inv a h)

theorem memWrite_inv {s : State} (a : Word) (v : Byte) (h : s.Inv) : (memWrite s a v).Inv := tick_inv 4 (busWrite_inv a v h)

/-! ### The CPU -/

/-- Another register file keeps the invariant when its F has a clear low nibble. -/
theorem withRegs_inv {s : State} {g : Regs} (h : s.Inv) (hf : g.f &&& 0x0F#8 = 0#8) : (s.withRegs g).Inv := by
  rw [State.inv_iff] at h ⊢
  exact ⟨⟨hf, h.1.2⟩, h.2⟩

theorem setF_low (g : Regs) (v : Byte) : (g.setF v).f &&& 0x0F#8 = 0#8 := by
  show v &&& 0xF0#8 &&& 0x0F#8 = 0#8
  rw [BitVec.and_assoc]; simp

theorem raise_inv {s : State} (n : Nat) (h : s.Inv) : (s.raise n).Inv := h

theorem eiDelay_inv {s : State} (h : s.Inv) : (eiDelay s).Inv := by
  have h0 := (State.inv_iff s).1 h
  rcases eiDelay_cases s with ⟨-, e⟩ | ⟨-, e⟩ | ⟨-, e⟩ <;> rw [e]
  · exact h
  · rw [State.inv_iff]; exact ⟨⟨h0.1.1, by simp⟩, h0.2⟩
  · rw [State.inv_iff]; exact ⟨⟨h0.1.1, by have := h0.1.2; dsimp only; omega⟩, h0.2⟩

end Sys2Proof.Machine
end

