-- ==== Sys2Proof/Laws/PerInstr.lean ====
section
/-! SUPPORT. Facts about every instruction as syntax, one lemma per constructor. Family `EncodeLength`: an instruction's bytes
are its opcode byte and as many more as that byte alone says (spec/30_encoding.md R100, R109); the prefix by itself is the
one exception (log entry 7). -/

namespace Sys2Proof.Laws.EncodeLength

/-- The bytes after the first are as many as the first byte says. -/
def Statement (i : Instr) : Prop :=
  ∃ op rest, encode i = op :: rest ∧ (rest.length = operandBytes op ∨ (i = .prefixCb ∧ rest = []))

theorem ldRR (dst : R8) (src : R8) : Statement (.ldRR dst src) := by
  cases dst <;> cases src <;> exact ⟨_, _, rfl, .inl rfl⟩
theorem ldRN (dst : R8) (n : Byte) : Statement (.ldRN dst n) := by
  cases dst <;> exact ⟨_, _, rfl, .inl rfl⟩
theorem ldRAtHl (dst : R8) : Statement (.ldRAtHl dst) := by
  cases dst <;> exact ⟨_, _, rfl, .inl rfl⟩
theorem ldAtHlR (src : R8) : Statement (.ldAtHlR src) := by
  cases src <;> exact ⟨_, _, rfl, .inl rfl⟩
theorem ldAtHlN (n : Byte) : Statement (.ldAtHlN n) := ⟨_, _, rfl, .inl rfl⟩
theorem ldAAtBc : Statement .ldAAtBc := ⟨_, _, rfl, .inl rfl⟩
theorem ldAAtDe : Statement .ldAAtDe := ⟨_, _, rfl, .inl rfl⟩
theorem ldAtBcA : Statement .ldAtBcA := ⟨_, _, rfl, .inl rfl⟩
theorem ldAtDeA : Statement .ldAtDeA := ⟨_, _, rfl, .inl rfl⟩
theorem ldAAtNn (nn : Word) : Statement (.ldAAtNn nn) := ⟨_, _, rfl, .inl rfl⟩
theorem ldAtNnA (nn : Word) : Statement (.ldAtNnA nn) := ⟨_, _, rfl, .inl rfl⟩
theorem ldhAAtC : Statement .ldhAAtC := ⟨_, _, rfl, .inl rfl⟩
theorem ldhAtCA : Statement .ldhAtCA := ⟨_, _, rfl, .inl rfl⟩
theorem ldhAAtN (n : Byte) : Statement (.ldhAAtN n) := ⟨_, _, rfl, .inl rfl⟩
theorem ldhAtNA (n : Byte) : Statement (.ldhAtNA n) := ⟨_, _, rfl, .inl rfl⟩
theorem ldAtHliA : Statement .ldAtHliA := ⟨_, _, rfl, .inl rfl⟩
theorem ldAAtHli : Statement .ldAAtHli := ⟨_, _, rfl, .inl rfl⟩
theorem ldAtHldA : Statement .ldAtHldA := ⟨_, _, rfl, .inl rfl⟩
theorem ldAAtHld : Statement .ldAAtHld := ⟨_, _, rfl, .inl rfl⟩
theorem ldRrNn (dst : R16) (nn : Word) : Statement (.ldRrNn dst nn) := by
  cases dst <;> exact ⟨_, _, rfl, .inl rfl⟩
theorem ldAtNnSp (nn : Word) : Statement (.ldAtNnSp nn) := ⟨_, _, rfl, .inl rfl⟩
theorem ldSpHl : Statement .ldSpHl := ⟨_, _, rfl, .inl rfl⟩
theorem ldHlSpE (e : Byte) : Statement (.ldHlSpE e) := ⟨_, _, rfl, .inl rfl⟩
theorem push (src : R16Stk) : Statement (.push src) := by
  cases src <;> exact ⟨_, _, rfl, .inl rfl⟩
theorem pop (dst : R16Stk) : Statement (.pop dst) := by
  cases dst <;> exact ⟨_, _, rfl, .inl rfl⟩
theorem addR (src : R8) : Statement (.addR src) := by
  cases src <;> exact ⟨_, _, rfl, .inl rfl⟩
theorem addAtHl : Statement .addAtHl := ⟨_, _, rfl, .inl rfl⟩
theorem addN (n : Byte) : Statement (.addN n) := ⟨_, _, rfl, .inl rfl⟩
theorem adcR (src : R8) : Statement (.adcR src) := by
  cases src <;> exact ⟨_, _, rfl, .inl rfl⟩
theorem adcAtHl : Statement .adcAtHl := ⟨_, _, rfl, .inl rfl⟩
theorem adcN (n : Byte) : Statement (.adcN n) := ⟨_, _, rfl, .inl rfl⟩
theorem subR (src : R8) : Statement (.subR src) := by
  cases src <;> exact ⟨_, _, rfl, .inl rfl⟩
theorem subAtHl : Statement .subAtHl := ⟨_, _, rfl, .inl rfl⟩
theorem subN (n : Byte) : Statement (.subN n) := ⟨_, _, rfl, .inl rfl⟩
theorem sbcR (src : R8) : Statement (.sbcR src) := by
  cases src <;> exact ⟨_, _, rfl, .inl rfl⟩
theorem sbcAtHl : Statement .sbcAtHl := ⟨_, _, rfl, .inl rfl⟩
theorem sbcN (n : Byte) : Statement (.sbcN n) := ⟨_, _, rfl, .inl rfl⟩
theorem andR (src : R8) : Statement (.andR src) := by
  cases src <;> exact ⟨_, _, rfl, .inl rfl⟩
theorem andAtHl : Statement .andAtHl := ⟨_, _, rfl, .inl rfl⟩
theorem andN (n : Byte) : Statement (.andN n) := ⟨_, _, rfl, .inl rfl⟩
theorem xorR (src : R8) : Statement (.xorR src) := by
  cases src <;> exact ⟨_, _, rfl, .inl rfl⟩
theorem xorAtHl : Statement .xorAtHl := ⟨_, _, rfl, .inl rfl⟩
theorem xorN (n : Byte) : Statement (.xorN n) := ⟨_, _, rfl, .inl rfl⟩
theorem orR (src : R8) : Statement (.orR src) := by
  cases src <;> exact ⟨_, _, rfl, .inl rfl⟩
theorem orAtHl : Statement .orAtHl := ⟨_, _, rfl, .inl rfl⟩
theorem orN (n : Byte) : Statement (.orN n) := ⟨_, _, rfl, .inl rfl⟩
theorem cpR (src : R8) : Statement (.cpR src) := by
  cases src <;> exact ⟨_, _, rfl, .inl rfl⟩
theorem cpAtHl : Statement .cpAtHl := ⟨_, _, rfl, .inl rfl⟩
theorem cpN (n : Byte) : Statement (.cpN n) := ⟨_, _, rfl, .inl rfl⟩
theorem incR (dst : R8) : Statement (.incR dst) := by
  cases dst <;> exact ⟨_, _, rfl, .inl rfl⟩
theorem incAtHl : Statement .incAtHl := ⟨_, _, rfl, .inl rfl⟩
theorem decR (dst : R8) : Statement (.decR dst) := by
  cases dst <;> exact ⟨_, _, rfl, .inl rfl⟩
theorem decAtHl : Statement .decAtHl := ⟨_, _, rfl, .inl rfl⟩
theorem daa : Statement .daa := ⟨_, _, rfl, .inl rfl⟩
theorem cpl : Statement .cpl := ⟨_, _, rfl, .inl rfl⟩
theorem scf : Statement .scf := ⟨_, _, rfl, .inl rfl⟩
theorem ccf : Statement .ccf := ⟨_, _, rfl, .inl rfl⟩
theorem addHlRr (src : R16) : Statement (.addHlRr src) := by
  cases src <;> exact ⟨_, _, rfl, .inl rfl⟩
theorem incRr (dst : R16) : Statement (.incRr dst) := by
  cases dst <;> exact ⟨_, _, rfl, .inl rfl⟩
theorem decRr (dst : R16) : Statement (.decRr dst) := by
  cases dst <;> exact ⟨_, _, rfl, .inl rfl⟩
theorem addSpE (e : Byte) : Statement (.addSpE e) := ⟨_, _, rfl, .inl rfl⟩
theorem rlca : Statement .rlca := ⟨_, _, rfl, .inl rfl⟩
theorem rrca : Statement .rrca := ⟨_, _, rfl, .inl rfl⟩
theorem rla : Statement .rla := ⟨_, _, rfl, .inl rfl⟩
theorem rra : Statement .rra := ⟨_, _, rfl, .inl rfl⟩
theorem rlcR (dst : R8) : Statement (.rlcR dst) := ⟨_, _, rfl, .inl rfl⟩
theorem rlcAtHl : Statement .rlcAtHl := ⟨_, _, rfl, .inl rfl⟩
theorem rrcR (dst : R8) : Statement (.rrcR dst) := ⟨_, _, rfl, .inl rfl⟩
theorem rrcAtHl : Statement .rrcAtHl := ⟨_, _, rfl, .inl rfl⟩
theorem rlR (dst : R8) : Statement (.rlR dst) := ⟨_, _, rfl, .inl rfl⟩
theorem rlAtHl : Statement .rlAtHl := ⟨_, _, rfl, .inl rfl⟩
theorem rrR (dst : R8) : Statement (.rrR dst) := ⟨_, _, rfl, .inl rfl⟩
theorem rrAtHl : Statement .rrAtHl := ⟨_, _, rfl, .inl rfl⟩
theorem slaR (dst : R8) : Statement (.slaR dst) := ⟨_, _, rfl, .inl rfl⟩
theorem slaAtHl : Statement .slaAtHl := ⟨_, _, rfl, .inl rfl⟩
theorem sraR (dst : R8) : Statement (.sraR dst) := ⟨_, _, rfl, .inl rfl⟩
theorem sraAtHl : Statement .sraAtHl := ⟨_, _, rfl, .inl rfl⟩
theorem swapR (dst : R8) : Statement (.swapR dst) := ⟨_, _, rfl, .inl rfl⟩
theorem swapAtHl : Statement .swapAtHl := ⟨_, _, rfl, .inl rfl⟩
theorem srlR (dst : R8) : Statement (.srlR dst) := ⟨_, _, rfl, .inl rfl⟩
theorem srlAtHl : Statement .srlAtHl := ⟨_, _, rfl, .inl rfl⟩
theorem bitR (b : Fin 8) (src : R8) : Statement (.bitR b src) := ⟨_, _, rfl, .inl rfl⟩
theorem bitAtHl (b : Fin 8) : Statement (.bitAtHl b) := ⟨_, _, rfl, .inl rfl⟩
theorem resR (b : Fin 8) (dst : R8) : Statement (.resR b dst) := ⟨_, _, rfl, .inl rfl⟩
theorem resAtHl (b : Fin 8) : Statement (.resAtHl b) := ⟨_, _, rfl, .inl rfl⟩
theorem setR (b : Fin 8) (dst : R8) : Statement (.setR b dst) := ⟨_, _, rfl, .inl rfl⟩
theorem setAtHl (b : Fin 8) : Statement (.setAtHl b) := ⟨_, _, rfl, .inl rfl⟩
theorem jpNn (nn : Word) : Statement (.jpNn nn) := ⟨_, _, rfl, .inl rfl⟩
theorem jpCc (cc : Cond) (nn : Word) : Statement (.jpCc cc nn) := by
  cases cc <;> exact ⟨_, _, rfl, .inl rfl⟩
theorem jpHl : Statement .jpHl := ⟨_, _, rfl, .inl rfl⟩
theorem jrE (e : Byte) : Statement (.jrE e) := ⟨_, _, rfl, .inl rfl⟩
theorem jrCc (cc : Cond) (e : Byte) : Statement (.jrCc cc e) := by
  cases cc <;> exact ⟨_, _, rfl, .inl rfl⟩
theorem callNn (nn : Word) : Statement (.callNn nn) := ⟨_, _, rfl, .inl rfl⟩
theorem callCc (cc : Cond) (nn : Word) : Statement (.callCc cc nn) := by
  cases cc <;> exact ⟨_, _, rfl, .inl rfl⟩
theorem ret : Statement .ret := ⟨_, _, rfl, .inl rfl⟩
theorem retCc (cc : Cond) : Statement (.retCc cc) := by
  cases cc <;> exact ⟨_, _, rfl, .inl rfl⟩
theorem reti : Statement .reti := ⟨_, _, rfl, .inl rfl⟩
theorem rst (t : Byte) : Statement (.rst t) := by
  revert t; unfold Statement encode; exact fun t => ⟨_, _, rfl, .inl (by revert t; decide)⟩
theorem nop : Statement .nop := ⟨_, _, rfl, .inl rfl⟩
theorem halt : Statement .halt := ⟨_, _, rfl, .inl rfl⟩
theorem stop : Statement .stop := ⟨_, _, rfl, .inl rfl⟩
theorem di : Statement .di := ⟨_, _, rfl, .inl rfl⟩
theorem ei : Statement .ei := ⟨_, _, rfl, .inl rfl⟩
theorem prefixCb : Statement .prefixCb := ⟨_, _, rfl, .inr ⟨rfl, rfl⟩⟩
theorem undefD3 : Statement .undefD3 := ⟨_, _, rfl, .inl rfl⟩
theorem undefDB : Statement .undefDB := ⟨_, _, rfl, .inl rfl⟩
theorem undefDD : Statement .undefDD := ⟨_, _, rfl, .inl rfl⟩
theorem undefE3 : Statement .undefE3 := ⟨_, _, rfl, .inl rfl⟩
theorem undefE4 : Statement .undefE4 := ⟨_, _, rfl, .inl rfl⟩
theorem undefEB : Statement .undefEB := ⟨_, _, rfl, .inl rfl⟩
theorem undefEC : Statement .undefEC := ⟨_, _, rfl, .inl rfl⟩
theorem undefED : Statement .undefED := ⟨_, _, rfl, .inl rfl⟩
theorem undefF4 : Statement .undefF4 := ⟨_, _, rfl, .inl rfl⟩
theorem undefFC : Statement .undefFC := ⟨_, _, rfl, .inl rfl⟩
theorem undefFD : Statement .undefFD := ⟨_, _, rfl, .inl rfl⟩

end Sys2Proof.Laws.EncodeLength
end

