-- ==== Sys2Proof/Tests/Slice0.lean ====
section
/-! SUPPORT. The model's own tests: well-formedness, decoding of words written out from the spec's encodings, one step on the
vectors of spec/95_test_vectors.md (each named by its number there, the expected end its own), and a witness for the
hypotheses of every obligation that has some. -/

open Sys2Proof Sys2Proof.Machine

namespace Sys2Proof.Tests

-- each test is evaluated where it stands: side by side they would need a thread apiece
set_option Elab.async false

/-! ### WellFormed -/

/-- The one check of `Instr.wellFormed` (R280): it refuses a target that is no multiple of 8, and one past $38. -/
theorem test_wellFormed_rst :
    (Instr.rst 0x38#8).wellFormed = true ∧ (Instr.rst 0x00#8).wellFormed = true ∧
    (Instr.rst 0x39#8).wellFormed = false ∧ (Instr.rst 0x04#8).wellFormed = false ∧
    (Instr.rst 0x40#8).wellFormed = false ∧ (Instr.rst 0x80#8).wellFormed = false := by decide

/-! ### Decoding: words written out from the encodings of spec/30_encoding.md -/

/-- Bytes that end too soon are rejected by name. -/
theorem test_decode_rejects :
    decode [] = .rejected .noBytes ∧ decode [0xC3#8, 0x00#8] = .rejected (.truncated 0xC3#8) := by decide +kernel

/-- The table's numbering: a CB_OP row, an opcode byte alone, and the word a step then runs. -/
theorem test_tableWord :
    decodeTableWord 16 0xCB37 = some (.swapR .a) ∧ decodeTableWord 8 0xC3 = some (.jpNn 0) ∧
    decodeTableWord 8 0xCB = some .prefixCb := by decide +kernel

/-- R130 to R148. -/
theorem test_decode_loads_8 :
    decode [0b01000111#8] = .instr (.ldRR .b .a) [] ∧
    decode [0b01111000#8] = .instr (.ldRR .a .b) [] ∧
    decode [0b01101100#8] = .instr (.ldRR .l .h) [] ∧
    decode [0b00001110#8, 0x9A#8] = .instr (.ldRN .c 0x9A#8) [] ∧
    decode [0b00111110#8, 0x01#8] = .instr (.ldRN .a 0x01#8) [] ∧
    decode [0b01011110#8] = .instr (.ldRAtHl .e) [] ∧
    decode [0b01110010#8] = .instr (.ldAtHlR .d) [] ∧
    decode [0b00110110#8, 0xA5#8] = .instr (.ldAtHlN 0xA5#8) [] ∧
    decode [0b00001010#8] = .instr (.ldAAtBc) [] ∧
    decode [0b00011010#8] = .instr (.ldAAtDe) [] ∧
    decode [0b00000010#8] = .instr (.ldAtBcA) [] ∧
    decode [0b00010010#8] = .instr (.ldAtDeA) [] ∧
    decode [0b11111010#8, 0x34#8, 0xC2#8] = .instr (.ldAAtNn 0xC234#16) [] ∧
    decode [0b11101010#8, 0x34#8, 0xC2#8] = .instr (.ldAtNnA 0xC234#16) [] ∧
    decode [0b11110010#8] = .instr (.ldhAAtC) [] ∧
    decode [0b11100010#8] = .instr (.ldhAtCA) [] ∧
    decode [0b11110000#8, 0x44#8] = .instr (.ldhAAtN 0x44#8) [] ∧
    decode [0b11100000#8, 0x44#8] = .instr (.ldhAtNA 0x44#8) [] ∧
    decode [0b00100010#8] = .instr (.ldAtHliA) [] ∧
    decode [0b00101010#8] = .instr (.ldAAtHli) [] ∧
    decode [0b00110010#8] = .instr (.ldAtHldA) [] ∧
    decode [0b00111010#8] = .instr (.ldAAtHld) [] := by
  and_intros <;> decide +kernel

/-- R160 to R165. -/
theorem test_decode_loads_16 :
    decode [0b00000001#8, 0xCD#8, 0xAB#8] = .instr (.ldRrNn .bc 0xABCD#16) [] ∧
    decode [0b00110001#8, 0xFE#8, 0xFF#8] = .instr (.ldRrNn .sp 0xFFFE#16) [] ∧
    decode [0b00001000#8, 0x00#8, 0xC1#8] = .instr (.ldAtNnSp 0xC100#16) [] ∧
    decode [0b11111001#8] = .instr (.ldSpHl) [] ∧
    decode [0b11111000#8, 0x80#8] = .instr (.ldHlSpE 0x80#8) [] ∧
    decode [0b11010101#8] = .instr (.push .de) [] ∧
    decode [0b11110101#8] = .instr (.push .af) [] ∧
    decode [0b11100001#8] = .instr (.pop .hl) [] ∧
    decode [0b11110001#8] = .instr (.pop .af) [] := by
  and_intros <;> decide +kernel

/-- R105, R178. -/
theorem test_decode_alu_8 :
    decode [0b10000001#8] = .instr (.addR .c) [] ∧
    decode [0b10000110#8] = .instr (.addAtHl) [] ∧
    decode [0b11000110#8, 0x0F#8] = .instr (.addN 0x0F#8) [] ∧
    decode [0b10001100#8] = .instr (.adcR .h) [] ∧
    decode [0b10001110#8] = .instr (.adcAtHl) [] ∧
    decode [0b11001110#8, 0x0F#8] = .instr (.adcN 0x0F#8) [] ∧
    decode [0b10010111#8] = .instr (.subR .a) [] ∧
    decode [0b10010110#8] = .instr (.subAtHl) [] ∧
    decode [0b11010110#8, 0x0F#8] = .instr (.subN 0x0F#8) [] ∧
    decode [0b10011010#8] = .instr (.sbcR .d) [] ∧
    decode [0b10011110#8] = .instr (.sbcAtHl) [] ∧
    decode [0b11011110#8, 0x0F#8] = .instr (.sbcN 0x0F#8) [] ∧
    decode [0b10100101#8] = .instr (.andR .l) [] ∧
    decode [0b10100110#8] = .instr (.andAtHl) [] ∧
    decode [0b11100110#8, 0x0F#8] = .instr (.andN 0x0F#8) [] ∧
    decode [0b10101000#8] = .instr (.xorR .b) [] ∧
    decode [0b10101110#8] = .instr (.xorAtHl) [] ∧
    decode [0b11101110#8, 0x0F#8] = .instr (.xorN 0x0F#8) [] ∧
    decode [0b10110011#8] = .instr (.orR .e) [] ∧
    decode [0b10110110#8] = .instr (.orAtHl) [] ∧
    decode [0b11110110#8, 0x0F#8] = .instr (.orN 0x0F#8) [] ∧
    decode [0b10111111#8] = .instr (.cpR .a) [] ∧
    decode [0b10111110#8] = .instr (.cpAtHl) [] ∧
    decode [0b11111110#8, 0x0F#8] = .instr (.cpN 0x0F#8) [] := by
  and_intros <;> decide +kernel

/-- R204 to R211. -/
theorem test_decode_inc_dec_adjust :
    decode [0b00111100#8] = .instr (.incR .a) [] ∧
    decode [0b00101100#8] = .instr (.incR .l) [] ∧
    decode [0b00110100#8] = .instr (.incAtHl) [] ∧
    decode [0b00000101#8] = .instr (.decR .b) [] ∧
    decode [0b00110101#8] = .instr (.decAtHl) [] ∧
    decode [0b00100111#8] = .instr (.daa) [] ∧
    decode [0b00101111#8] = .instr (.cpl) [] ∧
    decode [0b00110111#8] = .instr (.scf) [] ∧
    decode [0b00111111#8] = .instr (.ccf) [] := by
  and_intros <;> decide +kernel

/-- R221 to R224. -/
theorem test_decode_pairs :
    decode [0b00001001#8] = .instr (.addHlRr .bc) [] ∧
    decode [0b00111001#8] = .instr (.addHlRr .sp) [] ∧
    decode [0b00010011#8] = .instr (.incRr .de) [] ∧
    decode [0b00101011#8] = .instr (.decRr .hl) [] ∧
    decode [0b11101000#8, 0x08#8] = .instr (.addSpE 0x08#8) [] := by
  and_intros <;> decide +kernel

/-- R106, R231 to R250. -/
theorem test_decode_rotates :
    decode [0b00000111#8] = .instr (.rlca) [] ∧
    decode [0b00001111#8] = .instr (.rrca) [] ∧
    decode [0b00010111#8] = .instr (.rla) [] ∧
    decode [0b00011111#8] = .instr (.rra) [] ∧
    decode [0xCB#8, 0b00000010#8] = .instr (.rlcR .d) [] ∧
    decode [0xCB#8, 0b00000110#8] = .instr (.rlcAtHl) [] ∧
    decode [0xCB#8, 0b00001111#8] = .instr (.rrcR .a) [] ∧
    decode [0xCB#8, 0b00001110#8] = .instr (.rrcAtHl) [] ∧
    decode [0xCB#8, 0b00010100#8] = .instr (.rlR .h) [] ∧
    decode [0xCB#8, 0b00010110#8] = .instr (.rlAtHl) [] ∧
    decode [0xCB#8, 0b00011001#8] = .instr (.rrR .c) [] ∧
    decode [0xCB#8, 0b00011110#8] = .instr (.rrAtHl) [] ∧
    decode [0xCB#8, 0b00100111#8] = .instr (.slaR .a) [] ∧
    decode [0xCB#8, 0b00100110#8] = .instr (.slaAtHl) [] ∧
    decode [0xCB#8, 0b00101011#8] = .instr (.sraR .e) [] ∧
    decode [0xCB#8, 0b00101110#8] = .instr (.sraAtHl) [] ∧
    decode [0xCB#8, 0b00110000#8] = .instr (.swapR .b) [] ∧
    decode [0xCB#8, 0b00110110#8] = .instr (.swapAtHl) [] ∧
    decode [0xCB#8, 0b00111101#8] = .instr (.srlR .l) [] ∧
    decode [0xCB#8, 0b00111110#8] = .instr (.srlAtHl) [] := by
  and_intros <;> decide +kernel

/-- R106, R251 to R256. -/
theorem test_decode_bits :
    decode [0xCB#8, 0b01111100#8] = .instr (.bitR 7 .h) [] ∧
    decode [0xCB#8, 0b01001110#8] = .instr (.bitAtHl 1) [] ∧
    decode [0xCB#8, 0b10111111#8] = .instr (.resR 7 .a) [] ∧
    decode [0xCB#8, 0b10011110#8] = .instr (.resAtHl 3) [] ∧
    decode [0xCB#8, 0b11000000#8] = .instr (.setR 0 .b) [] ∧
    decode [0xCB#8, 0b11110110#8] = .instr (.setAtHl 6) [] := by
  and_intros <;> decide +kernel

/-- R270 to R280. -/
theorem test_decode_control_flow :
    decode [0b11000011#8, 0x50#8, 0x01#8] = .instr (.jpNn 0x0150#16) [] ∧
    decode [0b11011010#8, 0x00#8, 0x80#8] = .instr (.jpCc .c 0x8000#16) [] ∧
    decode [0b11101001#8] = .instr (.jpHl) [] ∧
    decode [0b00011000#8, 0x80#8] = .instr (.jrE 0x80#8) [] ∧
    decode [0b00110000#8, 0xFB#8] = .instr (.jrCc .nc 0xFB#8) [] ∧
    decode [0b00100000#8, 0xFB#8] = .instr (.jrCc .nz 0xFB#8) [] ∧
    decode [0b11001101#8, 0x34#8, 0x12#8] = .instr (.callNn 0x1234#16) [] ∧
    decode [0b11001100#8, 0x34#8, 0x12#8] = .instr (.callCc .z 0x1234#16) [] ∧
    decode [0b11001001#8] = .instr (.ret) [] ∧
    decode [0b11000000#8] = .instr (.retCc .nz) [] ∧
    decode [0b11011001#8] = .instr (.reti) [] ∧
    decode [0b11000111#8] = .instr (.rst 0x00#8) [] ∧
    decode [0b11111111#8] = .instr (.rst 0x38#8) [] := by
  and_intros <;> decide +kernel

/-- R290 to R296, R107. -/
theorem test_decode_system :
    decode [0b00000000#8] = .instr (.nop) [] ∧
    decode [0b01110110#8] = .instr (.halt) [] ∧
    decode [0b00010000#8] = .instr (.stop) [] ∧
    decode [0b11110011#8] = .instr (.di) [] ∧
    decode [0b11111011#8] = .instr (.ei) [] ∧
    decode [0b11001011#8] = .instr (.prefixCb) [] ∧
    decode [0xD3#8] = .instr (.undefD3) [] ∧
    decode [0xDB#8] = .instr (.undefDB) [] ∧
    decode [0xDD#8] = .instr (.undefDD) [] ∧
    decode [0xE3#8] = .instr (.undefE3) [] ∧
    decode [0xE4#8] = .instr (.undefE4) [] ∧
    decode [0xEB#8] = .instr (.undefEB) [] ∧
    decode [0xEC#8] = .instr (.undefEC) [] ∧
    decode [0xED#8] = .instr (.undefED) [] ∧
    decode [0xF4#8] = .instr (.undefF4) [] ∧
    decode [0xFC#8] = .instr (.undefFC) [] ∧
    decode [0xFD#8] = .instr (.undefFD) [] := by
  and_intros <;> decide +kernel

/-! ### One step of each instruction -/

/-- R42's registers. -/
def post : Regs := Regs.postBoot
/-- What one step from `State.reset` gives, with other registers, with bytes in RAM and with code at PC: the registers, the
listed cells of RAM, and the time. -/
def after (code : List Byte) (g : Regs) (cells : List Host.Cell) : Option (Regs × List Host.Cell × Nat) :=
  match step { State.reset with
      regs := g, mem := placeImage [] (cells.map (fun c => (c.1, [c.2])) ++ [(g.pc.toNat, code)]) } with
  | .next t => some (t.regs, t.mem.filter (fun c => decide (0x8000 ≤ c.1)), t.cyclesTotal)
  | _ => none

/-- V1, V3, V4, V8, V9, V12, V14, V16, V22. -/
theorem test_step_loads_to_registers :
    after [0x41] post [] =
      some ({ post with pc := 0x0101, b := 0x13 }, [], 4) ∧
    after [0x16, 0x9A] post [] =
      some ({ post with pc := 0x0102, d := 0x9A }, [], 8) ∧
    after [0x5E] { post with h := 0xC0, l := 0x10 } [(0xC010, 0x77)] =
      some ({ post with h := 0xC0, l := 0x10, pc := 0x0101, e := 0x77 }, [(0xC010, 0x77)], 8) ∧
    after [0x0A] { post with b := 0xFE, c := 0xA0 } [] =
      some ({ post with b := 0xFE, c := 0xA0, pc := 0x0101, a := 0xFF }, [], 8) ∧
    after [0x1A] { post with d := 0xE0, e := 0x05 } [(0xC005, 0x3C)] =
      some ({ post with d := 0xE0, e := 0x05, pc := 0x0101, a := 0x3C }, [(0xC005, 0x3C)], 8) ∧
    after [0xFA, 0x34, 0xC2] post [(0xC234, 0x99)] =
      some ({ post with pc := 0x0103, a := 0x99 }, [(0xC234, 0x99)], 16) ∧
    after [0xF2] { post with c := 0x0F } [] =
      some ({ post with c := 0x0F, pc := 0x0101, a := 0xE1 }, [], 8) ∧
    after [0xF0, 0x44] post [] =
      some ({ post with pc := 0x0102, a := 0x00 }, [], 12) ∧
    after [0x3A] { post with h := 0x00, l := 0x00 } [(0x0000, 0xC3)] =
      some ({ post with h := 0xFF, l := 0xFF, pc := 0x0101, a := 0xC3 }, [], 8) := by
  and_intros <;> decide +kernel

/-- V5, V6, V10, V11, V15, V19, V21. -/
theorem test_step_stores_of_bytes :
    after [0x70] { post with h := 0xC0, l := 0x10, b := 0x5A } [] =
      some ({ post with h := 0xC0, l := 0x10, b := 0x5A, pc := 0x0101 }, [(0xC010, 0x5A)], 8) ∧
    after [0x36, 0xA5] { post with h := 0xFF, l := 0x80 } [] =
      some ({ post with h := 0xFF, l := 0x80, pc := 0x0102 }, [(0xFF80, 0xA5)], 12) ∧
    after [0x02] { post with b := 0xC1, c := 0x00, a := 0x42 } [] =
      some ({ post with b := 0xC1, c := 0x00, a := 0x42, pc := 0x0101 }, [(0xC100, 0x42)], 8) ∧
    after [0x12] { post with d := 0xFD, e := 0xFF, a := 0x42 } [] =
      some ({ post with d := 0xFD, e := 0xFF, a := 0x42, pc := 0x0101 }, [(0xDDFF, 0x42)], 8) ∧
    after [0xE2] { post with c := 0x80, a := 0x12 } [] =
      some ({ post with c := 0x80, a := 0x12, pc := 0x0101 }, [(0xFF80, 0x12)], 8) ∧
    after [0x22] { post with h := 0xDF, l := 0xFF, a := 0x11 } [] =
      some ({ post with h := 0xE0, l := 0x00, a := 0x11, pc := 0x0101 }, [(0xDFFF, 0x11)], 8) ∧
    after [0x32] { post with h := 0xC0, l := 0x00, a := 0x22 } [] =
      some ({ post with h := 0xBF, l := 0xFF, a := 0x22, pc := 0x0101 }, [(0xC000, 0x22)], 8) := by
  and_intros <;> decide +kernel

/-- V31, V32, V34, V38, V40, V41. -/
theorem test_step_loads_16 :
    after [0x21, 0xCD, 0xAB] post [] =
      some ({ post with pc := 0x0103, h := 0xAB, l := 0xCD }, [], 12) ∧
    after [0x08, 0x00, 0xC1] { post with sp := 0xFFF8 } [] =
      some ({ post with sp := 0xFFF8, pc := 0x0103 }, [(0xC100, 0xF8), (0xC101, 0xFF)], 20) ∧
    after [0xF9] post [] =
      some ({ post with pc := 0x0101, sp := 0x014D }, [], 8) ∧
    after [0xF8, 0x80] { post with sp := 0xC080 } [] =
      some ({ post with sp := 0xC080, pc := 0x0102, f := 0x10, h := 0xC0, l := 0x00 }, [], 12) ∧
    after [0xF5] { post with sp := 0xFF90 } [] =
      some ({ post with sp := 0xFF8E, pc := 0x0101 }, [(0xFF8E, 0xB0), (0xFF8F, 0x01)], 16) ∧
    after [0xF1] { post with sp := 0xC000 } [(0xC000, 0xFF), (0xC001, 0x12)] =
      some ({ post with sp := 0xC002, pc := 0x0101, a := 0x12, f := 0xF0 }, [(0xC000, 0xFF), (0xC001, 0x12)], 12) := by
  and_intros <;> decide +kernel

/-- V50, V52, V53, V55, V56, V57, V59, V60, V61, V62, V65, V66. -/
theorem test_step_add_sub :
    after [0x80] { post with a := 0x3A, b := 0xC6, f := 0x00 } [] =
      some ({ post with a := 0x00, b := 0xC6, f := 0xB0, pc := 0x0101 }, [], 4) ∧
    after [0x86] { post with a := 0x0F, h := 0xC0, l := 0x00, f := 0xF0 } [(0xC000, 0x01)] =
      some ({ post with a := 0x10, h := 0xC0, l := 0x00, f := 0x20, pc := 0x0101 }, [(0xC000, 0x01)], 8) ∧
    after [0xC6, 0xFF] { post with a := 0x01, f := 0x00 } [] =
      some ({ post with a := 0x00, f := 0xB0, pc := 0x0102 }, [], 8) ∧
    after [0x89] { post with a := 0x0F, c := 0xF0, f := 0x10 } [] =
      some ({ post with a := 0x00, c := 0xF0, f := 0xB0, pc := 0x0101 }, [], 4) ∧
    after [0x8E] { post with a := 0xE1, h := 0xC0, l := 0x00, f := 0x10 } [(0xC000, 0x1E)] =
      some ({ post with a := 0x00, h := 0xC0, l := 0x00, f := 0xB0, pc := 0x0101 }, [(0xC000, 0x1E)], 8) ∧
    after [0xCE, 0x0F] { post with a := 0x00, f := 0x10 } [] =
      some ({ post with a := 0x10, f := 0x20, pc := 0x0102 }, [], 8) ∧
    after [0x90] { post with a := 0x10, b := 0x01, f := 0x00 } [] =
      some ({ post with a := 0x0F, b := 0x01, f := 0x60, pc := 0x0101 }, [], 4) ∧
    after [0x96] { post with a := 0x00, h := 0xC0, l := 0x00, f := 0x00 } [(0xC000, 0x01)] =
      some ({ post with a := 0xFF, h := 0xC0, l := 0x00, f := 0x70, pc := 0x0101 }, [(0xC000, 0x01)], 8) ∧
    after [0xD6, 0x0F] { post with a := 0x3E, f := 0x00 } [] =
      some ({ post with a := 0x2F, f := 0x60, pc := 0x0102 }, [], 8) ∧
    after [0x98] { post with a := 0x00, b := 0xFF, f := 0x10 } [] =
      some ({ post with a := 0x00, b := 0xFF, f := 0xF0, pc := 0x0101 }, [], 4) ∧
    after [0x9E] { post with a := 0x3B, h := 0xC0, l := 0x00, f := 0x10 } [(0xC000, 0x4F)] =
      some ({ post with a := 0xEB, h := 0xC0, l := 0x00, f := 0x70, pc := 0x0101 }, [(0xC000, 0x4F)], 8) ∧
    after [0xDE, 0x00] { post with a := 0x00, f := 0x10 } [] =
      some ({ post with a := 0xFF, f := 0x70, pc := 0x0102 }, [], 8) := by
  and_intros <;> decide +kernel

/-- V67, V68, V69, V70, V71, V72, V73, V74, V75, V76, V78, V79. -/
theorem test_step_logic_and_compare :
    after [0xA5] { post with a := 0x5A, l := 0x3F, f := 0x50 } [] =
      some ({ post with a := 0x1A, l := 0x3F, f := 0x20, pc := 0x0101 }, [], 4) ∧
    after [0xA6] { post with a := 0x5A, h := 0xC0, l := 0x00, f := 0x10 } [] =
      some ({ post with a := 0x00, h := 0xC0, l := 0x00, f := 0xA0, pc := 0x0101 }, [], 8) ∧
    after [0xE6, 0x38] { post with a := 0x5A, f := 0x00 } [] =
      some ({ post with a := 0x18, f := 0x20, pc := 0x0102 }, [], 8) ∧
    after [0xAF] { post with a := 0x5A, f := 0xF0 } [] =
      some ({ post with a := 0x00, f := 0x80, pc := 0x0101 }, [], 4) ∧
    after [0xAE] { post with a := 0xFF, h := 0xC0, l := 0x00, f := 0x00 } [(0xC000, 0x8A)] =
      some ({ post with a := 0x75, h := 0xC0, l := 0x00, f := 0x00, pc := 0x0101 }, [(0xC000, 0x8A)], 8) ∧
    after [0xEE, 0x0F] { post with a := 0xFF, f := 0x00 } [] =
      some ({ post with a := 0xF0, f := 0x00, pc := 0x0102 }, [], 8) ∧
    after [0xB0] { post with a := 0x00, b := 0x00, f := 0x70 } [] =
      some ({ post with a := 0x00, b := 0x00, f := 0x80, pc := 0x0101 }, [], 4) ∧
    after [0xB6] { post with a := 0x5A, h := 0xC0, l := 0x00, f := 0x00 } [(0xC000, 0x0F)] =
      some ({ post with a := 0x5F, h := 0xC0, l := 0x00, f := 0x00, pc := 0x0101 }, [(0xC000, 0x0F)], 8) ∧
    after [0xF6, 0x03] { post with a := 0x5A, f := 0x00 } [] =
      some ({ post with a := 0x5B, f := 0x00, pc := 0x0102 }, [], 8) ∧
    after [0xB8] { post with a := 0x3C, b := 0x2F, f := 0x00 } [] =
      some ({ post with a := 0x3C, b := 0x2F, f := 0x60, pc := 0x0101 }, [], 4) ∧
    after [0xBE] { post with a := 0x3C, h := 0xC0, l := 0x00, f := 0x00 } [(0xC000, 0x40)] =
      some ({ post with a := 0x3C, h := 0xC0, l := 0x00, f := 0x50, pc := 0x0101 }, [(0xC000, 0x40)], 8) ∧
    after [0xFE, 0x90] { post with a := 0x90, f := 0x10 } [] =
      some ({ post with a := 0x90, f := 0xC0, pc := 0x0102 }, [], 8) := by
  and_intros <;> decide +kernel

/-- V81, V82, V83, V85, V87, V89, V92, V93, V94. -/
theorem test_step_inc_dec_adjust :
    after [0x3C] { post with a := 0x0F, f := 0xC0 } [] =
      some ({ post with a := 0x10, f := 0x20, pc := 0x0101 }, [], 4) ∧
    after [0x34] { post with h := 0xC0, l := 0x00, f := 0x00 } [(0xC000, 0xFF)] =
      some ({ post with h := 0xC0, l := 0x00, f := 0xA0, pc := 0x0101 }, [], 12) ∧
    after [0x0D] { post with c := 0x00, f := 0x00 } [] =
      some ({ post with c := 0xFF, f := 0x60, pc := 0x0101 }, [], 4) ∧
    after [0x35] { post with h := 0xC0, l := 0x00, f := 0x10 } [(0xC000, 0x10)] =
      some ({ post with h := 0xC0, l := 0x00, f := 0x70, pc := 0x0101 }, [(0xC000, 0x0F)], 12) ∧
    after [0x27] { post with a := 0x9A, f := 0x00 } [] =
      some ({ post with a := 0x00, f := 0x90, pc := 0x0101 }, [], 4) ∧
    after [0x27] { post with a := 0xFA, f := 0x60 } [] =
      some ({ post with a := 0xF4, f := 0x40, pc := 0x0101 }, [], 4) ∧
    after [0x2F] { post with a := 0x35, f := 0x90 } [] =
      some ({ post with a := 0xCA, f := 0xF0, pc := 0x0101 }, [], 4) ∧
    after [0x37] { post with f := 0xE0 } [] =
      some ({ post with f := 0x90, pc := 0x0101 }, [], 4) ∧
    after [0x3F] { post with f := 0xF0 } [] =
      some ({ post with f := 0x80, pc := 0x0101 }, [], 4) := by
  and_intros <;> decide +kernel

/-- V102, V105, V107, V108. -/
theorem test_step_pairs :
    after [0x39] { post with h := 0x00, l := 0x01, sp := 0xFFFF, f := 0x80 } [] =
      some ({ post with h := 0x00, l := 0x00, sp := 0xFFFF, f := 0xB0, pc := 0x0101 }, [], 8) ∧
    after [0x33] { post with sp := 0xFFFF } [] =
      some ({ post with sp := 0x0000, pc := 0x0101 }, [], 8) ∧
    after [0x2B] { post with h := 0x10, l := 0x00 } [] =
      some ({ post with h := 0x0F, l := 0xFF, pc := 0x0101 }, [], 8) ∧
    after [0xE8, 0x08] { post with sp := 0xFFF8, f := 0xF0 } [] =
      some ({ post with sp := 0x0000, f := 0x30, pc := 0x0102 }, [], 16) := by
  and_intros <;> decide +kernel

/-- V121, V122, V123, V125, V126, V129, V131, V133, V135, V137, V139, V141. -/
theorem test_step_rotate_accumulator_and_registers :
    after [0x07] { post with a := 0x00, f := 0xF0 } [] =
      some ({ post with a := 0x00, f := 0x00, pc := 0x0101 }, [], 4) ∧
    after [0x0F] { post with a := 0x3B, f := 0x00 } [] =
      some ({ post with a := 0x9D, f := 0x10, pc := 0x0101 }, [], 4) ∧
    after [0x17] { post with a := 0x95, f := 0x10 } [] =
      some ({ post with a := 0x2B, f := 0x10, pc := 0x0101 }, [], 4) ∧
    after [0x1F] { post with a := 0x81, f := 0x00 } [] =
      some ({ post with a := 0x40, f := 0x10, pc := 0x0101 }, [], 4) ∧
    after [0xCB, 0x00] { post with b := 0x85, f := 0x00 } [] =
      some ({ post with b := 0x0B, f := 0x10, pc := 0x0102 }, [], 8) ∧
    after [0xCB, 0x09] { post with c := 0x01, f := 0x00 } [] =
      some ({ post with c := 0x80, f := 0x10, pc := 0x0102 }, [], 8) ∧
    after [0xCB, 0x15] { post with l := 0x80, f := 0x00 } [] =
      some ({ post with l := 0x00, f := 0x90, pc := 0x0102 }, [], 8) ∧
    after [0xCB, 0x1F] { post with a := 0x01, f := 0x00 } [] =
      some ({ post with a := 0x00, f := 0x90, pc := 0x0102 }, [], 8) ∧
    after [0xCB, 0x22] { post with d := 0x80, f := 0x00 } [] =
      some ({ post with d := 0x00, f := 0x90, pc := 0x0102 }, [], 8) ∧
    after [0xCB, 0x2F] { post with a := 0x8A, f := 0x00 } [] =
      some ({ post with a := 0xC5, f := 0x00, pc := 0x0102 }, [], 8) ∧
    after [0xCB, 0x37] { post with a := 0xF1, f := 0xF0 } [] =
      some ({ post with a := 0x1F, f := 0x00, pc := 0x0102 }, [], 8) ∧
    after [0xCB, 0x3F] { post with a := 0x01, f := 0x00 } [] =
      some ({ post with a := 0x00, f := 0x90, pc := 0x0102 }, [], 8) := by
  and_intros <;> decide +kernel

/-- V128, V130, V132, V134, V136, V138, V140, V142. -/
theorem test_step_rotate_memory :
    after [0xCB, 0x06] { post with h := 0xC0, l := 0x00, f := 0x00 } [(0xC000, 0x80)] =
      some ({ post with h := 0xC0, l := 0x00, f := 0x10, pc := 0x0102 }, [(0xC000, 0x01)], 16) ∧
    after [0xCB, 0x0E] { post with h := 0xC0, l := 0x00, f := 0x10 } [] =
      some ({ post with h := 0xC0, l := 0x00, f := 0x80, pc := 0x0102 }, [], 16) ∧
    after [0xCB, 0x16] { post with h := 0xC0, l := 0x00, f := 0x10 } [(0xC000, 0x11)] =
      some ({ post with h := 0xC0, l := 0x00, f := 0x00, pc := 0x0102 }, [(0xC000, 0x23)], 16) ∧
    after [0xCB, 0x1E] { post with h := 0xC0, l := 0x00, f := 0x10 } [(0xC000, 0x8A)] =
      some ({ post with h := 0xC0, l := 0x00, f := 0x00, pc := 0x0102 }, [(0xC000, 0xC5)], 16) ∧
    after [0xCB, 0x26] { post with h := 0xC0, l := 0x00, f := 0x10 } [(0xC000, 0xFF)] =
      some ({ post with h := 0xC0, l := 0x00, f := 0x10, pc := 0x0102 }, [(0xC000, 0xFE)], 16) ∧
    after [0xCB, 0x2E] { post with h := 0xC0, l := 0x00, f := 0x00 } [(0xC000, 0x01)] =
      some ({ post with h := 0xC0, l := 0x00, f := 0x90, pc := 0x0102 }, [], 16) ∧
    after [0xCB, 0x36] { post with h := 0xC0, l := 0x00, f := 0x10 } [] =
      some ({ post with h := 0xC0, l := 0x00, f := 0x80, pc := 0x0102 }, [], 16) ∧
    after [0xCB, 0x3E] { post with h := 0xC0, l := 0x00, f := 0x00 } [(0xC000, 0xFF)] =
      some ({ post with h := 0xC0, l := 0x00, f := 0x10, pc := 0x0102 }, [(0xC000, 0x7F)], 16) := by
  and_intros <;> decide +kernel

/-- V143, V145, V146, V147, V148, V149. -/
theorem test_step_bits :
    after [0xCB, 0x7C] { post with h := 0x80, f := 0x10 } [] =
      some ({ post with h := 0x80, f := 0x30, pc := 0x0102 }, [], 8) ∧
    after [0xCB, 0x46] { post with h := 0xC0, l := 0x00, f := 0x00 } [(0xC000, 0xFE)] =
      some ({ post with h := 0xC0, l := 0x00, f := 0xA0, pc := 0x0102 }, [(0xC000, 0xFE)], 12) ∧
    after [0xCB, 0xBF] { post with a := 0xFF, f := 0xF0 } [] =
      some ({ post with a := 0x7F, f := 0xF0, pc := 0x0102 }, [], 8) ∧
    after [0xCB, 0x9E] { post with h := 0xC0, l := 0x00 } [(0xC000, 0xFF)] =
      some ({ post with h := 0xC0, l := 0x00, pc := 0x0102 }, [(0xC000, 0xF7)], 16) ∧
    after [0xCB, 0xC0] { post with b := 0x00 } [] =
      some ({ post with b := 0x01, pc := 0x0102 }, [], 8) ∧
    after [0xCB, 0xFE] { post with h := 0xFF, l := 0x80 } [] =
      some ({ post with h := 0xFF, l := 0x80, pc := 0x0102 }, [(0xFF80, 0x80)], 16) := by
  and_intros <;> decide +kernel

/-- V160, V162, V163, V166, V168. -/
theorem test_step_jumps :
    after [0xC3, 0x50, 0x01] post [] =
      some ({ post with pc := 0x0150 }, [], 16) ∧
    after [0xDA, 0x00, 0x80] { post with f := 0x10 } [] =
      some ({ post with f := 0x10, pc := 0x8000 }, [], 16) ∧
    after [0xE9] { post with h := 0xC0, l := 0x00 } [] =
      some ({ post with h := 0xC0, l := 0x00, pc := 0xC000 }, [], 4) ∧
    after [0x18, 0x80] post [] =
      some ({ post with pc := 0x0082 }, [], 12) ∧
    after [0x30, 0xFB] { post with f := 0x00 } [] =
      some ({ post with f := 0x00, pc := 0x00FD }, [], 12) := by
  and_intros <;> decide +kernel

/-- V170, V171, V173, V174, V175, V177. -/
theorem test_step_calls_and_returns :
    after [0xCD, 0x34, 0x12] post [] =
      some ({ post with pc := 0x1234, sp := 0xFFFC }, [(0xFFFC, 0x03), (0xFFFD, 0x01)], 24) ∧
    after [0xCC, 0x34, 0x12] { post with f := 0x00 } [] =
      some ({ post with f := 0x00, pc := 0x0103 }, [], 12) ∧
    after [0xC8] { post with f := 0x80, sp := 0xCFFE } [(0xCFFE, 0x03), (0xCFFF, 0x01)] =
      some ({ post with f := 0x80, sp := 0xD000, pc := 0x0103 }, [(0xCFFE, 0x03), (0xCFFF, 0x01)], 20) ∧
    after [0xC8] { post with f := 0x00, sp := 0xCFFE } [(0xCFFE, 0x03), (0xCFFF, 0x01)] =
      some ({ post with f := 0x00, sp := 0xCFFE, pc := 0x0101 }, [(0xCFFE, 0x03), (0xCFFF, 0x01)], 8) ∧
    after [0xC9] { post with sp := 0xCFFE } [(0xCFFE, 0x03), (0xCFFF, 0x01)] =
      some ({ post with sp := 0xD000, pc := 0x0103 }, [(0xCFFE, 0x03), (0xCFFF, 0x01)], 16) ∧
    after [0xFF] post [] =
      some ({ post with pc := 0x0038, sp := 0xFFFC }, [(0xFFFC, 0x01), (0xFFFD, 0x01)], 16) := by
  and_intros <;> decide +kernel

/-- V180. -/
theorem test_step_nop :
    after [0x00] post [] =
      some ({ post with pc := 0x0101 }, [], 4) := by
  decide +kernel

/-! ### Steps with effects outside the register file -/

/-- `State.reset` with a program at its PC, IF clear as most vectors start. -/
def at0100 (code : List Byte) : State :=
  { State.reset with intFlags := 0, mem := Memory.writeBytes [] 0x0100 code }

/-- What `f` sees of the state one step gives. -/
def seen {α : Type} (s : State) (f : State → α) : Option α :=
  match step s with
  | .next t => some (f t)
  | _ => none

/-- V13, V18, V20, V176, TM2, TM9. -/
theorem test_step_registers_on_the_bus :
    seen { at0100 [0xEA, 0xFF, 0xFF] with regs := { post with a := 0xFF } } (fun t => (t.intEnable, t.cyclesTotal)) =
      some (0x1F, 16) ∧
    seen { at0100 [0xE0, 0x06] with regs := { post with a := 0xFE } } (fun t => (t.timer.tma, t.cyclesTotal)) =
      some (0xFE, 12) ∧
    seen { at0100 [0x2A] with regs := { post with h := 0xFF, l := 0xFF }, intEnable := 0x15 } (fun t => t.regs) =
      some { post with a := 0xF5, h := 0, l := 0, pc := 0x0101 } ∧
    seen { at0100 [0xD9] with
        mem := placeImage [] [(0x0100, [0xD9]), (0xCFFE, [0x03, 0x01])], regs := { post with sp := 0xCFFE } }
      (fun t => (t.regs, t.ime, t.cyclesTotal)) = some ({ post with sp := 0xD000, pc := 0x0103 }, true, 16) ∧
    seen (at0100 [0xF0, 0x04]) (fun t => t.regs.a) = some 0xAB ∧
    seen { at0100 [0xF0, 0x07] with timer := { State.reset.timer with tac := 5 } } (fun t => t.regs.a) = some 0xFD := by
  and_intros <;> decide +kernel

/-- V181 to V190, EI4's first step. -/
theorem test_step_system :
    seen { at0100 [0xF3] with ime := true, imePending := 1 } (fun t => (t.ime, t.imePending, t.regs.pc)) =
      some (false, 0, 0x0101) ∧
    seen (at0100 [0xFB]) (fun t => (t.ime, t.imePending, t.cyclesTotal)) = some (false, 1, 4) ∧
    seen { at0100 [0xFB] with ime := true, intEnable := 1 } (fun t => (t.ime, t.imePending)) = some (true, 1) ∧
    seen { at0100 [0x76] with intEnable := 4 } (fun t => (t.halted, t.haltBug, t.regs.pc)) = some (true, false, 0x0101) ∧
    seen { at0100 [0x76] with intEnable := 1, intFlags := 1 } (fun t => (t.halted, t.haltBug, t.regs.pc)) =
      some (false, true, 0x0101) ∧
    seen { at0100 [0x10] with intEnable := 0x10, intFlags := 0x10 } (fun t => (t.stopped, t.regs.pc, t.cyclesTotal)) =
      some (true, 0x0101, 4) ∧
    seen (at0100 [0xD3]) (fun t => t.regs.pc) = none ∧
    seen { at0100 [0xD3] with undefPolicy := .nop } (fun t => (t.regs, t.cyclesTotal)) =
      some ({ post with pc := 0x0101 }, 4) ∧
    seen { at0100 [0xCB, 0x37] with regs := { post with a := 0xF1, f := 0xF0 } } (fun t => (t.regs, t.cyclesTotal)) =
      some ({ post with a := 0x1F, f := 0, pc := 0x0102 }, 8) := by
  and_intros <;> decide +kernel

/-- V187: the fault names the opcode and hands over the state with PC past it and 4 T-cycles gone. -/
theorem test_step_undefined_opcode :
    (match step (at0100 [0xD3]) with
    | .fault (.undefinedOpcode op t) => some (op, t.regs.pc, t.cyclesTotal)
    | _ => none) = some (0xD3, 0x0101, 4) := by
  decide +kernel

/-- IRQ1, IRQ2, IRQ3, IRQ4, and step 4 of EI5 (the halt bug's repeated fetch). -/
theorem test_step_interrupts :
    seen { at0100 [] with intEnable := 0x1F, intFlags := 0x16, ime := true, regs := { post with sp := 0xD000 } }
      (fun t => (t.regs, t.intFlags, t.ime, t.cyclesTotal, Memory.read t.mem 0xCFFF)) =
      some ({ post with sp := 0xCFFE, pc := 0x0048 }, 0x14, false, 20, 0x01) ∧
    seen { at0100 [] with intEnable := 0x04, intFlags := 0x1B, ime := true } (fun t => (t.regs.pc, t.intFlags)) =
      some (0x0101, 0x1B) ∧
    seen { at0100 [] with intEnable := 0x1F, intFlags := 0x1F } (fun t => (t.regs.pc, t.intFlags)) = some (0x0101, 0x1F) ∧
    seen { at0100 [] with intEnable := 1, intFlags := 1, ime := true, regs := { post with sp := 0x0001, pc := 0x01AB } }
      (fun t => (t.regs, t.intFlags, t.intEnable, t.ime, t.mem.length)) =
      some ({ post with sp := 0xFFFF, pc := 0x0040 }, 0, 0x0B, false, 0) ∧
    seen { at0100 [0x3C] with haltBug := true } (fun t => (t.regs.a, t.regs.pc, t.haltBug)) =
      some (0x02, 0x0100, false) := by
  and_intros <;> decide +kernel

/-- HS1 step 6, HS3 step 1, HS4's idle step and edge. -/
theorem test_step_halted_and_stopped :
    seen { at0100 [0x3C] with halted := true, intEnable := 4, intFlags := 4 }
      (fun t => (t.regs.a, t.halted, t.intFlags, t.cyclesTotal)) = some (0x02, false, 4, 4) ∧
    seen { at0100 [0x76] with intEnable := 4, ime := true, timer := ⟨0xABCC, 0, 0x77, 0, 2⟩ }
      (fun t => (t.halted, t.timer.tima, t.intFlags, t.cyclesTotal)) = some (true, 0x77, 4, 4) ∧
    seen { at0100 [] with stopped := true, intEnable := 0x1F, intFlags := 0x0F, ime := true }
      (fun t => (t.regs.pc, t.stopped, t.timer.divCounter, t.cyclesTotal)) = some (0x0100, true, 0xABD0, 4) ∧
    (joypadEdge { at0100 [] with stopped := true }).intFlags = 0x10 ∧
    (joypadEdge { at0100 [] with stopped := true }).stopped = false := by
  and_intros <;> decide +kernel

/-- TM3, TM5, TM6, TM7, TM8. -/
theorem test_step_timer :
    seen { at0100 [0xE0, 0x04] with timer := ⟨0x0200, 0x10, 0, 4, 0⟩ } (fun t => t.timer) =
      some ⟨0x0004, 0x11, 0, 4, 0⟩ ∧
    seen { at0100 [0xE0, 0x04] with timer := ⟨0x0200, 0x10, 0, 0, 0⟩ } (fun t => t.timer) =
      some ⟨0x0004, 0x10, 0, 0, 0⟩ ∧
    seen { at0100 [0xE0, 0x04] with timer := ⟨0x0200, 0xFF, 0, 4, 0⟩ } (fun t => (t.timer.tima, t.intFlags)) =
      some (0x00, 4) ∧
    seen { at0100 [0xE0, 0x05] with timer := ⟨0x000B, 0xFF, 0x80, 5, 0⟩, regs := { post with a := 0x33 } }
      (fun t => (t.timer.tima, t.intFlags)) = some (0x33, 0) ∧
    seen { at0100 [0xE0, 0x06] with timer := ⟨0x000B, 0xFF, 0x80, 5, 0⟩, regs := { post with a := 0x33 } }
      (fun t => (t.timer.tima, t.intFlags)) = some (0x33, 4) := by
  and_intros <;> decide +kernel

/-! ### The PPU -/

/-- The first 16 pixels of row 0 after the sprite scan and the drawing of line 0, on the spec's common set-up for the
rasterizer vectors: tile 1 with rows `3 3 1 1 2 2 0 0`, tile 2 all index 1, and `cells` besides. -/
def row0 (lcdc : Byte) (p : Ppu) (cells : List (Nat × List Byte)) : List (Fin 40) × List (BitVec 2) :=
  let tile (lo hi : Byte) : List Byte := (List.range 16).map fun i => if i % 2 = 0 then lo else hi
  let s := { State.reset with
    mem := placeImage [] ((0x8010, tile 0xF0 0xCC) :: (0x8020, tile 0xFF 0x00) :: cells)
    ppu := { p with lcdc := lcdc, bgp := 0xE4, obp0 := 0xE4 } }
  let t := renderLine (spriteScan s)
  (t.ppu.lineSprites, (t.ppu.framebuffer[0].toList.take 16))

/-- The PPU of the set-up. -/
def p0 : Ppu := State.reset.ppu

/-- RL1, RL2, RL3, RL4. -/
theorem test_raster_sprite_attributes :
    row0 0x93 p0 [(0xFE00, [16, 8, 1, 0x00])] = ([0], [3, 3, 1, 1, 2, 2, 0, 0, 0, 0, 0, 0, 0, 0, 0, 0]) ∧
    row0 0x93 p0 [(0xFE00, [16, 8, 1, 0x20])] = ([0], [0, 0, 2, 2, 1, 1, 3, 3, 0, 0, 0, 0, 0, 0, 0, 0]) ∧
    row0 0x93 p0 [(0x9800, [2]), (0xFE00, [16, 8, 1, 0x80])] = ([0], [1, 1, 1, 1, 1, 1, 1, 1, 0, 0, 0, 0, 0, 0, 0, 0]) ∧
    row0 0x93 p0 [(0x9800, [2]), (0xFE00, [16, 8, 1, 0x00])] = ([0], [3, 3, 1, 1, 2, 2, 1, 1, 0, 0, 0, 0, 0, 0, 0, 0]) := by
  and_intros <;> decide +kernel

/-- RL5, RL6, RL13, RL12. -/
theorem test_raster_sprite_priority :
    row0 0x93 { p0 with obp1 := 0x04 } [(0xFE00, [16, 8, 1, 0x00, 16, 12, 2, 0x10])] =
      ([0, 1], [3, 3, 1, 1, 2, 2, 1, 1, 1, 1, 1, 1, 0, 0, 0, 0]) ∧
    row0 0x93 { p0 with obp1 := 0x04 } [(0xFE00, [16, 12, 1, 0x00, 16, 12, 2, 0x10])] =
      ([0, 1], [0, 0, 0, 0, 3, 3, 1, 1, 2, 2, 1, 1, 0, 0, 0, 0]) ∧
    row0 0x93 { p0 with obp1 := 0x0C } [(0x9800, [2]), (0xFE00, [16, 8, 1, 0x80, 16, 9, 2, 0x10])] =
      ([0, 1], [1, 3, 3, 3, 3, 3, 3, 3, 3, 0, 0, 0, 0, 0, 0, 0]) ∧
    row0 0x97 p0 [(0x8030, List.replicate 16 0xFF), (0xFE00, [9, 8, 3, 0x40])] =
      ([0], [3, 3, 3, 3, 3, 3, 3, 3, 0, 0, 0, 0, 0, 0, 0, 0]) := by
  and_intros <;> decide +kernel

/-- RL7, RL8, RL9, RL10. -/
theorem test_raster_background_and_window :
    row0 0x91 { p0 with scx := 3 } [(0x9800, [1])] = ([], [1, 2, 2, 0, 0, 0, 0, 0, 0, 0, 0, 0, 0, 0, 0, 0]) ∧
    row0 0xB1 { p0 with wx := 0x0B } [(0x9800, [1, 2, 2])] = ([], [3, 3, 1, 1, 3, 3, 1, 1, 2, 2, 0, 0, 1, 1, 1, 1]) ∧
    row0 0x81 p0 [(0x9800, [0x80]), (0x8800, List.replicate 16 0x0F)] =
      ([], [0, 0, 0, 0, 3, 3, 3, 3, 0, 0, 0, 0, 0, 0, 0, 0]) ∧
    row0 0x90 p0 [(0x9800, [1])] = ([], List.replicate 16 0) := by
  and_intros <;> decide +kernel

/-- RL11: the sprite list of twelve sprites on the line. -/
theorem test_raster_ten_sprites :
    (row0 0x93 p0 [(0xFE00, (List.range 12).flatMap fun i => [16, BitVec.ofNat 8 (8 + 8 * (11 - i)), 1, 0])]).1 =
      [11, 10, 9, 8, 7, 6, 5, 4, 3, 2] := by
  decide +kernel

/-- PPU1 (the STAT interrupt of HBlank comes with T-cycle 252, not before), PPU7, PPU10, PPU11, and `div_counter` and STAT
of `post_boot` as software reads them. -/
theorem test_ppu_modes :
    (tick 251 { State.reset with intFlags := 0, ppu := { p0 with statEnables := 1 } }).intFlags = 0 ∧
    (tick 252 { State.reset with intFlags := 0, ppu := { p0 with statEnables := 1 } }).intFlags = 2 ∧
    busRead (busWrite { State.reset with ppu := { p0 with ly := 5, lineCycle := 100, mode := .rendering, coincidence := false } }
      0xFF44 0x12) 0xFF41 = 0x87 ∧
    busRead { State.reset with mem := [(0xFE00, 0x42)] } 0xFE00 = 0xFF ∧
    busRead { State.reset with mem := [(0xFE00, 0x42)], ppu := { p0 with mode := .hblank, lineCycle := 252 } } 0xFE00 = 0x42 ∧
    busRead State.reset 0xFF41 = 0x86 ∧ busRead State.reset 0xFF04 = 0xAB := by
  and_intros <;> decide +kernel

/-! ### Witnesses: states and operands that meet the hypotheses of each obligation that has some -/

/-- Some next state, read off by evaluation. -/
theorem next_of {s : State} (h : (seen s fun _ => ()).isSome = true) : ∃ t, step s = .next t := by
  unfold seen at h
  split at h
  · exact ⟨_, by assumption⟩
  · cases h

/-- What the bytes at PC decode to, as a value. -/
def fetched (s : State) : Option Instr :=
  match decode [codeByte (wake s) 0, codeByte (wake s) 1, codeByte (wake s) 2] with
  | .instr i _ => some i
  | .rejected _ => none

theorem fetches_of {s : State} {i : Instr} (h : fetched s = some i) : fetches s i := by
  unfold fetched at h
  split at h
  · next i' rest e => cases h; exact ⟨rest, e⟩
  · cases h

/-- DecodeOfEncode: a form with bytes to spare, and the prefix at the end of the bytes. -/
theorem witness_DecodeOfEncode :
    ((Instr.rst 0x38).wellFormed = true ∧ (Instr.rst 0x38 = .prefixCb → [0x00#8] = [])) ∧
    (Instr.prefixCb.wellFormed = true ∧ (Instr.prefixCb = .prefixCb → ([] : List Byte) = [])) := by decide

/-- EveryWordHasOneMeaning. -/
theorem witness_EveryWordHasOneMeaning : decode [0xCB#8, 0x7C#8, 0x00#8] = .instr (.bitR 7 .h) [0x00#8] := by
  decide +kernel

/-- StepRunsFetchedInstruction, UndefinedOpcodesBothPolicies, TheOnlyFault: an undefined opcode at PC under both policies. -/
theorem witness_UndefinedOpcodesBothPolicies :
    (0xFD#8, Instr.undefFD) ∈ undefinedOpcodes ∧
    (runsInstr (at0100 [0xFD]) = true ∧ codeByte (wake (at0100 [0xFD])) 0 = 0xFD#8 ∧
      (at0100 [0xFD]).undefPolicy = .fault) ∧
    (runsInstr { at0100 [0xFD] with undefPolicy := .nop } = true ∧
      codeByte (wake { at0100 [0xFD] with undefPolicy := .nop }) 0 = 0xFD#8) := by
  and_intros <;> decide +kernel

theorem witness_TheOnlyFault : ∃ f, step (at0100 [0xD3]) = .fault f := by
  have h : (match step (at0100 [0xD3]) with | .fault _ => true | _ => false) = true := by decide +kernel
  split at h
  · exact ⟨_, by assumption⟩
  · cases h

/-- StepRunsFetchedInstruction: an instruction of three bytes, and one under the halt bug. -/
theorem witness_StepRunsFetchedInstruction :
    (runsInstr (at0100 [0xCD, 0x34, 0x12]) = true ∧ fetched (at0100 [0xCD, 0x34, 0x12]) = some (.callNn 0x1234)) ∧
    (runsInstr { at0100 [0x3E, 0x55] with haltBug := true } = true ∧
      fetched { at0100 [0x3E, 0x55] with haltBug := true } = some (.ldRN .a 0x3E)) := by
  and_intros <;> decide +kernel

/-- A machine with interrupts `e` enabled and `f` flagged. -/
def withInts (e f : BitVec 5) : State := { at0100 [] with intEnable := e, intFlags := f }

/-- IdleAndWake: stopped, halted with nothing pending, halted with something pending and `ime` either way. -/
theorem witness_IdleAndWake :
    { withInts 0x1F 0x1F with stopped := true }.stopped = true ∧
    ({ withInts 0x1E 0x01 with halted := true }.halted = true ∧
      pending { withInts 0x1E 0x01 with halted := true } = 0#5) ∧
    (∀ ime ∈ [true, false], let s := { withInts 0x10 0x10 with halted := true, ime := ime }
      s.halted = true ∧ s.stopped = false ∧ pending s ≠ 0#5 ∧ s.ime = ime) := by decide +kernel

/-- InterruptEntry: each interrupt the least pending one, from 0 to 4; another one flagged besides, which stays. -/
theorem witness_InterruptEntry :
    ∀ n < 5, let s := { withInts (0x1F#5 <<< n) 0x1F with ime := true }
      s.ime = true ∧ s.stopped = false ∧ (pending s).getLsbD n = true ∧ (∀ m < n, (pending s).getLsbD m = false) ∧
      s.regs.sp ≠ 0xFF10#16 ∧ s.regs.sp ≠ 0xFF11#16 ∧ s.intFlags.getLsbD (4 - n % 2) = true := by decide +kernel

/-- EiDelayTable: the four rows of the table. -/
theorem witness_EiDelayTable :
    ∀ c ∈ [(0xFB#8, Instr.ei, 0), (0xF3#8, Instr.di, 1), (0x00#8, Instr.nop, 1), (0x00#8, Instr.nop, 0)],
      let s := { at0100 [c.1] with imePending := c.2.2 }
      runsInstr s = true ∧ fetched s = some c.2.1 ∧ (seen s fun _ => ()).isSome = true ∧ s.imePending = c.2.2 := by
  decide +kernel

/-- WhoSetsControlState: each clause's change happens in some step. -/
theorem witness_WhoSetsControlState :
    seen (at0100 [0xD9]) (fun t => t.ime) = some true ∧
    seen { at0100 [0x00] with imePending := 1 } (fun t => t.ime) = some true ∧
    seen { at0100 [0x76] with intEnable := 1, intFlags := 1 } (fun t => t.haltBug) = some true ∧
    seen { withInts 1 1 with ime := true, haltBug := true } (fun t => t.haltBug) = some true ∧
    seen { at0100 [] with stopped := true } (fun t => t.stopped) = some true ∧
    seen (at0100 [0x10]) (fun t => t.stopped) = some true := by
  and_intros <;> decide +kernel

/-- JoypadEdgeEffect, FixedForLife, DeadWrites: each kind of EXT_IO and of cartridge; a step of a machine with both units. -/
theorem witness_units :
    State.reset.extIo = .absent ∧ { State.reset with extIo := .device 3 }.extIo = .device 3 ∧
    State.reset.cart = .noMbc ∧ { State.reset with cart := .other 1 2 }.cart = .other 1 2 ∧
    (seen { at0100 [] with cart := .other 1 2, extIo := .device 3, halted := true } fun _ => ()).isSome = true := by
  and_intros <;> decide +kernel

/-- StepTime: an idle step, a dispatch, an instruction. -/
theorem witness_StepTime :
    ∀ s ∈ [{ at0100 [] with halted := true }, { withInts 1 1 with ime := true }, at0100 [0xCD]],
      s.cgb = none ∧ (seen s fun _ => ()).isSome = true := by decide +kernel

theorem witness_StepTime_cases :
    idles (wake { at0100 [] with halted := true }) = true ∧
    (idles (wake { withInts 1 1 with ime := true }) = false ∧
      takesInterrupt (wake { withInts 1 1 with ime := true }) = true) ∧
    (runsInstr (at0100 [0xCD]) = true ∧ fetched (at0100 [0xCD]) = some (.callNn 0)) := by
  and_intros <;> decide +kernel

/-- StepKeepsInvariant, ReachableStatesKeepInvariant, NamedLaunchStatesWellFormed, FixedForLife: reset is well formed, keeps
the invariant, and steps on. -/
theorem witness_invariants :
    State.reset.LaunchWf ∧ State.reset.Inv ∧ (∃ t, step State.reset = .next t) ∧
    (∃ t, Reaches State.reset t ∧ step (joypadEdge State.reset) = .next t) := by
  have h1 : (seen State.reset fun _ => ()).isSome = true := by decide +kernel
  have h2 : (seen (joypadEdge State.reset) fun _ => ()).isSome = true := by decide +kernel
  obtain ⟨t, ht⟩ := next_of h2
  exact ⟨by decide +kernel, by decide +kernel, next_of h1, t, .step (.edge .start) ht, ht⟩

/-- NamedLaunchStatesWellFormed: an image with a byte at each end of each memory, and a BIOS. -/
theorem witness_NamedLaunchStatesWellFormed :
    let image := Memory.writeBytes (placeImage [] [(0, [1]), (0x9FFF, [2]), (0xC000, [3]), (0xDFFF, [4]), (0xFE00, [5]),
      (0xFE9F, [6]), (0xFF80, [7])]) 0xFFFE [8]
    Memory.wf image = true ∧ image.all (fun c => backed c.1) = true ∧ Memory.wf [(0x08FF, 1#8)] = true ∧
      [(0x08FF, 1#8)].all (fun c => decide (c.1 ≤ 0x08FF)) = true := by
  decide +kernel

/-- FixedForLife: a step that leaves the BIOS mapped. -/
theorem witness_FixedForLife : seen (State.launchPowerOn Regs.zero [] [] .fault none .noMbc .absent) (fun t => t.biosEnabled) = some true := by
  decide +kernel

/-- TimaPeriod: each rate, on, and off. -/
theorem witness_TimaPeriod :
    ∀ r ∈ [4#3, 5#3, 6#3, 7#3, 0#3], let s := { at0100 [] with timer := ⟨0x1234, 0xFE, 0, r, 0⟩ }
      s.timer.timaDelay = 0 ∧ s.timer.tac.getLsbD 2 = decide (r ≠ 0#3) ∧ s.timer.tima ≠ 0xFF#8 := by decide +kernel

/-- TimaOverflowAndReload: each rate, one T-cycle before the fall of its bit. -/
theorem witness_TimaOverflowAndReload :
    let falls (r : BitVec 3) (d : BitVec 16) : Bool :=
      d.getLsbD (tacBit (r.extractLsb' 0 2)) && !(d + 1#16).getLsbD (tacBit (r.extractLsb' 0 2)) && r.getLsbD 2;
    falls 4#3 0x03FF#16 = true ∧ falls 5#3 0x000F#16 = true ∧ falls 6#3 0x003F#16 = true ∧ falls 7#3 0x00FF#16 = true ∧
      falls 4#3 0xFFFF#16 = true := by decide

/-- PpuWalksTheFrame, OneVBlankPerFrame, PpuInterruptSources: the first and the last place of a frame, and the places the
clauses name: the last before a rendered line, before a scan (of lines 143 and 0), before VBlank, and within VBlank. -/
theorem witness_Ppu :
    ∀ c ∈ [(0#8, 0, Mode.oamScan), (153#8, 455, .vblank), (143#8, 455, .hblank), (0#8, 251, .rendering),
      (143#8, 79, .oamScan), (144#8, 79, .vblank), (142#8, 455, .hblank), (144#8, 455, .vblank)],
      let s := { State.reset with ppu := { p0 with ly := c.1, lineCycle := c.2.1, mode := c.2.2 } }
      s.cgb = none ∧ lcdOn s.ppu = true ∧ s.ppu.ly.toNat ≤ 153 ∧ s.ppu.lineCycle ≤ 455 ∧
      s.ppu.lineSprites.length ≤ 10 ∧ s.ppu.mode = modeAt s.ppu.ly.toNat s.ppu.lineCycle := by decide +kernel

/-- LcdOffAndOn: off, on, neither, and the LCD off. -/
theorem witness_LcdOffAndOn :
    (bitNat State.reset.ppu.lcdc 7 = 1 ∧ bitNat 0x11#8 7 = 0) ∧ (bitNat Ppu.powerOn.lcdc 7 = 0 ∧ bitNat 0x91#8 7 = 1) ∧
    bitNat State.reset.ppu.lcdc 7 = bitNat 0xFF#8 7 := by decide

/-- SpriteScanRule: a sprite on the line, and one on the line left out of ten. -/
theorem witness_SpriteScanRule :
    let s := { State.reset with mem := Memory.writeBytes [] 0xFE00 ((List.replicate 11 [16#8, 8#8, 0#8, 0#8]).flatten) }
    (spriteScan s).ppu.lineSprites = [0, 1, 2, 3, 4, 5, 6, 7, 8, 9] ∧
      ((Memory.read s.mem (0xFE00 + 4 * 10)).toNat : Int) - 16 ≤ s.ppu.ly.toNat := by decide +kernel

/-- BackgroundRow and SpritePriority: the first and the last row, sprites off and on, on DMG and on CGB; and a sprite that
shows (V flip, 16 rows: its last row comes first), one off the line, and one past the pixel. -/
theorem witness_rows :
    (∀ y ∈ [(0 : Fin 144), 143],
      let s := { State.reset with ppu := { p0 with ly := BitVec.ofNat 8 y.val } }
      s.cgb = none ∧ s.ppu.ly.toNat = y.val ∧ s.ppu.lcdc.getLsbD 1 = false ∧ ({ p0 with lcdc := 0x93 }).lcdc.getLsbD 1 = true) ∧
    { State.reset with cgb := some ⟨false, false⟩ }.cgb ≠ none ∧
    (let m := placeImage [] [(0x803E, [0x80]), (0xFE00, [16, 8, 3, 0x40, 17, 8, 3, 0x40])];
      let p := { p0 with lcdc := 0x97 };
      specSprite m p 0 0 0 = some 3 ∧ specSprite m p 0 0 1 = none ∧ specSprite m p 0 8 0 = none) := by
  and_intros <;> decide +kernel

/-- BusReadMap, RamWrites, EchoIsWram, DeadWrites: the first and the last address of each region, in the modes the clauses
name; each address is of one region. -/
theorem witness_regions :
    [0x0000#16, 0x7FFF#16, 0x8000#16, 0x9FFF#16, 0xA000#16, 0xBFFF#16, 0xC000#16, 0xDFFF#16, 0xE000#16, 0xFDFF#16,
      0xFE00#16, 0xFE9F#16, 0xFEA0#16, 0xFEFF#16, 0xFF00#16, 0xFF7F#16, 0xFF80#16, 0xFFFE#16, 0xFFFF#16].map regionOf =
    [.rom, .rom, .vram, .vram, .cartRam, .cartRam, .wram, .wram, .echo, .echo, .oam, .oam, .unusable, .unusable, .io, .io,
      .hram, .hram, .ie] := by decide +kernel

/-- The cases of BusReadMap and RamWrites that look at the state: the BIOS mapped or not, each lockout on and off. -/
theorem witness_regions_states :
    State.reset.biosEnabled = false ∧ (State.launchPowerOn Regs.zero [] [] .fault none .noMbc .absent).biosEnabled = true ∧
    Memory.wf State.reset.mem = true ∧
    State.reset.ppu.mode = .oamScan ∧ ({ p0 with mode := .rendering } : Ppu).mode = .rendering ∧
    Ppu.powerOn.mode ≠ .rendering ∧ Ppu.powerOn.mode ≠ .oamScan ∧ (busWrite State.reset 0xFF46 0xC0).dmaRemaining = 640 := by
  decide +kernel

/-- BusReadMap: the BIOS overlay's edges, on DMG and on CGB. -/
theorem witness_overlay :
    let overlaid (cgb : Option Cgb) := fun a : Word => decide (overlayAddress { State.reset with cgb := cgb } a);
    [0x0000#16, 0x00FF#16, 0x0100#16, 0x01FF#16, 0x0200#16, 0x08FF#16, 0x0900#16, 0x7FFF#16].map (overlaid none) =
      [true, true, false, false, false, false, false, false] ∧
    [0x0000#16, 0x00FF#16, 0x0100#16, 0x01FF#16, 0x0200#16, 0x08FF#16, 0x0900#16, 0x7FFF#16].map
      (overlaid (some ⟨false, false⟩)) = [true, true, false, false, true, true, false, false] := by
  decide +kernel

/-- BusReadMap, DeadWrites: the cartridge's addresses and those of EXT_IO, at their edges. -/
theorem witness_edge_of_the_block :
    [0x0000#16, 0x7FFF#16, 0x8000#16, 0x9FFF#16, 0xA000#16, 0xBFFF#16, 0xC000#16].map (fun a => decide (cartAddress a)) =
      [true, true, false, false, true, true, false] ∧
    [0xFEFF#16, 0xFF00#16, 0xFF04#16, 0xFF4D#16, 0xFF50#16, 0xFF51#16, 0xFF7F#16, 0xFF80#16].map
      (fun a => decide (extIoAddress a)) = [false, true, false, true, false, true, true, false] := by
  decide +kernel

/-- OamDma: DMA2's echo page copies from WRAM; page $00 copies the BIOS while it is mapped, the ROM when it is not. -/
theorem witness_OamDma :
    let s := { State.reset with mem := [(0x0000, 0x55#8), (0xC09F, 0x77#8)], bios := [(0x0000, 0x33#8)] };
    Memory.wf s.mem = true ∧ Memory.read (busWrite s 0xFF46 0xE0).mem 0xFE9F = 0x77#8 ∧
    Memory.read (busWrite s 0xFF46 0x00).mem 0xFE00 = 0x55#8 ∧
    Memory.read (busWrite { s with biosEnabled := true } 0xFF46 0x00).mem 0xFE00 = 0x33#8 := by
  decide +kernel

/-- PushPopRoundTrip, CallsReturn: the stack at each end of the two ranges, and an interrupt to take. -/
theorem witness_stacks :
    (∀ sp ∈ [0xC002#16, 0xE000#16, 0xFF82#16, 0xFFFF#16],
      (0xC002 ≤ sp.toNat ∧ sp.toNat ≤ 0xE000) ∨ 0xFF82 ≤ sp.toNat) ∧
    (let s := { withInts 1 1 with ime := true };
      Memory.wf s.mem = true ∧ s.ime = true ∧ s.stopped = false ∧ pending s ≠ 0#5) := by
  constructor
  · simp
  · decide +kernel

/-- RegisterLoads, PairArithmetic: a register outside the pair, and a pair that is not SP. -/
theorem witness_pairs : R8.b ≠ R8.c ∧ pairHas .hl .a = false ∧ pairHas .sp .h = false ∧ R16.bc ≠ .sp := by decide

/-- DaaIsDecimal: the digits' ends. -/
theorem witness_DaaIsDecimal : isBcd 0x00#8 = true ∧ isBcd 0x99#8 = true := by decide

/-- Jumps, Calls, Returns: each condition holds somewhere and fails somewhere. -/
theorem witness_conditions :
    ∀ cc ∈ [Cond.nz, .z, .nc, .c], condMet { post with f := 0x00 } cc ≠ condMet { post with f := 0x90 } cc := by decide

/-- SystemInstructions: HALT with `ime` set, with nothing pending, and with an interrupt pending; a DMG. -/
theorem witness_SystemInstructions :
    { withInts 1 1 with ime := true }.ime = true ∧
    (∀ n < 5, ((withInts 0x1E 0x01).intEnable.getLsbD n && (withInts 0x1E 0x01).intFlags.getLsbD n) = false) ∧
    ((withInts 0x10 0x10).ime = false ∧
      ((withInts 0x10 0x10).intEnable.getLsbD 4 && (withInts 0x10 0x10).intFlags.getLsbD 4) = true) ∧
    State.reset.cgb = none := by decide +kernel

/-- SpeedSwitchRule: a CGB machine without and with a switch asked for, in each speed. -/
theorem witness_SpeedSwitchRule :
    ∀ g ∈ [Cgb.mk false false, Cgb.mk true false, Cgb.mk true true], { State.reset with cgb := some g }.cgb = some g := by
  decide +kernel

end Sys2Proof.Tests
end

/-! ### PUSH then POP: a stack in WRAM or HRAM (O43) -/

namespace Sys2Proof.Machine

/-- An address of WRAM or HRAM, where no lockout and no device stands between the CPU and the byte (R67, R72). -/
def inWorkRam (a : Word) : Prop := regionOf a = .wram ∨ regionOf a = .hram

/-- A stack pointer below which a pushed word lies in WRAM or HRAM. -/
def stackInWorkRam (sp : Word) : Prop := (0xC002 ≤ sp.toNat ∧ sp.toNat ≤ 0xE000) ∨ 0xFF82 ≤ sp.toNat

theorem inWorkRam_of_range {a : Word}
    (h : (0xC000 ≤ a.toNat ∧ a.toNat < 0xE000) ∨ (0xFF80 ≤ a.toNat ∧ a.toNat < 0xFFFF)) : inWorkRam a := by
  have hr := regionOf_range a
  unfold inWorkRam
  cases hreg : regionOf a <;> simp only [hreg, reduceCtorEq, or_true, true_or] at hr ⊢
  all_goals omega

theorem busRead_of_inWorkRam {a : Word} (h : inWorkRam a) (s : State) : busRead s a = Memory.read s.mem a.toNat := by
  rcases h with h | h <;> simp only [busRead, h]

theorem storeCell_of_inWorkRam {a : Word} (h : inWorkRam a) (s : State) : storeCell s a = some a.toNat := by
  rcases h with h | h <;> simp only [storeCell, ramCell, h]

/-- A write into WRAM or HRAM stores to its own cell only: it is no DMA. -/
theorem storesTo_of_inWorkRam {a : Word} (h : inWorkRam a) (s : State) (n : Nat) : storesTo s a n ↔ a.toNat = n := by
  have hdma : a ≠ 0xFF46#16 := by
    rintro rfl
    exact absurd h (by unfold inWorkRam; decide)
  simp [storesTo, storeCell_of_inWorkRam h, hdma]

theorem stackInWorkRam.cells {sp : Word} (h : stackInWorkRam sp) :
    inWorkRam (sp - 1#16) ∧ inWorkRam (sp - 2#16) ∧ (sp - 2#16).toNat ≠ (sp - 1#16).toNat := by
  unfold stackInWorkRam at h
  have h1 : (sp - 1#16).toNat = sp.toNat - 1 := by bv_omega
  have h2 : (sp - 2#16).toNat = sp.toNat - 2 := by bv_omega
  exact ⟨inWorkRam_of_range (by omega), inWorkRam_of_range (by omega), by omega⟩

/-- A word stored below SP is the word a pop takes from there, and SP is back where it was (R17). -/
theorem pop16_of_storedTwo {s t : State} {v : Word} {k : Nat} (hm : Memory.wf s.mem = true)
    (hstack : stackInWorkRam s.regs.sp) (hsp : t.regs.sp = s.regs.sp - 2#16)
    (hst : StoredTwo s (s.regs.sp - 1#16) (hiByte v) (s.regs.sp - 2#16) (loByte v) k t) :
    (pop16 t).1 = v ∧ (pop16 t).2.regs.sp = s.regs.sp := by
  obtain ⟨hhi, hlo, hne⟩ := hstack.cells
  have hup1 : t.regs.sp + 1#16 = s.regs.sp - 1#16 := by rw [hsp]; bv_omega
  have hup2 : t.regs.sp + 2#16 = s.regs.sp := by rw [hsp]; bv_omega
  have hreadHi : Memory.read t.mem (s.regs.sp - 1#16).toNat = hiByte v :=
    hst.first hm _ (storeCell_of_inWorkRam hhi s) (by rwa [storesTo_of_inWorkRam hlo])
  have hreadLo : Memory.read t.mem (s.regs.sp - 2#16).toNat = loByte v :=
    hst.second hm _ (storeCell_of_inWorkRam hlo _)
  rw [pop16_eq, hup1, hup2, hsp]
  refine ⟨?_, rfl⟩
  rw [busRead_of_inWorkRam hhi, busRead_of_inWorkRam hlo, afterRead_mem, hreadHi, hreadLo, wordOf_hiByte_loByte]

/-- `Push16` and `k` more T-cycles store the high byte at SP - 1 and the low byte at SP - 2 (R17). -/
theorem storedTwo_push16 (s : State) (v : Word) (k : Nat) (hk : k % 2 = 0) :
    StoredTwo s (s.regs.sp - 1#16) (hiByte v) (s.regs.sp - 2#16) (loByte v) (4 + k) (tick k (push16 s v)) := by
  rw [push16_eq, tick_withRegs]
  exact (storedTwo_memWrite s _ _ _ _ k hk).withRegs _

theorem push16_sp (s : State) (v : Word) : (push16 s v).regs.sp = s.regs.sp - 2#16 := by rw [push16_eq]; rfl

/-- A byte of F read back as the low half of AF has its low nibble clear (R23). -/
theorem wordOf_lowNibbleClear (v : Word) : wordOf (hiByte v) (loByte v &&& 0xF0#8) = v &&& 0xFFF0#16 := by
  have hmask : (0xFFF0#16 : Word) = 0xFF#8 ++ 0xF0#8 := by decide
  have hv : v = hiByte v ++ loByte v := (wordOf_hiByte_loByte v).symm
  conv_rhs => rw [hv, hmask, BitVec.and_append]
  rw [show hiByte v &&& 0xFF#8 = hiByte v from BitVec.and_allOnes]
  rfl

/-- A pair of POP read back after its write (R165). -/
theorem Regs.stackPair_setStackPair_same (g : Regs) (q : R16Stk) (v : Word) :
    (g.setStackPair q v).stackPair q = if q = .af then v &&& 0xFFF0#16 else v := by
  cases q with
  | bc => exact Regs.pair_setPair_same g .bc v
  | de => exact Regs.pair_setPair_same g .de v
  | hl => exact Regs.pair_setPair_same g .hl v
  | af => exact wordOf_lowNibbleClear v

/-- Settles O43: the pushed bytes stand at SP - 1 and SP - 2, in cells of their own, and the pop reads them there. -/
theorem pushPopRoundTrip : Obligations.PushPopRoundTrip := by
  intro s p q hm hstack
  have hst := storedTwo_push16 s (s.regs.stackPair p) 4 rfl
  obtain ⟨hword, hback⟩ := pop16_of_storedTwo hm hstack (by rw [tick_regs, push16_sp]) hst
  refine ⟨_, _, rfl, rfl, ?_, ?_⟩
  · exact (Regs.setStackPair_sp _ q _).trans hback
  · exact (Regs.stackPair_setStackPair_same _ q _).trans (by rw [State.r16Stk, hword])

end Sys2Proof.Machine

/-! ### The invariant through one step (O13) -/

namespace Sys2Proof.Machine

/-! Register writes, and the reads and writes of the stack, in the order of Machine/Operands.lean and Machine/Ops.lean. -/

theorem State.Inv.lowNibbleClear {s : State} (h : s.Inv) : s.regs.f &&& 0x0F#8 = 0#8 :=
  ((State.inv_iff s).1 h).1.1

/-- `ime` and the `EI` delay may be set as the rules set them (R29, R293, R294, R310). -/
theorem State.Inv.withImeDelay {s : State} (h : s.Inv) (b : Bool) {n : Nat} (hn : n ≤ 2) :
    State.Inv { s with ime := b, imePending := n } := by
  rw [State.inv_iff] at h ⊢
  exact ⟨⟨h.1.1, hn⟩, h.2⟩

/-- IF and the CGB state are under no rule of the invariant. -/
theorem State.Inv.withIntFlags {s : State} (h : s.Inv) (f : BitVec 5) : State.Inv { s with intFlags := f } := h

theorem State.Inv.withCgb {s : State} (h : s.Inv) (g : Option Cgb) : State.Inv { s with cgb := g } := h

section
variable {s : State} (h : s.Inv)
include h

theorem setR8_inv (r : R8) (v : Byte) : (s.setR8 r v).Inv :=
  withRegs_inv h (by rw [Regs.set_f]; exact h.lowNibbleClear)

theorem setR16_inv (p : R16) (v : Word) : (s.setR16 p v).Inv :=
  withRegs_inv h (by rw [Regs.setPair_f]; exact h.lowNibbleClear)

theorem setR16Stk_inv (p : R16Stk) (v : Word) : (s.setR16Stk p v).Inv := by
  cases p with
  | bc => exact setR16_inv h .bc v
  | de => exact setR16_inv h .de v
  | hl => exact setR16_inv h .hl v
  | af => exact withRegs_inv h (setF_low _ _)

theorem setFlags_inv (fl : Flags) : (s.setFlags fl).Inv := withRegs_inv h (setF_low _ _)

theorem setAFlags_inv (r : Byte × Flags) : (s.setAFlags r).Inv := setFlags_inv (setR8_inv h .a r.1) r.2

theorem setPc_inv (v : Word) : (s.setPc v).Inv := withRegs_inv h h.lowNibbleClear

theorem push16_inv (v : Word) : (push16 s v).Inv := by
  rw [push16_eq]
  exact withRegs_inv (memWrite_inv _ _ (memWrite_inv _ _ h)) h.lowNibbleClear

theorem pop16_inv : (pop16 s).2.Inv := by
  rw [pop16_eq]
  exact withRegs_inv (afterRead_inv _ (afterRead_inv _ h)) h.lowNibbleClear

theorem callTo_inv (target : Word) : (callTo s target).Inv := setPc_inv (push16_inv h _) target

theorem popPc_inv : (popPc s).Inv := setPc_inv (pop16_inv h) _

theorem memWrite16_inv (a v : Word) : (memWrite16 s a v).Inv := memWrite_inv _ _ (memWrite_inv _ _ h)

theorem fetch8_inv : (fetch8 s).2.Inv := setPc_inv (afterRead_inv _ h) _

theorem afterBytes_inv (n : Nat) : (afterBytes s n).Inv := by
  induction n with
  | zero => exact h
  | succ n ih => exact afterRead_inv _ ih

theorem fetchInstr_inv : (fetchInstr s).2.Inv := by
  rw [fetchInstr_eq]
  exact withRegs_inv (afterBytes_inv h _) h.lowNibbleClear

theorem wake_inv : (wake s).Inv := by
  rw [wake_eq]
  exact h

theorem dispatch_inv : (dispatch s).Inv := by
  have hentry := (h.withIntFlags (s.intFlags &&& ~~~(1#5 <<< leastBit (pending s)))).withImeDelay false (Nat.zero_le 2)
  exact tick_inv 12 (callTo_inv hentry _)

theorem returnFromInterrupt_inv : (returnFromInterrupt s).Inv := tick_inv 4 (popPc_inv h)

theorem speedSwitch_inv (g : Cgb) : (speedSwitch g s).Inv :=
  (tick_inv 128 (h.withCgb _)).withCgb _

/-! The shapes that several instructions share. -/

theorem loadFrom_inv (a : Word) (r : R8) : (loadFrom a r s).Inv := setR8_inv (afterRead_inv a h) r _

theorem accAtHl_inv (f : Byte → Byte → Byte × Flags) : (accAtHl f s).Inv := setAFlags_inv (afterRead_inv _ h) _

theorem modifyAtHl_inv (f : Byte → Flags → Byte × Flags) : (modifyAtHl f s).Inv :=
  setFlags_inv (memWrite_inv _ _ (afterRead_inv _ h)) _

theorem rotateReg_inv (f : Rot) (r : R8) : (rotateReg f r s).Inv := setFlags_inv (setR8_inv h r _) _

theorem rotateAtHl_inv (f : Rot) : (rotateAtHl f s).Inv := setFlags_inv (memWrite_inv _ _ (afterRead_inv _ h)) _

theorem bitTestAtHl_inv (b : Fin 8) : (bitTestAtHl b s).Inv := setFlags_inv (afterRead_inv _ h) _

theorem changeAtHl_inv (f : Byte → Byte) : (changeAtHl f s).Inv := memWrite_inv _ _ (afterRead_inv _ h)

end

/-- A step or a meaning that goes on, goes on in a state with the invariant. -/
def NextInv (o : Host.Outcome State Fault Refusal) : Prop := ∀ t, o = .next t → t.Inv

theorem NextInv.next {s : State} (h : s.Inv) : NextInv (.next s) := by
  rintro t ⟨⟩
  exact h

theorem NextInv.fault (r : Fault) : NextInv (.fault r) := by
  rintro t ⟨⟩

theorem NextInv.ite {p : Prop} [Decidable p] {o o' : Host.Outcome State Fault Refusal} (h : NextInv o) (h' : NextInv o') :
    NextInv (if p then o else o') := by
  split
  · exact h
  · exact h'

theorem undefinedOpcode_nextInv {s : State} (h : s.Inv) (op : Byte) : NextInv (undefinedOpcode op s) := by
  rcases undefinedOpcode_cases op s with ⟨-, e⟩ | ⟨-, e⟩ <;> rw [e]
  · exact .fault _
  · exact .next h

theorem execStop_nextInv {s : State} (h : s.Inv) : NextInv (execStop s) := by
  unfold execStop
  split
  · exact .ite (.next (speedSwitch_inv h _)) (.next h)
  · exact .next h

theorem runCbOperation_inv {s : State} (h : s.Inv) (k : Byte) : (runCbOperation k s).Inv := by
  unfold runCbOperation
  dsimp only
  split
  · exact rotateReg_inv h _ _
  · exact rotateAtHl_inv h _
  · exact setFlags_inv h _
  · exact bitTestAtHl_inv h _
  · exact setR8_inv h _ _
  · exact changeAtHl_inv h _
  · exact setR8_inv h _ _
  · exact changeAtHl_inv h _

/-- Every instruction's meaning keeps the invariant. -/
theorem exec_nextInv {s : State} (h : s.Inv) (i : Instr) : NextInv (exec i s) := by
  cases i
  -- a byte register written from a register, an operand or memory
  case ldRR | ldRN | resR | setR => exact .next (setR8_inv h _ _)
  case ldRAtHl | ldAAtBc | ldAAtDe | ldAAtNn | ldhAAtC | ldhAAtN => exact .next (loadFrom_inv h _ _)
  case ldAAtHli | ldAAtHld => exact .next (setR16_inv (loadFrom_inv h _ _) _ _)
  -- memory written
  case ldAtHlR | ldAtHlN | ldAtBcA | ldAtDeA | ldAtNnA | ldhAtCA | ldhAtNA => exact .next (memWrite_inv _ _ h)
  case ldAtHliA | ldAtHldA => exact .next (setR16_inv (memWrite_inv _ _ h) _ _)
  case ldAtNnSp => exact .next (memWrite16_inv h _ _)
  case resAtHl | setAtHl => exact .next (changeAtHl_inv h _)
  case incAtHl | decAtHl => exact .next (modifyAtHl_inv h _)
  case rlcAtHl | rrcAtHl | rlAtHl | rrAtHl | slaAtHl | sraAtHl | swapAtHl | srlAtHl => exact .next (rotateAtHl_inv h _)
  -- pairs and the stack
  case ldRrNn => exact .next (setR16_inv h _ _)
  case ldSpHl | incRr | decRr => exact .next (tick_inv 4 (setR16_inv h _ _))
  case ldHlSpE | addHlRr => exact .next (tick_inv 4 (setFlags_inv (setR16_inv h _ _) _))
  case addSpE => exact .next (tick_inv 8 (setFlags_inv (setR16_inv h _ _) _))
  case push => exact .next (tick_inv 4 (push16_inv h _))
  case pop => exact .next (setR16Stk_inv (pop16_inv h) _ _)
  -- A and the flags
  case addR | adcR | subR | sbcR | andR | xorR | orR | cpR | addN | adcN | subN | sbcN | andN | xorN | orN | cpN | daa | cpl |
      rlca | rrca | rla | rra => exact .next (setAFlags_inv h _)
  case addAtHl | adcAtHl | subAtHl | sbcAtHl | andAtHl | xorAtHl | orAtHl | cpAtHl => exact .next (accAtHl_inv h _)
  case scf | ccf | bitR => exact .next (setFlags_inv h _)
  case bitAtHl => exact .next (bitTestAtHl_inv h _)
  case incR | decR => exact .next (setFlags_inv (setR8_inv h _ _) _)
  case rlcR | rrcR | rlR | rrR | slaR | sraR | swapR | srlR => exact .next (rotateReg_inv h _ _)
  -- control flow
  case jpNn | jrE => exact .next (tick_inv 4 (setPc_inv h _))
  case jpCc | jrCc => exact .ite (.next (tick_inv 4 (setPc_inv h _))) (.next h)
  case jpHl => exact .next (setPc_inv h _)
  case callNn | rst => exact .next (tick_inv 4 (callTo_inv h _))
  case callCc => exact .ite (.next (tick_inv 4 (callTo_inv h _))) (.next h)
  case ret => exact .next (tick_inv 4 (popPc_inv h))
  case retCc => exact .ite (.next (tick_inv 8 (popPc_inv h))) (.next (tick_inv 4 h))
  case reti => exact .next (returnFromInterrupt_inv h)
  -- system
  case nop => exact .next h
  case halt => exact .ite (.next h) (.ite (.next h) (.next h))
  case stop => exact execStop_nextInv h
  case di => exact .next (h.withImeDelay false (Nat.zero_le 2))
  case ei => exact .next (h.withImeDelay s.ime (Nat.le_refl 2))
  case prefixCb => exact .next (runCbOperation_inv (fetch8_inv h) _)
  case undefD3 | undefDB | undefDD | undefE3 | undefE4 | undefEB | undefEC | undefED | undefF4 | undefFC | undefFD =>
    exact undefinedOpcode_nextInv h _

/-- What a step that goes on can be: 4 idle T-cycles, an interrupt taken, or an instruction and the `EI` delay (R300). -/
theorem step_cases {s t : State} (h : step s = .next t) :
    (idles (wake s) = true ∧ runsInstr s = false ∧ t = tick 4 (wake s)) ∨
      (idles (wake s) = false ∧ runsInstr s = false ∧ t = dispatch (wake s)) ∨
      (idles (wake s) = false ∧ runsInstr s = true ∧
        ∃ u, exec (fetchInstr (wake s)).1 (fetchInstr (wake s)).2 = .next u ∧ t = eiDelay u) := by
  unfold step at h
  unfold runsInstr
  dsimp only at h
  cases hidle : idles (wake s) with
  | true =>
    rw [hidle, if_pos rfl] at h
    cases h
    exact .inl ⟨rfl, rfl, rfl⟩
  | false =>
    rw [hidle, if_neg (by decide)] at h
    cases htake : takesInterrupt (wake s) with
    | true =>
      rw [htake, if_pos rfl] at h
      cases h
      exact .inr (.inl ⟨rfl, rfl, rfl⟩)
    | false =>
      rw [htake, if_neg (by decide), runInstr] at h
      split at h
      · next u hu =>
        cases h
        exact .inr (.inr ⟨rfl, rfl, u, hu, rfl⟩)
      · cases h
      · cases h

/-- Settles O13: idling is time, and interrupt entry and every instruction keep the invariant through their operations. -/
theorem stepKeepsInvariant : Obligations.StepKeepsInvariant := by
  intro s t h hstep
  have hwake := wake_inv h
  rcases step_cases hstep with ⟨-, -, rfl⟩ | ⟨-, -, rfl⟩ | ⟨-, -, u, hu, rfl⟩
  · exact tick_inv 4 hwake
  · exact dispatch_inv hwake
  · exact eiDelay_inv (exec_nextInv (fetchInstr_inv hwake) _ u hu)

end Sys2Proof.Machine

/-! ### Who sets `ime`, the halt bug and the stopped state (O8) -/

namespace Sys2Proof.Machine

/-! The instruction a step runs is the one its bytes encode, and never the lone prefix. -/

/-- A fetched instruction is the decoder's reading of the bytes at PC (R109, R306). -/
theorem fetches_fetchInstr (s : State) : fetches s (fetchInstr (wake s)).1 := by
  have hle := operandBytes_le (codeByte (wake s) 0)
  rw [fetches, fetchInstr_eq]
  dsimp only [decode]
  rcases hn : operandBytes (codeByte (wake s) 0) with _ | _ | _ | n
  · exact ⟨_, rfl⟩
  · exact ⟨_, rfl⟩
  · exact ⟨_, rfl⟩
  · omega

theorem decodeCb_ne_prefixCb (k : Byte) : decodeCb k ≠ .prefixCb := by
  unfold decodeCb decodeRot
  split <;> split <;> (try split) <;> nofun

theorem decodeX0_ne_prefixCb (op n1 n2 : Byte) : decodeX0 op n1 n2 ≠ .prefixCb := by
  unfold decodeX0
  split <;> (try split) <;> nofun

theorem decodeX1_ne_prefixCb (op : Byte) : decodeX1 op ≠ .prefixCb := by
  unfold decodeX1
  split <;> nofun

theorem decodeX2_ne_prefixCb (op : Byte) : decodeX2 op ≠ .prefixCb := by
  unfold decodeX2
  split <;> split <;> nofun

theorem decodeX3_eq_prefixCb {op n1 n2 : Byte} (h : decodeX3 op n1 n2 = .prefixCb) :
    (opZ op).toNat = 3 ∧ (opY op).toNat = 1 := by
  unfold decodeX3 at h
  split at h
  case h_4 hz =>
    split at h
    case h_2 hy => exact ⟨hz, hy⟩
    all_goals nomatch h
  all_goals (try split at h) <;> nomatch h

/-- The slot of the prefix among the fields of R102. -/
theorem isPrefixCb_of_fields (op : Byte) (hx : 3 ≤ (opX op).toNat) (hz : (opZ op).toNat = 3) (hy : (opY op).toNat = 1) :
    isPrefixCb op = true := by
  revert op
  decide +kernel

/-- In the primary table only the prefix byte is the lone prefix (R105, R295). -/
theorem isPrefixCb_of_decodePrimary {op n1 n2 : Byte} (h : decodePrimary op n1 n2 = .prefixCb) : isPrefixCb op = true := by
  unfold decodePrimary at h
  rcases hx : (opX op).toNat with _ | _ | _ | x <;> rw [hx] at h
  · exact absurd h (decodeX0_ne_prefixCb _ _ _)
  · exact absurd h (decodeX1_ne_prefixCb _)
  · exact absurd h (decodeX2_ne_prefixCb _)
  · obtain ⟨hz, hy⟩ := decodeX3_eq_prefixCb h
    exact isPrefixCb_of_fields op (by omega) hz hy

theorem decodeBytes_ne_prefixCb (op n1 n2 : Byte) : decodeBytes op n1 n2 ≠ .prefixCb := by
  unfold decodeBytes
  split
  · exact decodeCb_ne_prefixCb n1
  · next h => exact fun hp => h (isPrefixCb_of_decodePrimary hp)

theorem fetchInstr_ne_prefixCb (s : State) : (fetchInstr s).1 ≠ .prefixCb := by
  rw [fetchInstr_eq]
  exact decodeBytes_ne_prefixCb _ _ _

/-- What instruction `i` may do to the CPU's control state, from `s` to `t`. -/
structure ControlMoves (i : Instr) (s t : State) : Prop where
  ime : t.ime = true → s.ime = true ∨ i = .reti
  imePending : t.imePending = 1 → s.imePending = 1
  haltBug : t.haltBug = true → s.haltBug = true ∨ i = .halt
  stops : t.stopped = true → s.stopped = true ∨ i = .stop

theorem ControlMoves.of_runs {i : Instr} {k : Nat} {s t : State} (h : Runs k s t) : ControlMoves i s t where
  ime ht := .inl (h.ime ▸ ht)
  imePending ht := h.imePending ▸ ht
  haltBug ht := .inl (h.haltBug ▸ ht)
  stops ht := .inl (h.stopped ▸ ht)

/-! The control state after each of the five instructions that write it, and after every other. -/

theorem execHalt_controlMoves {s t : State} (h : execHalt s = .next t) : ControlMoves .halt s t := by
  unfold execHalt at h
  split_ifs at h <;> cases h <;> exact ⟨.inl, id, fun _ => .inr rfl, .inl⟩

@[simp] theorem speedSwitch_ime (g : Cgb) (s : State) : (speedSwitch g s).ime = s.ime := by simp [speedSwitch]
@[simp] theorem speedSwitch_imePending (g : Cgb) (s : State) : (speedSwitch g s).imePending = s.imePending := by
  simp [speedSwitch]
@[simp] theorem speedSwitch_haltBug (g : Cgb) (s : State) : (speedSwitch g s).haltBug = s.haltBug := by simp [speedSwitch]

theorem speedSwitch_controlMoves (g : Cgb) (s : State) : ControlMoves .stop s (speedSwitch g s) := by
  constructor <;> simp +contextual

theorem execStop_controlMoves {s t : State} (h : execStop s = .next t) : ControlMoves .stop s t := by
  unfold execStop at h
  split at h
  · split at h <;> (rw [Host.Outcome.next.injEq] at h; subst h)
    · exact speedSwitch_controlMoves _ s
    · exact ⟨.inl, id, .inl, fun _ => .inr rfl⟩
  · cases h
    exact ⟨.inl, id, .inl, fun _ => .inr rfl⟩

theorem execReti_controlMoves {s t : State} (h : execReti s = .next t) : ControlMoves .reti s t := by
  cases h
  rw [returnFromInterrupt_eq]
  exact ⟨fun _ => .inr rfl, fun ht => by simpa using ht, fun ht => .inl (by simpa using ht), fun ht => .inl (by simpa using ht)⟩

/-- Only RETI sets `ime`, only HALT the halt bug, only STOP the stopped state. -/
theorem exec_controlMoves {i : Instr} {s t : State} (h : exec i s = .next t) (hi : i ≠ .prefixCb) : ControlMoves i s t := by
  rcases em (i = .reti ∨ i = .di ∨ i = .ei ∨ i = .halt ∨ i = .stop) with (rfl | rfl | rfl | rfl | rfl) | hother
  · exact execReti_controlMoves h
  · cases h
    exact ⟨nofun, nofun, .inl, .inl⟩
  · cases h
    exact ⟨.inl, nofun, .inl, .inl⟩
  · exact execHalt_controlMoves h
  · exact execStop_controlMoves h
  · simp only [not_or] at hother
    obtain ⟨hreti, hdi, hei, hhalt, hstop⟩ := hother
    obtain ⟨k, hruns, -⟩ := exec_runs h hreti hdi hei hhalt hstop hi
    exact .of_runs hruns

@[simp] theorem eiDelay_haltBug (s : State) : (eiDelay s).haltBug = s.haltBug := by
  rcases eiDelay_cases s with ⟨-, e⟩ | ⟨-, e⟩ | ⟨-, e⟩ <;> rw [e]

@[simp] theorem eiDelay_stopped (s : State) : (eiDelay s).stopped = s.stopped := by
  rcases eiDelay_cases s with ⟨-, e⟩ | ⟨-, e⟩ | ⟨-, e⟩ <;> rw [e]

/-- The `EI` delay sets `ime` when it ends (R308). -/
theorem eiDelay_ime {s : State} (h : (eiDelay s).ime = true) : s.ime = true ∨ s.imePending = 1 := by
  rcases eiDelay_cases s with ⟨-, e⟩ | ⟨h1, e⟩ | ⟨-, e⟩
  · exact .inl (e ▸ h)
  · exact .inr h1
  · exact .inl (e ▸ h :)

@[simp] theorem wake_ime (s : State) : (wake s).ime = s.ime := by simp [wake_eq]
@[simp] theorem wake_imePending (s : State) : (wake s).imePending = s.imePending := by simp [wake_eq]
@[simp] theorem wake_haltBug (s : State) : (wake s).haltBug = s.haltBug := by simp [wake_eq]
@[simp] theorem wake_stopped (s : State) : (wake s).stopped = s.stopped := by simp [wake_eq]

@[simp] theorem dispatch_ime (s : State) : (dispatch s).ime = false := by simp [dispatch, callTo_eq]
@[simp] theorem dispatch_haltBug (s : State) : (dispatch s).haltBug = s.haltBug := by simp [dispatch, callTo_eq]
@[simp] theorem dispatch_stopped (s : State) : (dispatch s).stopped = s.stopped := by simp [dispatch, callTo_eq]

/-- The control state after the bytes are fetched: the halt bug is used up, the rest is kept (R306). -/
theorem fetchInstr_control (s : State) :
    (fetchInstr s).2.haltBug = false ∧ (fetchInstr s).2.ime = s.ime ∧ (fetchInstr s).2.imePending = s.imePending ∧
      (fetchInstr s).2.stopped = s.stopped := by
  rw [fetchInstr_eq]
  have hf := Runs.fetch s (1 + operandBytes (codeByte s 0))
  exact ⟨hf.haltBug, hf.ime, hf.imePending, hf.stopped⟩

/-- A step without an instruction sets none of the three and ends neither a halt bug nor a stop. -/
theorem step_control_of_idle {s t : State} (h : step s = .next t) (hrun : runsInstr s = false) :
    (t.ime = true → s.ime = true) ∧ t.haltBug = s.haltBug ∧ t.stopped = s.stopped := by
  rcases step_cases h with ⟨-, -, rfl⟩ | ⟨-, -, rfl⟩ | ⟨-, hrun', -⟩
  · exact ⟨fun ht => by simpa using ht, by simp, by simp⟩
  · exact ⟨fun ht => by simp at ht, by simp, by simp⟩
  · exact absurd hrun' (by simp [hrun])

/-- A step with an instruction: it is not stopped, the halt bug is used up, and the instruction does the rest. -/
theorem step_control_of_runs {s t : State} (h : step s = .next t) (hrun : runsInstr s = true) :
    s.stopped = false ∧ ∃ i, fetches s i ∧ (t.ime = true → s.ime = true ∨ i = .reti ∨ s.imePending = 1) ∧
      (t.haltBug = true → i = .halt) ∧ (t.stopped = true → i = .stop) := by
  rcases step_cases h with ⟨-, hrun', -⟩ | ⟨-, hrun', -⟩ | ⟨hidle, -, u, hu, rfl⟩
  · exact absurd hrun (by simp [hrun'])
  · exact absurd hrun (by simp [hrun'])
  · have hstop : s.stopped = false := by
      rw [idles, Bool.or_eq_false_iff, wake_stopped] at hidle
      exact hidle.2
    obtain ⟨hbug, hime, hpend, hstopped⟩ := fetchInstr_control (wake s)
    have hmoves := exec_controlMoves hu (fetchInstr_ne_prefixCb _)
    refine ⟨hstop, _, fetches_fetchInstr s, fun ht => ?_, fun ht => ?_, fun ht => ?_⟩
    · rw [wake_ime] at hime
      rw [wake_imePending] at hpend
      rcases eiDelay_ime ht with ht | ht
      · rw [← hime, ← or_assoc]
        exact .inl (hmoves.ime ht)
      · exact .inr (.inr (hpend ▸ hmoves.imePending ht))
    · simpa [hbug] using hmoves.haltBug (by simpa using ht)
    · simpa [hstopped, hstop] using hmoves.stops (by simpa using ht)

/-- Settles O8: a step without an instruction keeps or clears the three; one with an instruction sets of them only what
that instruction, or the end of the `EI` delay, sets. -/
theorem whoSetsControlState : Obligations.WhoSetsControlState := by
  intro s t hstep
  cases hrun : runsInstr s with
  | false =>
    obtain ⟨hime, hbug, hstop⟩ := step_control_of_idle hstep hrun
    refine ⟨fun h0 ht => ?_, fun ht => .inr ⟨rfl, hbug ▸ ht⟩, fun h0 => hstop ▸ h0, fun h0 ht => ?_⟩
    · exact absurd (hime ht) (by simp [h0])
    · exact absurd (hstop ▸ ht) (by simp [h0])
  | true =>
    obtain ⟨hstop, i, hfetch, hime, hbug, hstops⟩ := step_control_of_runs hstep hrun
    refine ⟨fun h0 ht => ⟨rfl, ?_⟩, fun ht => .inl ⟨rfl, hbug ht ▸ hfetch⟩, fun h0 => ?_,
      fun _ ht => ⟨rfl, hstops ht ▸ hfetch⟩⟩
    · rcases hime ht with h | h | h
      · exact absurd h (by simp [h0])
      · exact .inl (h ▸ hfetch)
      · exact .inr h
    · exact absurd h0 (by simp [hstop])

end Sys2Proof.Machine

/-! ### The launch states (O14, O15, O16) -/

namespace Sys2Proof.Machine

/-! A launch state is in step with its position, as the invariant asks, and the host's events keep it so. -/

theorem State.LaunchWf.inv {s : State} (h : s.LaunchWf) : s.Inv := by
  obtain ⟨hcpu, htimer, hdma, hranges, hfrozen, hmode, hmem⟩ := h
  exact ⟨hcpu, htimer, hdma, hranges, hfrozen, fun hon => .inl (hmode hon), hmem⟩

theorem joypadEdge_inv {s : State} (h : s.Inv) : (joypadEdge s).Inv := raise_inv 4 h

/-- A run never leaves the invariant. -/
theorem Reaches.inv {s t : State} (h : Reaches s t) (hs : s.Inv) : t.Inv := by
  induction h with
  | start => exact hs
  | step _ hstep ih => exact stepKeepsInvariant _ _ ih hstep
  | edge _ ih => exact joypadEdge_inv ih
  | event n flags _ ih => exact extIoEvent_inv n flags ih

/-- Settles O14, by induction on the run. -/
theorem reachableStatesKeepInvariant : Obligations.ReachableStatesKeepInvariant :=
  ⟨fun _ => State.LaunchWf.inv, fun _ => joypadEdge_inv, fun _ => extIoEvent_inv, fun _ _ hs hreach => hreach.inv hs.inv⟩

/-! The two launch profiles (R41, R42). -/

theorem lcdOn_postBoot (sprites : List (Fin 40)) : lcdOn (Ppu.postBoot sprites) = true := by
  show (0x91#8).getLsbD 7 = true
  decide

theorem lcdOn_powerOn : lcdOn Ppu.powerOn = false := by decide

theorem postBoot_frozenRule (sprites : List (Fin 40)) : FrozenRule (Ppu.postBoot sprites) :=
  fun hoff => absurd (lcdOn_postBoot sprites) (by simp [hoff])

theorem powerOn_modeByPosition : ModeByPosition Ppu.powerOn := fun hon => absurd lcdOn_powerOn (by simp [hon])

theorem launchPostBoot_launchWf {image : List Host.Cell} (policy : UndefPolicy) (cart : Cart) (extIo : ExtIo)
    (hwf : Memory.wf image = true) (hbacked : image.all (fun c => backed c.1) = true) :
    (State.launchPostBoot image policy cart extIo).LaunchWf := by
  have hf : Regs.postBoot.f &&& 0x0F#8 = 0#8 := by decide
  have hranges : PpuRanges (Ppu.postBoot (spritesOfLine image (spriteHeight (Ppu.postBoot [])) 0)) :=
    ⟨Nat.zero_le 153, Nat.zero_le 455, spritesOfLine_length _ _ _⟩
  exact ⟨⟨hf, Nat.zero_le 2⟩, Nat.zero_le 4, Nat.zero_le 640, hranges, postBoot_frozenRule _, fun _ => rfl, hwf, rfl,
    hbacked, rfl⟩

theorem launchPowerOn_launchWf (g : Regs) {image bios : List Host.Cell} (policy : UndefPolicy) (cgb : Option Cgb) (cart : Cart)
    (extIo : ExtIo) (hwf : Memory.wf image = true) (hbacked : image.all (fun c => backed c.1) = true)
    (hbios : Memory.wf bios = true) (hlow : bios.all (fun c => decide (c.1 ≤ 0x08FF)) = true) :
    (State.launchPowerOn g image bios policy cgb cart extIo).LaunchWf := by
  have hranges : PpuRanges Ppu.powerOn := ⟨Nat.zero_le 153, Nat.zero_le 455, Nat.zero_le 10⟩
  exact ⟨⟨setF_low g g.f, Nat.zero_le 2⟩, Nat.zero_le 4, Nat.zero_le 640, hranges, fun _ => ⟨rfl, rfl, rfl⟩,
    powerOn_modeByPosition, hwf, hbios, hbacked, hlow⟩

/-- With nothing listed in OAM no sprite is on line 0: each stands 16 lines above the screen (R398). -/
theorem spritesOfLine_nil : spritesOfLine [] 8 0 = [] := by decide +kernel

/-- Reset is the profile `post_boot` at the spec's defaults (R6, R42). -/
theorem launchPostBoot_defaults : State.launchPostBoot [] .fault .noMbc .absent = State.reset := by
  have hscan : spritesOfLine [] (spriteHeight (Ppu.postBoot [])) 0 = [] := spritesOfLine_nil
  rw [State.launchPostBoot, hscan]
  rfl

/-- Settles O15: reset is `post_boot` with nothing listed, so the two profiles cover it. -/
theorem namedLaunchStatesWellFormed : Obligations.NamedLaunchStatesWellFormed := by
  refine ⟨?_, fun image bios policy g cgb cart extIo hwf hbacked hbios hlow => ⟨?_, ?_⟩⟩
  · rw [← launchPostBoot_defaults]
    exact launchPostBoot_launchWf .fault .noMbc .absent rfl rfl
  · exact launchPostBoot_launchWf policy cart extIo hwf hbacked
  · exact launchPowerOn_launchWf g policy cgb cart extIo hwf hbacked hbios hlow

theorem reset_framebuffer (y : Fin 144) (x : Fin 160) : State.reset.ppu.framebuffer[y][x] = 0#2 := by
  simp [State.reset, Ppu.postBoot]

/-- Settles O16: every listed value is the field's own, but for the framebuffer, the launch profile and the sprite scan. -/
theorem resetValues : Obligations.ResetValues := by
  unfold Obligations.ResetValues
  dsimp only
  iterate 34 refine ⟨rfl, ?_⟩
  refine ⟨reset_framebuffer, rfl, fun _ => rfl, rfl, rfl, rfl, rfl, launchPostBoot_defaults, fun _ _ _ _ => rfl⟩

end Sys2Proof.Machine

/-! ### The map of the bus, from an address to what answers there (O30, O31, O32, O33) -/

namespace Sys2Proof.Machine

/-- The addresses of a region (R60). -/
def Region.Spans : Region → Nat → Prop
  | .rom, n => n < 0x8000
  | .vram, n => 0x8000 ≤ n ∧ n < 0xA000
  | .cartRam, n => 0xA000 ≤ n ∧ n < 0xC000
  | .wram, n => 0xC000 ≤ n ∧ n < 0xE000
  | .echo, n => 0xE000 ≤ n ∧ n < 0xFE00
  | .oam, n => 0xFE00 ≤ n ∧ n < 0xFEA0
  | .unusable, n => 0xFEA0 ≤ n ∧ n < 0xFF00
  | .io, n => 0xFF00 ≤ n ∧ n < 0xFF80
  | .hram, n => 0xFF80 ≤ n ∧ n < 0xFFFF
  | .ie, n => n = 0xFFFF

theorem regionOf_spans (a : Word) : (regionOf a).Spans a.toNat := by
  have hr := regionOf_range a
  cases hreg : regionOf a <;> rw [hreg] at hr <;> exact hr

/-- The regions share no address (R61). -/
theorem regionOf_of_spans (r : Region) {a : Word} (h : r.Spans a.toNat) : regionOf a = r := by
  unfold regionOf
  cases r <;> dsimp only [Region.Spans] at h ⊢
  case rom => exact if_pos h
  all_goals repeat rw [if_neg (by omega)]
  all_goals exact if_pos (by omega)

theorem regionOf_eq_iff {a : Word} {r : Region} : regionOf a = r ↔ r.Spans a.toNat :=
  ⟨fun h => h ▸ regionOf_spans a, regionOf_of_spans r⟩

theorem ite_some_eq_none_iff {α : Type} {p : Prop} [Decidable p] {x : α} {e : Option α} :
    (if p then some x else e) = none ↔ ¬ p ∧ e = none := by
  by_cases hp : p <;> simp [hp]

/-- EXT_IO answers the I/O addresses at which the block owns no register (R350, R71). -/
theorem extIoAddress_iff {a : Word} : extIoAddress a ↔ regionOf a = .io ∧ ioRegAt a = none := by
  rw [extIoAddress, ← and_assoc, regionOf_eq_iff]
  refine and_congr_right fun _ => ?_
  simp [ioRegAt, ite_some_eq_none_iff, BitVec.toNat_eq]

theorem biosOverlay_iff {s : State} {a : Word} :
    biosOverlay s a = true ↔ s.biosEnabled = true ∧ overlayAddress s a := by
  simp [biosOverlay, and_assoc]

/-! What answers a read. -/

theorem cartRead_rom {s : State} {a : Word} (hcart : s.cart = .noMbc) (ha : a.toNat < 0x8000) :
    cartRead s a = Memory.read s.mem a.toNat := by
  simp only [cartRead, hcart, if_pos ha]

theorem cartRead_noRam {s : State} {a : Word} (hcart : s.cart = .noMbc) (ha : 0x8000 ≤ a.toNat) :
    cartRead s a = 0xFF#8 := by
  simp only [cartRead, hcart, if_neg (Nat.not_lt.2 ha)]
  rfl

theorem cartRead_other {s : State} {rom n : Nat} (hcart : s.cart = .other rom n) (a : Word) :
    cartRead s a = Config.cartRead rom n a := by
  simp only [cartRead, hcart]

theorem busRead_overlay {s : State} {a : Word} (ha : a.toNat < 0x8000)
    (hover : s.biosEnabled = true ∧ overlayAddress s a) :
    busRead s a = Memory.read s.bios a.toNat := by
  simp only [busRead, regionOf_of_spans .rom ha, romRead, if_pos (biosOverlay_iff.2 hover)]

theorem busRead_rom {s : State} {a : Word} (ha : a.toNat < 0x8000)
    (hover : ¬ (s.biosEnabled = true ∧ overlayAddress s a)) :
    busRead s a = cartRead s a := by
  simp only [busRead, regionOf_of_spans .rom ha, romRead, if_neg (mt biosOverlay_iff.1 hover)]

theorem busRead_vram {a : Word} (ha : Region.vram.Spans a.toNat) (s : State) :
    busRead s a = if s.ppu.mode = .rendering then 0xFF#8 else Memory.read s.mem a.toNat := by
  simp only [busRead, regionOf_of_spans _ ha, vramLocked, beq_iff_eq, openBus]

theorem busRead_cartRam {a : Word} (ha : Region.cartRam.Spans a.toNat) (s : State) : busRead s a = cartRead s a := by
  simp only [busRead, regionOf_of_spans _ ha]

theorem busRead_echo {a : Word} (ha : Region.echo.Spans a.toNat) (s : State) :
    busRead s a = Memory.read s.mem (a.toNat - 0x2000) := by
  simp only [busRead, regionOf_of_spans _ ha]

theorem busRead_oam {a : Word} (ha : Region.oam.Spans a.toNat) (s : State) :
    busRead s a = if s.ppu.mode = .oamScan ∨ s.ppu.mode = .rendering ∨ 0 < s.dmaRemaining then 0xFF#8
      else Memory.read s.mem a.toNat := by
  simp only [busRead, regionOf_of_spans _ ha, oamLocked, Bool.or_eq_true, beq_iff_eq, decide_eq_true_eq, or_assoc, openBus]

theorem busRead_unusable {a : Word} (ha : Region.unusable.Spans a.toNat) (s : State) : busRead s a = 0xFF#8 := by
  simp only [busRead, regionOf_of_spans _ ha, openBus]

/-- IE reads with its upper three bits set (R352). -/
theorem busRead_ie {a : Word} (ha : a.toNat = 0xFFFF) (s : State) : (busRead s a).toNat = 0xE0 + s.intEnable.toNat := by
  have hread : busRead s a = 7#3 ++ s.intEnable := by simp only [busRead, regionOf_of_spans .ie ha, intRead]
  rw [hread, BitVec.toNat_append, ← Nat.shiftLeft_add_eq_or_of_lt s.intEnable.isLt]
  rfl

section
variable {a : Word} (ha : extIoAddress a) (s : State)
include ha

theorem busRead_extIo : busRead s a = extIoRead s a := by
  obtain ⟨hio, hnone⟩ := extIoAddress_iff.1 ha
  simp only [busRead, hio, hnone]

theorem readEffect_extIo : readEffect s a = extIoAfterRead s a := by
  obtain ⟨hio, hnone⟩ := extIoAddress_iff.1 ha
  simp only [readEffect, hio, hnone]

theorem busWrite_extIo (v : Byte) : busWrite s a v = extIoWrite s a v := by
  obtain ⟨hio, hnone⟩ := extIoAddress_iff.1 ha
  simp only [busWrite, hio, hnone]

end

/-! RAM: the cell that a CPU access reaches. -/

theorem storeCell_echo {a : Word} (ha : Region.echo.Spans a.toNat) (s : State) :
    storeCell s a = some (a.toNat - 0x2000) := by
  simp only [storeCell, ramCell, regionOf_of_spans _ ha]

theorem storeCell_vram {a : Word} (ha : Region.vram.Spans a.toNat) (s : State) :
    storeCell s a = if s.ppu.mode = .rendering then none else some a.toNat := by
  simp only [storeCell, ramCell, regionOf_of_spans _ ha, vramLocked, beq_iff_eq]

theorem storeCell_oam {a : Word} (ha : Region.oam.Spans a.toNat) (s : State) :
    storeCell s a = if s.ppu.mode = .rendering ∨ s.ppu.mode = .oamScan then none else some a.toNat := by
  simp only [storeCell, ramCell, regionOf_of_spans _ ha, oamLocked, Bool.or_eq_true, beq_iff_eq, or_comm]

theorem busWrite_of_storeCell {s : State} {a : Word} {n : Nat} (h : storeCell s a = some n) (v : Byte) :
    busWrite s a v = { s with mem := Memory.write s.mem n v } := by
  have hstore : busWrite s a v = storeByte s a v := by
    have hram := storeCell_ramCell h
    unfold ramCell at hram
    unfold busWrite
    cases hreg : regionOf a <;> simp only [hreg, reduceCtorEq] at hram ⊢
  rw [hstore, storeByte, h]

/-- A write to VRAM or OAM that the PPU's mode closes does nothing (R64, R69). -/
theorem busWrite_of_locked {s : State} {a : Word} (hregion : regionOf a = .vram ∨ regionOf a = .oam)
    (hlocked : storeCell s a = none) (v : Byte) : busWrite s a v = s := by
  rcases hregion with hreg | hreg <;> simp only [busWrite, hreg, storeByte, hlocked]

/-- Where a write reaches a cell, a read gives that cell; OAM apart, which a DMA closes to reads alone (D17). -/
theorem busRead_of_storeCell {s : State} {a : Word} {n : Nat} (h : storeCell s a = some n) (hoam : regionOf a ≠ .oam) :
    busRead s a = Memory.read s.mem n := by
  unfold storeCell ramCell at h
  unfold busRead
  cases hreg : regionOf a <;> simp only [hreg, reduceCtorEq] at h hoam ⊢
  case vram =>
    cases hlock : vramLocked s <;> simp_all
  case oam => exact absurd rfl hoam
  all_goals rw [Option.some.inj h]

/-- What a write to open RAM does: its own cell takes the byte, every other cell and the rest of the state stay. -/
theorem busWrite_ram_effect {s : State} {a : Word} {n : Nat} (h : storeCell s a = some n) (v : Byte) :
    (∀ m, m ≠ n → Memory.read (busWrite s a v).mem m = Memory.read s.mem m) ∧
      busWrite s a v = { s with mem := (busWrite s a v).mem } ∧
      (Memory.wf s.mem = true → Memory.read (busWrite s a v).mem n = v ∧
        (regionOf a ≠ .oam → busRead (busWrite s a v) a = v)) := by
  have hread (hm : Memory.wf s.mem = true) : Memory.read (busWrite s a v).mem n = v := busWrite_read_same hm h
  have hopen : storeCell (busWrite s a v) a = some n := by
    rw [busWrite_of_storeCell h]
    exact h
  refine ⟨fun m hm => ?_, ?_, fun hm => ⟨hread hm, fun hoam => ?_⟩⟩
  · rw [busWrite_of_storeCell h]
    exact Memory.read_write_other hm
  · rw [busWrite_of_storeCell h]
  · rw [busRead_of_storeCell hopen hoam, hread hm]

/-! What takes a write outside RAM and the registers. -/

theorem busWrite_cart {a : Word} (ha : cartAddress a) (s : State) (v : Byte) : busWrite s a v = cartWrite s a v := by
  rcases ha with ha | ha
  · simp only [busWrite, regionOf_of_spans .rom ha]
  · simp only [busWrite, regionOf_of_spans .cartRam ha]

theorem busWrite_unusable {a : Word} (ha : Region.unusable.Spans a.toNat) (s : State) (v : Byte) : busWrite s a v = s := by
  simp only [busWrite, regionOf_of_spans _ ha]

/-- Settles O30: each region's read by its own lemma, and a side effect at EXT_IO only. -/
theorem busReadMap : Obligations.BusReadMap := by
  intro s a
  refine ⟨fun ha hon hover => busRead_overlay ha ⟨hon, hover⟩,
    fun ha hover => ⟨fun hcart => ?_, fun rom n hcart => ?_⟩,
    fun h1 h2 => busRead_vram ⟨h1, h2⟩ s,
    fun h1 h2 => ⟨fun hcart => ?_, fun rom n hcart => ?_⟩,
    fun h1 h2 => busRead_of_inWorkRam (inWorkRam_of_range (.inl ⟨h1, h2⟩)) s,
    fun h1 h2 => busRead_echo ⟨h1, h2⟩ s,
    fun h1 h2 => busRead_oam ⟨h1, h2⟩ s,
    fun h1 h2 => busRead_unusable ⟨h1, h2⟩ s,
    fun h1 h2 => busRead_of_inWorkRam (inWorkRam_of_range (.inr ⟨h1, h2⟩)) s,
    fun ha => busRead_ie ha s,
    fun ha hext => ?_, fun n ha hext => ⟨?_, ?_⟩, fun h => readEffect_eq ?_⟩
  · rw [busRead_rom ha hover, cartRead_rom hcart ha]
  · rw [busRead_rom ha hover, cartRead_other hcart]
  · rw [busRead_cartRam ⟨h1, h2⟩, cartRead_noRam hcart (by omega)]
  · rw [busRead_cartRam ⟨h1, h2⟩, cartRead_other hcart]
  · rw [busRead_extIo ha, extIoRead, hext]
    rfl
  · rw [busRead_extIo ha, extIoRead, hext]
  · rw [readEffect_extIo ha, extIoAfterRead, hext]
    rfl
  · rw [extIoAddress_iff, not_and_or] at h
    exact h.symm

/-- WRAM, the echo and HRAM are open in every state: the cell is the address, or in the echo $2000 less. -/
theorem storeCell_alwaysOpen {a : Word}
    (ha : (0xC000 ≤ a.toNat ∧ a.toNat < 0xFE00) ∨ (0xFF80 ≤ a.toNat ∧ a.toNat < 0xFFFF)) (s : State) :
    storeCell s a = some (if 0xE000 ≤ a.toNat ∧ a.toNat < 0xFE00 then a.toNat - 0x2000 else a.toNat) ∧
      regionOf a ≠ .oam := by
  have hoam : regionOf a ≠ .oam := by
    rw [Ne, regionOf_eq_iff, Region.Spans]
    omega
  refine ⟨?_, hoam⟩
  by_cases hecho : 0xE000 ≤ a.toNat ∧ a.toNat < 0xFE00
  · rw [if_pos hecho, storeCell_echo hecho]
  · rw [if_neg hecho, storeCell_of_inWorkRam (inWorkRam_of_range (by omega))]

/-- Settles O31: RAM by the cell a CPU access reaches; a lockout is that there is none. -/
theorem ramWrites : Obligations.RamWrites := by
  intro s a v plain vram oam cell
  have hself (h : vram ∨ oam) : cell = a.toNat := if_neg (by omega)
  have hvramRegion (h : vram) : regionOf a ≠ .oam := by
    rw [regionOf_of_spans .vram h]
    decide
  refine ⟨fun h => ?_, ?_, fun h => ?_⟩
  · obtain ⟨hcell, hregion⟩ := storeCell_alwaysOpen h s
    exact busRead_of_storeCell hcell hregion
  · rintro (⟨h, hmode⟩ | ⟨h, hmode⟩)
    · exact busWrite_of_locked (.inl (regionOf_of_spans .vram h)) (by rw [storeCell_vram h, if_pos hmode]) v
    · exact busWrite_of_locked (.inr (regionOf_of_spans .oam h)) (by rw [storeCell_oam h, if_pos hmode]) v
  · have hopen : storeCell s a = some cell ∧ (oam ∨ regionOf a ≠ .oam) := by
      rcases h with h | ⟨h, hmode⟩ | ⟨h, hmode3, hmode2⟩
      · exact (storeCell_alwaysOpen h s).imp_right .inr
      · rw [storeCell_vram h, if_neg hmode, hself (.inl h)]
        exact ⟨rfl, .inr (hvramRegion h)⟩
      · rw [storeCell_oam h, if_neg (not_or.2 ⟨hmode3, hmode2⟩), hself (.inr h)]
        exact ⟨rfl, .inl h⟩
    obtain ⟨hcell, hreadable⟩ := hopen
    obtain ⟨hother, hframe, hsame⟩ := busWrite_ram_effect hcell v
    exact ⟨hother, hframe, fun hm => (hsame hm).imp_right fun hback => hreadable.imp_right hback⟩

/-- Settles O33: no cell and no register of the block is behind these addresses, and the defaults take nothing. -/
theorem deadWrites : Obligations.DeadWrites := by
  intro s a v
  refine ⟨fun ha => busWrite_unusable ha s v, fun ha => ?_, fun ha => ?_⟩
  · rw [busWrite_cart ha]
    refine ⟨fun hcart => ?_, fun rom n hcart => ?_⟩ <;> rw [cartWrite, hcart]
  · rw [busWrite_extIo ha]
    refine ⟨fun hext => ?_, fun n hext => ?_⟩ <;> rw [extIoWrite, hext]
    rfl

/-- Settles O32: both addresses reach the same cell of the memory image. -/
theorem echoIsWram : Obligations.EchoIsWram := by
  intro s a v h1 h2
  have hsub : (a - 0x2000#16).toNat = a.toNat - 0x2000 := by bv_omega
  have hwram : inWorkRam (a - 0x2000#16) := inWorkRam_of_range (by omega)
  have hecho : Region.echo.Spans a.toNat := ⟨h1, h2⟩
  have hread : busRead s a = Memory.read s.mem (a.toNat - 0x2000) := busRead_echo hecho s
  have hwrite : busWrite s a v = { s with mem := Memory.write s.mem (a.toNat - 0x2000) v } :=
    busWrite_of_storeCell (storeCell_echo hecho s) v
  refine ⟨hread, hwrite, ?_, ?_⟩
  · rw [hread, busRead_of_inWorkRam hwram, hsub]
  · rw [hwrite, busWrite_of_storeCell (storeCell_of_inWorkRam hwram s), hsub]

end Sys2Proof.Machine

/-! ### What no step changes: ROM, the BIOS image and the launch parameters (O17) -/

namespace Sys2Proof.Machine

/-- From `s` to `t` ROM, the BIOS image and the launch parameters are kept, and the BIOS is not mapped again (R8, R66,
R75). -/
structure FixedKept (s t : State) : Prop where
  rom : ∀ n < 0x8000, Memory.read t.mem n = Memory.read s.mem n
  bios : t.bios = s.bios
  overlay : t.biosEnabled = true → s.biosEnabled = true
  policy : t.undefPolicy = s.undefPolicy
  cgb : t.cgb.isSome = s.cgb.isSome
  cart : t.cart.romOf = s.cart.romOf
  extIo : t.extIo.isDevice = s.extIo.isDevice

theorem FixedKept.trans {s t u : State} (h : FixedKept s t) (h' : FixedKept t u) : FixedKept s u where
  rom n hn := (h'.rom n hn).trans (h.rom n hn)
  bios := h'.bios.trans h.bios
  overlay ht := h.overlay (h'.overlay ht)
  policy := h'.policy.trans h.policy
  cgb := h'.cgb.trans h.cgb
  cart := h'.cart.trans h.cart
  extIo := h'.extIo.trans h.extIo

/-- Time, register writes and bus writes change none of it. -/
theorem FixedKept.of_runs {k : Nat} {s t : State} (h : Runs k s t) : FixedKept s t :=
  ⟨h.rom, h.bios, h.overlay, h.policy, congrArg Option.isSome h.cgb, h.cart, h.extIo⟩

/-- The control state of the CPU and IF are no part of it. -/
theorem FixedKept.control (s : State) {ime halted stopped haltBug : Bool} {delay : Nat} {flags : BitVec 5} :
    FixedKept s { s with ime := ime, imePending := delay, halted := halted, stopped := stopped, haltBug := haltBug,
                         intFlags := flags } :=
  ⟨fun _ _ => rfl, rfl, id, rfl, rfl, rfl, rfl⟩

theorem wake_fixedKept (s : State) : FixedKept s (wake s) := by
  rw [wake_eq]
  exact .control s

theorem eiDelay_fixedKept (s : State) : FixedKept s (eiDelay s) := by
  rcases eiDelay_cases s with ⟨-, e⟩ | ⟨-, e⟩ | ⟨-, e⟩ <;> rw [e] <;> exact .control s

theorem fetchInstr_fixedKept (s : State) : FixedKept s (fetchInstr s).2 := by
  rw [fetchInstr_eq]
  exact (FixedKept.control s).trans (.of_runs (.fetch s _))

theorem dispatch_fixedKept (s : State) : FixedKept s (dispatch s) := by
  simp only [dispatch, callTo_eq]
  exact (FixedKept.control s).trans (.of_runs (.time (.regs (.write (.write (.refl _) _ _) _ _) _) 12))

theorem returnFromInterrupt_fixedKept (s : State) : FixedKept s (returnFromInterrupt s) := by
  rw [returnFromInterrupt_eq]
  have hruns : Runs 12 s (tick 4 (afterRead (afterRead s s.regs.sp) (s.regs.sp + 1#16))) :=
    .time (.read (.read (.refl s) _) _) 4
  exact (FixedKept.of_runs (hruns.regs _)).trans (.control _)

/-- The speed switch is a CGB's, and leaves a CGB (R425). -/
theorem speedSwitch_fixedKept {g : Cgb} {s : State} (hcgb : s.cgb = some g) : FixedKept s (speedSwitch g s) := by
  constructor <;> simp [speedSwitch, hcgb]

theorem execHalt_fixedKept {s t : State} (h : execHalt s = .next t) : FixedKept s t := by
  unfold execHalt at h
  split_ifs at h <;> cases h <;> exact .control s

theorem execStop_fixedKept {s t : State} (h : execStop s = .next t) : FixedKept s t := by
  unfold execStop at h
  split at h
  · next g hcgb =>
    split at h <;> (rw [Host.Outcome.next.injEq] at h; subst h)
    · exact speedSwitch_fixedKept hcgb
    · exact .control s
  · cases h
    exact .control s

theorem exec_fixedKept {i : Instr} {s t : State} (h : exec i s = .next t) (hi : i ≠ .prefixCb) : FixedKept s t := by
  rcases em (i = .reti ∨ i = .di ∨ i = .ei ∨ i = .halt ∨ i = .stop) with (rfl | rfl | rfl | rfl | rfl) | hother
  · cases h
    exact returnFromInterrupt_fixedKept s
  · cases h
    exact .control s
  · cases h
    exact .control s
  · exact execHalt_fixedKept h
  · exact execStop_fixedKept h
  · simp only [not_or] at hother
    obtain ⟨hreti, hdi, hei, hhalt, hstop⟩ := hother
    obtain ⟨k, hruns, -⟩ := exec_runs h hreti hdi hei hhalt hstop hi
    exact .of_runs hruns

/-- Every step is made of operations that keep it. -/
theorem step_fixedKept {s t : State} (h : step s = .next t) : FixedKept s t := by
  refine (wake_fixedKept s).trans ?_
  rcases step_cases h with ⟨-, -, rfl⟩ | ⟨-, -, rfl⟩ | ⟨-, -, u, hu, rfl⟩
  · exact .of_runs (.time (.refl _) 4)
  · exact dispatch_fixedKept _
  · exact ((fetchInstr_fixedKept _).trans (exec_fixedKept hu (fetchInstr_ne_prefixCb _))).trans (eiDelay_fixedKept u)

/-- Settles O17: the fields of `FixedKept`, kept by every step. -/
theorem fixedForLife : Obligations.FixedForLife := by
  intro s t hstep
  obtain ⟨hrom, hbios, hoverlay, hpolicy, hcgb, hcart, hextIo⟩ := step_fixedKept hstep
  exact ⟨hrom, hbios, hoverlay, hpolicy, hcgb, hcart, hextIo⟩

end Sys2Proof.Machine

/-! ### Decoding and encoding agree (O1, O2, O3) -/

namespace Sys2Proof.Machine

/-! The fields of an opcode (R102) and the index tables (R103), each undone by its inverse. -/

theorem opXYZ_fields (op : Byte) : opXYZ (opX op) (opY op) (opZ op) = op := by
  revert op
  decide +kernel

theorem fields_opXYZ (x : BitVec 2) (y z : BitVec 3) :
    opX (opXYZ x y z) = x ∧ opY (opXYZ x y z) = y ∧ opZ (opXYZ x y z) = z := by
  revert x y z
  decide +kernel

@[simp] theorem opX_opXYZ (x : BitVec 2) (y z : BitVec 3) : opX (opXYZ x y z) = x := (fields_opXYZ x y z).1

@[simp] theorem opY_opXYZ (x : BitVec 2) (y z : BitVec 3) : opY (opXYZ x y z) = y := (fields_opXYZ x y z).2.1

@[simp] theorem opZ_opXYZ (x : BitVec 2) (y z : BitVec 3) : opZ (opXYZ x y z) = z := (fields_opXYZ x y z).2.2

@[simp] theorem operandOf_index (r : R8) : operandOf r.index = .reg r := by
  cases r <;> rfl

@[simp] theorem operandOf_atHlIndex : operandOf atHlIndex = .atHl := rfl

theorem bv2_cases (x : BitVec 2) : x = 0#2 ∨ x = 1#2 ∨ x = 2#2 ∨ x = 3#2 := by
  revert x
  decide

theorem bv3_cases (y : BitVec 3) :
    y = 0#3 ∨ y = 1#3 ∨ y = 2#3 ∨ y = 3#3 ∨ y = 4#3 ∨ y = 5#3 ∨ y = 6#3 ∨ y = 7#3 := by
  revert y
  decide

/-- An index of column `r8` is a register's row, or row 6, the byte at HL. -/
theorem r8Index_cases (z : BitVec 3) : (∃ r : R8, z = r.index) ∨ z = atHlIndex := by
  rcases bv3_cases z with rfl | rfl | rfl | rfl | rfl | rfl | rfl | rfl
  exacts [.inl ⟨.b, rfl⟩, .inl ⟨.c, rfl⟩, .inl ⟨.d, rfl⟩, .inl ⟨.e, rfl⟩, .inl ⟨.h, rfl⟩, .inl ⟨.l, rfl⟩, .inr rfl,
    .inl ⟨.a, rfl⟩]

@[simp] theorem bitOf_ofFin (b : Fin 8) : bitOf (BitVec.ofFin b) = b := rfl

/-- A 16-bit immediate of two bytes is those bytes, the low one first (R104). -/
theorem imm16_append (n1 n2 : Byte) : imm16 (n2 ++ n1) = [n1, n2] := by
  change [loByte (wordOf n2 n1), hiByte (wordOf n2 n1)] = _
  rw [loByte_wordOf, hiByte_wordOf]

/-- An RST opcode holds its target's own bits 5 to 3 (R280). -/
theorem rst_opcode_and (t : Byte) (h : rstTargetOk t = true) : opXYZ 3#2 (t.extractLsb' 3 3) 7#3 &&& 0x38#8 = t := by
  revert t
  decide +kernel

/-! From an instruction to its bytes and back (O1). -/

theorem decode_imm16 {op : Byte} {f : Word → Instr} (hlen : operandBytes op = 2)
    (hop : ∀ n1 n2, decodeBytes op n1 n2 = f (n2 ++ n1)) (nn : Word) (rest : List Byte) :
    decode (op :: imm16 nn ++ rest) = .instr (f nn) rest := by
  have hnn : hiByte nn ++ loByte nn = nn := wordOf_hiByte_loByte nn
  change decode (op :: loByte nn :: hiByte nn :: rest) = _
  simp only [decode, hlen, hop, hnn]

theorem decode_cbPair (k : Byte) (rest : List Byte) : decode (cbPair k ++ rest) = .instr (decodeCb k) rest := rfl

theorem decode_rst {t : Byte} (ht : rstTargetOk t = true) (rest : List Byte) :
    decode (encode (.rst t) ++ rest) = .instr (.rst t) rest := by
  have hlen : operandBytes (opXYZ 3#2 (t.extractLsb' 3 3) 7#3) = 0 := by simp [operandBytes]
  have hcb : isPrefixCb (opXYZ 3#2 (t.extractLsb' 3 3) 7#3) = false := by
    revert t
    decide +kernel
  simp [encode, decode, hlen, decodeBytes, hcb, decodePrimary, decodeX3, rst_opcode_and t ht]

theorem decode_encode (i : Instr) (rest : List Byte) (hwf : i.wellFormed = true) (hprefix : i = .prefixCb → rest = []) :
    decode (encode i ++ rest) = .instr i rest := by
  cases i
  case rst => exact decode_rst hwf rest
  case prefixCb =>
    rw [hprefix rfl]
    rfl
  -- a 16-bit immediate after the opcode
  case ldAAtNn | ldAtNnA | ldAtNnSp | jpNn | callNn => exact decode_imm16 rfl (fun _ _ => rfl) _ rest
  case jpCc cc _ | callCc cc _ => cases cc <;> exact decode_imm16 rfl (fun _ _ => rfl) _ rest
  case ldRrNn p _ => cases p <;> exact decode_imm16 rfl (fun _ _ => rfl) _ rest
  -- a register, pair or condition in the opcode, and at most one immediate byte
  case ldRR r r' => cases r <;> cases r' <;> rfl
  case ldRN r _ | ldRAtHl r | ldAtHlR r | incR r | decR r => cases r <;> rfl
  case addR r | adcR r | subR r | sbcR r | andR r | xorR r | orR r | cpR r => cases r <;> rfl
  case push p | pop p | addHlRr p | incRr p | decRr p => cases p <;> rfl
  case jrCc cc _ | retCc cc => cases cc <;> rfl
  -- fields of the byte after `$CB`
  case rlcR | rrcR | rlR | rrR | slaR | sraR | swapR | srlR => simp [encode, decode_cbPair, decodeCb, decodeRot]
  case bitR | resR | setR | bitAtHl | resAtHl | setAtHl => simp [encode, decode_cbPair, decodeCb]
  -- a fixed opcode, and at most one immediate byte
  all_goals rfl

/-- Settles O1: an opcode's fields are read as they were written, and a 16-bit immediate is joined as it was cut; RST is the
one form whose operand must be well formed. -/
theorem decodeOfEncode : Obligations.DecodeOfEncode := decode_encode

/-! From bytes to the instruction and back (O2). -/

/-- The bytes of the instruction that opcode `op` begins, where `n1` and `n2` come after it (R100, R109). -/
def instrBytes (op n1 n2 : Byte) : List Byte := op :: [n1, n2].take (operandBytes op)

/-- `i` is well formed and those are its bytes. -/
def IsEncoding (i : Instr) (bytes : List Byte) : Prop := i.wellFormed = true ∧ encode i = bytes

section
variable {i : Instr} {op n1 n2 : Byte} (hi : i.wellFormed = true)
include hi

theorem IsEncoding.opcode (h : encode i = [op]) (hlen : operandBytes op = 0) : IsEncoding i (instrBytes op n1 n2) :=
  ⟨hi, by rw [h, instrBytes, hlen]; rfl⟩

theorem IsEncoding.byte (h : encode i = [op, n1]) (hlen : operandBytes op = 1) : IsEncoding i (instrBytes op n1 n2) :=
  ⟨hi, by rw [h, instrBytes, hlen]; rfl⟩

theorem IsEncoding.word (h : encode i = op :: imm16 (n2 ++ n1)) (hlen : operandBytes op = 2) :
    IsEncoding i (instrBytes op n1 n2) :=
  ⟨hi, by rw [h, instrBytes, hlen, imm16_append]; rfl⟩

end

/-- Quadrant 0 of R105, column by column. -/
theorem isEncoding_decodeX0 (y z : BitVec 3) (n1 n2 : Byte) :
    IsEncoding (decodeX0 (opXYZ 0#2 y z) n1 n2) (instrBytes (opXYZ 0#2 y z) n1 n2) := by
  have hy := bv3_cases y
  rcases bv3_cases z with rfl | rfl | rfl | rfl | rfl | rfl | rfl | rfl
  · rcases hy with rfl | rfl | rfl | rfl | rfl | rfl | rfl | rfl
    exacts [.opcode rfl rfl rfl, .word rfl rfl rfl, .opcode rfl rfl rfl, .byte rfl rfl rfl, .byte rfl rfl rfl,
      .byte rfl rfl rfl, .byte rfl rfl rfl, .byte rfl rfl rfl]
  · rcases hy with rfl | rfl | rfl | rfl | rfl | rfl | rfl | rfl
    exacts [.word rfl rfl rfl, .opcode rfl rfl rfl, .word rfl rfl rfl, .opcode rfl rfl rfl, .word rfl rfl rfl,
      .opcode rfl rfl rfl, .word rfl rfl rfl, .opcode rfl rfl rfl]
  -- of the other columns, column 6 alone takes an immediate byte
  on_goal 5 => rcases hy with rfl | rfl | rfl | rfl | rfl | rfl | rfl | rfl <;> exact .byte rfl rfl rfl
  all_goals rcases hy with rfl | rfl | rfl | rfl | rfl | rfl | rfl | rfl <;> exact .opcode rfl rfl rfl

/-- Quadrant 1 of R105: two register columns. -/
theorem isEncoding_decodeX1 (y z : BitVec 3) (n1 n2 : Byte) :
    IsEncoding (decodeX1 (opXYZ 1#2 y z)) (instrBytes (opXYZ 1#2 y z) n1 n2) := by
  have hlen : operandBytes (opXYZ 1#2 y z) = 0 := by simp [operandBytes]
  unfold decodeX1
  rw [opY_opXYZ, opZ_opXYZ]
  rcases r8Index_cases y with ⟨r, rfl⟩ | rfl <;> rcases r8Index_cases z with ⟨r', rfl⟩ | rfl
  · rw [operandOf_index, operandOf_index]; exact .opcode rfl rfl hlen
  · rw [operandOf_index]; exact .opcode rfl rfl hlen
  · rw [operandOf_index]; exact .opcode rfl rfl hlen
  · exact .opcode rfl rfl hlen

/-- Quadrant 2 of R105: a row of the ALU table (R178) and a register column. -/
theorem isEncoding_decodeX2 (y z : BitVec 3) (n1 n2 : Byte) :
    IsEncoding (decodeX2 (opXYZ 2#2 y z)) (instrBytes (opXYZ 2#2 y z) n1 n2) := by
  have hlen : operandBytes (opXYZ 2#2 y z) = 0 := by simp [operandBytes]
  unfold decodeX2
  rw [opY_opXYZ, opZ_opXYZ]
  rcases r8Index_cases z with ⟨r, rfl⟩ | rfl
  · rw [operandOf_index]
    rcases bv3_cases y with rfl | rfl | rfl | rfl | rfl | rfl | rfl | rfl <;> exact .opcode rfl rfl hlen
  · rcases bv3_cases y with rfl | rfl | rfl | rfl | rfl | rfl | rfl | rfl <;> exact .opcode rfl rfl hlen

/-- Quadrant 3 of R105, column by column, but for the prefix's slot. -/
theorem isEncoding_decodeX3 (y z : BitVec 3) (n1 n2 : Byte) (hcb : isPrefixCb (opXYZ 3#2 y z) = false) :
    IsEncoding (decodeX3 (opXYZ 3#2 y z) n1 n2) (instrBytes (opXYZ 3#2 y z) n1 n2) := by
  have hy := bv3_cases y
  rcases bv3_cases z with rfl | rfl | rfl | rfl | rfl | rfl | rfl | rfl
  · rcases hy with rfl | rfl | rfl | rfl | rfl | rfl | rfl | rfl
    exacts [.opcode rfl rfl rfl, .opcode rfl rfl rfl, .opcode rfl rfl rfl, .opcode rfl rfl rfl, .byte rfl rfl rfl,
      .byte rfl rfl rfl, .byte rfl rfl rfl, .byte rfl rfl rfl]
  · rcases hy with rfl | rfl | rfl | rfl | rfl | rfl | rfl | rfl <;> exact .opcode rfl rfl rfl
  · rcases hy with rfl | rfl | rfl | rfl | rfl | rfl | rfl | rfl
    exacts [.word rfl rfl rfl, .word rfl rfl rfl, .word rfl rfl rfl, .word rfl rfl rfl, .opcode rfl rfl rfl,
      .word rfl rfl rfl, .opcode rfl rfl rfl, .word rfl rfl rfl]
  · rcases hy with rfl | rfl | rfl | rfl | rfl | rfl | rfl | rfl
    exacts [.word rfl rfl rfl, (nomatch hcb), .opcode rfl rfl rfl, .opcode rfl rfl rfl, .opcode rfl rfl rfl,
      .opcode rfl rfl rfl, .opcode rfl rfl rfl, .opcode rfl rfl rfl]
  · rcases hy with rfl | rfl | rfl | rfl | rfl | rfl | rfl | rfl
    exacts [.word rfl rfl rfl, .word rfl rfl rfl, .word rfl rfl rfl, .word rfl rfl rfl, .opcode rfl rfl rfl,
      .opcode rfl rfl rfl, .opcode rfl rfl rfl, .opcode rfl rfl rfl]
  · rcases hy with rfl | rfl | rfl | rfl | rfl | rfl | rfl | rfl
    exacts [.opcode rfl rfl rfl, .word rfl rfl rfl, .opcode rfl rfl rfl, .opcode rfl rfl rfl, .opcode rfl rfl rfl,
      .opcode rfl rfl rfl, .opcode rfl rfl rfl, .opcode rfl rfl rfl]
  · rcases hy with rfl | rfl | rfl | rfl | rfl | rfl | rfl | rfl <;> exact .byte rfl rfl rfl
  · rcases hy with rfl | rfl | rfl | rfl | rfl | rfl | rfl | rfl <;> exact .opcode rfl rfl rfl

theorem isEncoding_decodePrimary {op : Byte} (hcb : isPrefixCb op = false) (n1 n2 : Byte) :
    IsEncoding (decodePrimary op n1 n2) (instrBytes op n1 n2) := by
  rw [← opXYZ_fields op] at hcb ⊢
  unfold decodePrimary
  rw [opX_opXYZ]
  rcases bv2_cases (opX op) with hx | hx | hx | hx <;> rw [hx] at hcb ⊢
  · exact isEncoding_decodeX0 _ _ _ _
  · exact isEncoding_decodeX1 _ _ _ _
  · exact isEncoding_decodeX2 _ _ _ _
  · exact isEncoding_decodeX3 _ _ _ _ hcb

/-- Quadrant 0 of R106: a row of the rotates and shifts, and a register column. -/
theorem isEncoding_decodeRot (y z : BitVec 3) : IsEncoding (decodeRot (opXYZ 0#2 y z)) (cbPair (opXYZ 0#2 y z)) := by
  unfold decodeRot
  rw [opY_opXYZ, opZ_opXYZ]
  rcases r8Index_cases z with ⟨r, rfl⟩ | rfl
  · rw [operandOf_index]
    rcases bv3_cases y with rfl | rfl | rfl | rfl | rfl | rfl | rfl | rfl <;> exact ⟨rfl, rfl⟩
  · rcases bv3_cases y with rfl | rfl | rfl | rfl | rfl | rfl | rfl | rfl <;> exact ⟨rfl, rfl⟩

/-- The CB table (R106): quadrants 1 to 3 take a bit number and a register column. -/
theorem isEncoding_decodeCb (k : Byte) : IsEncoding (decodeCb k) (cbPair k) := by
  rw [← opXYZ_fields k]
  unfold decodeCb
  rw [opX_opXYZ, opY_opXYZ, opZ_opXYZ]
  rcases bv2_cases (opX k) with hx | hx | hx | hx <;> rw [hx]
  · exact isEncoding_decodeRot _ _
  all_goals
    rcases r8Index_cases (opZ k) with ⟨r, hz⟩ | hz <;> rw [hz]
    · rw [operandOf_index]
      exact ⟨rfl, rfl⟩
    · exact ⟨rfl, rfl⟩

/-- Every byte value decodes, and what it decodes to is encoded by the bytes read (R113). -/
theorem isEncoding_decodeBytes (op n1 n2 : Byte) : IsEncoding (decodeBytes op n1 n2) (instrBytes op n1 n2) := by
  unfold decodeBytes
  split
  case isTrue h =>
    obtain rfl : op = 0xCB#8 := by simpa [isPrefixCb] using h
    exact isEncoding_decodeCb n1
  case isFalse h => exact isEncoding_decodePrimary (by simpa using h) n1 n2

/-- What the decoder answers with an instruction: the lone prefix at the end of the bytes, or the bytes its opcode asks
for. -/
theorem decode_cases {bytes : List Byte} {i : Instr} {rest : List Byte} (h : decode bytes = .instr i rest) :
    (∃ op n1 n2, i = decodeBytes op n1 n2 ∧ bytes = instrBytes op n1 n2 ++ rest) ∨
    (bytes = [0xCB#8] ∧ i = .prefixCb ∧ rest = []) := by
  unfold decode at h
  split at h
  · nomatch h
  · next op tail =>
    split at h
    · next hlen => cases h; exact .inl ⟨op, 0#8, 0#8, rfl, by rw [instrBytes, hlen]; rfl⟩
    · next n1 _ hlen => cases h; exact .inl ⟨op, n1, 0#8, rfl, by rw [instrBytes, hlen]; rfl⟩
    · next n1 n2 _ hlen => cases h; exact .inl ⟨op, n1, n2, rfl, by rw [instrBytes, hlen]; rfl⟩
    · split at h
      · next hend =>
        cases h
        simp only [isPrefixCb, Bool.and_eq_true, beq_iff_eq, List.isEmpty_iff] at hend
        obtain ⟨rfl, rfl⟩ := hend
        exact .inr ⟨rfl, rfl, rfl⟩
      · nomatch h

theorem isEncoding_of_decode {bytes : List Byte} {i : Instr} {rest : List Byte} (h : decode bytes = .instr i rest) :
    i.wellFormed = true ∧ bytes = encode i ++ rest := by
  rcases decode_cases h with ⟨op, n1, n2, rfl, rfl⟩ | ⟨rfl, rfl, rfl⟩
  · obtain ⟨hwf, henc⟩ := isEncoding_decodeBytes op n1 n2
    exact ⟨hwf, by rw [henc]⟩
  · exact ⟨rfl, rfl⟩

/-- Three bytes are enough for every opcode (R100). -/
theorem decode_three (b0 b1 b2 : Byte) :
    ∃ i, decode [b0, b1, b2] = .instr i ([b0, b1, b2].drop (1 + operandBytes b0)) := by
  have hle := operandBytes_le b0
  dsimp only [decode]
  rcases h : operandBytes b0 with _ | _ | _ | n
  · exact ⟨_, rfl⟩
  · exact ⟨_, rfl⟩
  · exact ⟨_, rfl⟩
  · omega

/-- Settles O2: every slot of the two tables encodes back to its own bytes, and the first byte gives the length. -/
theorem everyWordHasOneMeaning : Obligations.EveryWordHasOneMeaning := by
  refine ⟨fun _ _ _ => isEncoding_of_decode, fun b0 b1 b2 => ?_⟩
  obtain ⟨i, hdec⟩ := decode_three b0 b1 b2
  have hle := operandBytes_le b0
  have hlen := congrArg List.length (isEncoding_of_decode hdec).2
  simp only [List.length_append, List.length_drop, List.length_cons, List.length_nil] at hlen
  refine ⟨i, 1 + operandBytes b0, hdec, by omega, by omega, by omega, ?_⟩
  rintro rfl
  rfl

/-- Settles O3: the decoder evaluated on the fifteen words. -/
theorem sampleWords : Obligations.SampleWords := by
  unfold Obligations.SampleWords
  and_intros <;> rfl

end Sys2Proof.Machine

/-! ### Loads and stores of a byte, and loads of a register or pair (O37, O38, O39) -/

namespace Sys2Proof.Machine

/-! The addresses as the spec writes them, in exact integers (R21, R141, R143). -/

theorem ofNat_eq_wordOf (hi lo : Byte) : BitVec.ofNat 16 (256 * hi.toNat + lo.toNat) = wordOf hi lo := by
  rw [← toNat_wordOf, BitVec.ofNat_toNat, BitVec.setWidth_eq]

theorem ofNat_eq_ioAddr (n : Byte) : BitVec.ofNat 16 (0xFF00 + n.toNat) = ioAddr n := by
  rw [BitVec.ofNat_add, BitVec.ofNat_toNat]
  rfl

/-! What the write of a register or of a pair leaves. -/

theorem Regs.set_frame (g : Regs) (dst : R8) (v : Byte) :
    (g.set dst v).get dst = v ∧ (∀ q, q ≠ dst → (g.set dst v).get q = g.get q) ∧ (g.set dst v).f = g.f ∧
      (g.set dst v).sp = g.sp ∧ (g.set dst v).pc = g.pc :=
  ⟨g.get_set_same dst v, fun _ => g.get_set_other v, g.set_f dst v, g.set_sp dst v, g.set_pc dst v⟩

theorem Regs.get_setPair_other (g : Regs) {p : R16} {q : R8} (v : Word) (h : pairHas p q = false) :
    (g.setPair p v).get q = g.get q := by
  cases p <;> cases q <;> cases h <;> rfl

theorem Regs.setPair_sp_of_ne (g : Regs) {p : R16} (v : Word) (h : p ≠ .sp) : (g.setPair p v).sp = g.sp := by
  cases p
  case sp => exact absurd rfl h
  all_goals rfl

/-- Settles O37: each form is one register write, and its frame that of `Regs.set` or `Regs.setPair`. -/
theorem registerLoads : Obligations.RegisterLoads := by
  intro s
  refine ⟨fun dst r => ⟨_, rfl, s.regs.set_frame dst (s.r8 r)⟩, fun dst n => ⟨_, rfl, s.regs.set_frame dst n⟩,
    fun p nn => ⟨_, rfl, ?_⟩⟩
  exact ⟨s.regs.pair_setPair_same p nn, fun _ => s.regs.get_setPair_other nn, s.regs.setPair_f p nn,
    s.regs.setPair_sp_of_ne nn, s.regs.setPair_pc p nn⟩

theorem loadFrom_eq (a : Word) (r : R8) (s : State) :
    loadFrom a r s = (afterRead s a).withRegs (s.regs.set r (busRead s a)) := by
  simp [loadFrom]

/-- `i` in state `s` reads the byte at `a` into `r` of the register file `g`, in 4 T-cycles. -/
def LoadsByte (s : State) (i : Instr) (r : R8) (a : Word) (g : Regs) : Prop :=
  ∃ t, exec i s = .next t ∧ t.regs = g.set r (busRead s a) ∧ OnlyTime 4 (readEffect s a) t

/-- `i` in state `s` writes `v` to `a` in 4 T-cycles and leaves the register file `g`. -/
def StoresByte (s : State) (i : Instr) (a : Word) (v : Byte) (g : Regs) : Prop :=
  ∃ t, exec i s = .next t ∧ t.regs = g ∧ StoredByte s a v 4 t

section
variable {s : State} {i : Instr} {r : R8} {a v : Word} {b : Byte}

theorem LoadsByte.of_loadFrom (h : exec i s = .next (loadFrom a r s)) : LoadsByte s i r a s.regs := by
  rw [loadFrom_eq] at h
  exact ⟨_, h, rfl, onlyTime_read s a _⟩

/-- HL moves after the read (R146, R148); the loaded register is not one of its halves. -/
theorem LoadsByte.of_loadFrom_setHl (h : exec i s = .next ((loadFrom a .a s).setR16 .hl v)) :
    LoadsByte s i .a a { s.regs with h := hiByte v, l := loByte v } := by
  rw [loadFrom_eq, State.setR16_eq, State.withRegs_withRegs] at h
  exact ⟨_, h, rfl, onlyTime_read s a _⟩

theorem StoresByte.of_memWrite (h : exec i s = .next (memWrite s a b)) : StoresByte s i a b s.regs :=
  ⟨_, h, memWrite_regs s a b, storedByte_memWrite s a b⟩

/-- HL moves after the write (R145, R147). -/
theorem StoresByte.of_memWrite_setHl (h : exec i s = .next ((memWrite s a b).setR16 .hl v)) :
    StoresByte s i a b { s.regs with h := hiByte v, l := loByte v } := by
  rw [State.setR16_eq, memWrite_regs] at h
  exact ⟨_, h, rfl, (storedByte_memWrite s a b).withRegs _⟩

end

/-- Settles O38: every form is `loadFrom` at its own address, and the last two then move HL. -/
theorem byteLoads : Obligations.ByteLoads := by
  intro s
  simp only [ofNat_eq_wordOf, ofNat_eq_ioAddr]
  exact ⟨fun _ => LoadsByte.of_loadFrom rfl, LoadsByte.of_loadFrom rfl, LoadsByte.of_loadFrom rfl,
    fun _ => LoadsByte.of_loadFrom rfl, LoadsByte.of_loadFrom rfl, fun _ => LoadsByte.of_loadFrom rfl,
    LoadsByte.of_loadFrom_setHl rfl, LoadsByte.of_loadFrom_setHl rfl⟩

/-- Settles O39: every form is one timed write at its own address, and the last two then move HL. -/
theorem byteStores : Obligations.ByteStores := by
  intro s
  simp only [ofNat_eq_wordOf, ofNat_eq_ioAddr]
  exact ⟨fun _ => StoresByte.of_memWrite rfl, fun _ => StoresByte.of_memWrite rfl, StoresByte.of_memWrite rfl,
    StoresByte.of_memWrite rfl, fun _ => StoresByte.of_memWrite rfl, StoresByte.of_memWrite rfl,
    fun _ => StoresByte.of_memWrite rfl, StoresByte.of_memWrite_setHl rfl, StoresByte.of_memWrite_setHl rfl⟩

end Sys2Proof.Machine

/-! ### 16-bit stores, POP, and SP plus a signed byte (O40, O41, O42) -/

namespace Sys2Proof.Machine

/-- The mask of a write of F, in exact integers (R23). -/
theorem Regs.setF_eq_ofNat (g : Regs) (v : Byte) : g.setF v = { g with f := BitVec.ofNat 8 (v.toNat / 16 * 16) } := by
  have hmask : ∀ v : Byte, v &&& 0xF0#8 = BitVec.ofNat 8 (v.toNat / 16 * 16) := by decide +kernel
  rw [Regs.setF, hmask]

/-- Settles O40: LD (nn),SP is `MemWrite(nn, 2, SP)`; PUSH is `Push16` of the pair, whose halves are its two registers, and
4 T-cycles more. -/
theorem twoByteStores : Obligations.TwoByteStores := by
  refine fun s => ⟨fun nn => ⟨_, rfl, ?_, storedTwo_memWrite s nn _ (nn + 1#16) _ 0 rfl⟩, fun p => ⟨_, rfl, ?_, ?_⟩⟩
  · exact (memWrite_regs _ _ _).trans (memWrite_regs _ _ _)
  · rw [push16_eq, tick_withRegs]
    rfl
  · have hst := storedTwo_push16 s (s.regs.stackPair p) 4 rfl
    cases p <;> simpa only [State.r16Stk, Regs.stackPair, Regs.pair, hiByte_wordOf, loByte_wordOf] using hst

/-- Settles O41: POP is `Pop16` and a register write that cuts the word into the halves it was made of. -/
theorem popResults : Obligations.PopResults := by
  intro s p lo hi
  have hexec : exec (.pop p) s = .next ((pop16 s).2.setR16Stk p (pop16 s).1) := rfl
  rw [pop16_eq, State.setR16Stk_eq, State.withRegs_withRegs] at hexec
  refine ⟨_, hexec, onlyTime_read _ _ _, ?_⟩
  cases p with
  | bc | de | hl => simp only [State.withRegs_regs, Regs.setStackPair, Regs.setPair, hiByte_wordOf, loByte_wordOf, lo, hi]
  | af => simp only [State.withRegs_regs, Regs.setStackPair, Regs.setF_eq_ofNat, hiByte_wordOf, loByte_wordOf, lo, hi]

/-! SP plus a signed byte, in exact integers (R11, R220). -/

theorem toInt_byte (e : Byte) : e.toInt = if e.toNat < 128 then (e.toNat : Int) else e.toNat - 256 := by
  have := e.toInt_eq_toNat_cond
  omega

theorem addSpE16_fst (sp : Word) (e : Byte) : (addSpE16 sp e).1 = BitVec.ofInt 16 (sp.toNat + e.toInt) := by
  rw [BitVec.ofInt_add, BitVec.ofInt_natCast, BitVec.ofNat_toNat, BitVec.setWidth_eq]
  rfl

theorem hiByte_ofInt (n : Int) : hiByte (BitVec.ofInt 16 n) = BitVec.ofInt 8 (n / 256) :=
  BitVec.eq_of_toNat_eq (by rw [toNat_hiByte, BitVec.toNat_ofInt, BitVec.toNat_ofInt]; omega)

theorem loByte_ofInt (n : Int) : loByte (BitVec.ofInt 16 n) = BitVec.ofInt 8 n :=
  BitVec.eq_of_toNat_eq (by rw [toNat_loByte, BitVec.toNat_ofInt, BitVec.toNat_ofInt]; omega)

/-! A pair and F written, with `k` T-cycles after. -/

theorem onlyTime_tick_withRegs (k : Nat) (s : State) (g : Regs) : OnlyTime k s (tick k (s.withRegs g)) := by
  rw [tick_withRegs]
  exact onlyTime_tick k s g

theorem tick_setR16_setFlags_regs (k : Nat) (s : State) (p : R16) (v : Word) (fl : Flags) :
    (tick k ((s.setR16 p v).setFlags fl)).regs = { s.regs.setPair p v with f := specF fl.z fl.n fl.h fl.c } := by
  rw [tick_regs]
  exact Regs.setF_byteOfFlags _ fl

/-- Settles O42: the two sums are one `AddSpE`, into SP or cut into H and L. -/
theorem stackPointerArithmetic : Obligations.StackPointerArithmetic := by
  refine fun s => ⟨⟨_, rfl, onlyTime_tick_withRegs 4 s _, ?_⟩, fun e => ?_⟩
  · rw [ofNat_eq_wordOf, tick_regs]
    rfl
  · simp only [← toInt_byte]
    refine ⟨⟨_, rfl, onlyTime_tick_withRegs 8 s _, ?_⟩, ⟨_, rfl, onlyTime_tick_withRegs 4 s _, ?_⟩⟩
    · rw [tick_setR16_setFlags_regs, addSpE16_fst]
      rfl
    · rw [tick_setR16_setFlags_regs, addSpE16_fst, Regs.setPair, hiByte_ofInt, loByte_ofInt]
      rfl

end Sys2Proof.Machine

/-! ### 8-bit arithmetic and logic, INC and DEC of a byte (O44, O45, O46, O47) -/

namespace Sys2Proof.Machine

/-! Bytes and their zero tests in exact integers. -/

theorem ofInt_sub (w : Nat) (x y : Int) : BitVec.ofInt w (x - y) = BitVec.ofInt w x - BitVec.ofInt w y := by
  rw [Int.sub_eq_add_neg, BitVec.ofInt_add, BitVec.ofInt_neg, BitVec.sub_eq_add_neg]

theorem ofInt_toNat (v : Byte) : BitVec.ofInt 8 (v.toNat : Int) = v := by
  rw [BitVec.ofInt_natCast, BitVec.ofNat_toNat, BitVec.setWidth_eq]

theorem toNat_beq_zero (v : Byte) : (v == 0#8) = decide (v.toNat = 0) := by
  rw [beq_eq_decide, decide_eq_decide, BitVec.toNat_eq]
  rfl

theorem ofInt_beq_zero (n : Int) : (BitVec.ofInt 8 n == 0#8) = decide (n % 256 = 0) := by
  rw [toNat_beq_zero, decide_eq_decide, BitVec.toNat_ofInt]
  omega

theorem ofNat_beq_zero (n : Nat) : (BitVec.ofNat 8 n == 0#8) = decide (n % 256 = 0) := by
  rw [toNat_beq_zero, BitVec.toNat_ofNat]

/-! What a write of the flags leaves, alone or with A. -/

theorem State.setFlags_eq_withRegs (s : State) (fl : Flags) :
    s.setFlags fl = s.withRegs { s.regs with f := specF fl.z fl.n fl.h fl.c } := by
  rw [State.setFlags_eq, Regs.setF_byteOfFlags]

/-- The register file with the result of an accumulator operation: the byte in A and the flags in F (R12). -/
def Regs.setAF (g : Regs) (r : Byte × Flags) : Regs := { g with a := r.1, f := specF r.2.z r.2.n r.2.h r.2.c }

theorem State.setAFlags_eq_setAF (s : State) (r : Byte × Flags) : s.setAFlags r = s.withRegs (s.regs.setAF r) := by
  rw [State.setAFlags_eq, Regs.setF_byteOfFlags]
  rfl

/-! The results of the byte functions in exact integers (R175, R176, R177). -/

theorem add8_z (a v : Byte) (cin : Bool) :
    (add8 a v cin).2.z = decide ((a.toNat + v.toNat + cin.toNat) % 256 = 0) :=
  ofNat_beq_zero _

theorem Regs.setAF_add8 (g : Regs) (v : Byte) (cin : Bool) : g.setAF (add8 g.a v cin) = addResult g v cin.toNat := by
  rw [Regs.setAF, add8_z]
  rfl

theorem sub8_fst (a v : Byte) (cin : Bool) : (sub8 a v cin).1 = BitVec.ofInt 8 ((a.toNat : Int) - v.toNat - cin.toNat) := by
  rw [ofInt_sub, ofInt_sub, ofInt_toNat, ofInt_toNat, BitVec.ofInt_natCast]
  rfl

theorem sub8_z (a v : Byte) (cin : Bool) :
    (sub8 a v cin).2.z = decide (((a.toNat : Int) - v.toNat - cin.toNat) % 256 = 0) := by
  rw [← ofInt_beq_zero, ← sub8_fst]
  rfl

theorem sub8_c (a v : Byte) (cin : Bool) : (sub8 a v cin).2.c = decide ((a.toNat : Int) - v.toNat - cin.toNat < 0) :=
  decide_eq_decide.2 (by omega)

theorem specF_sub8 (a v : Byte) (cin : Bool) :
    specF (sub8 a v cin).2.z (sub8 a v cin).2.n (sub8 a v cin).2.h (sub8 a v cin).2.c = subFlags a v cin.toNat := by
  rw [sub8_z, sub8_c]
  rfl

theorem Regs.setAF_sub8 (g : Regs) (v : Byte) (cin : Bool) : g.setAF (sub8 g.a v cin) = subResult g v cin.toNat := by
  simp only [Regs.setAF, subResult, specF_sub8, sub8_fst]

theorem Regs.setAF_compareWith (g : Regs) (v : Byte) : g.setAF (compareWith g.a v) = compareResult g v := by
  simp only [Regs.setAF, compareWith, compareResult, specF_sub8]
  rfl

theorem Regs.setAF_logic (g : Regs) (r : Byte) (h : Bool) :
    g.setAF (r, { z := r == 0#8, n := false, h := h, c := false }) = logicResult g r h := by
  rw [toNat_beq_zero]
  rfl

/-! The three operand forms of an accumulator operation (R178). -/

theorem accAtHl_eq (f : Byte → Byte → Byte × Flags) (s : State) :
    accAtHl f s = (afterRead s s.hl).withRegs (s.regs.setAF (f s.regs.a (busRead s s.hl))) := by
  simp only [accAtHl, memRead_fst, memRead_snd, State.setAFlags_eq_setAF, afterRead_regs]

/-- In state `s` the instructions `iR`, `iN` and `iHl` take a register, an immediate and the byte at HL as the operand whose
result is `out`, and change nothing but the register file and, in the last form, what a timed read does. -/
structure OperandForms (s : State) (iR : R8 → Instr) (iN : Byte → Instr) (iHl : Instr) (out : Byte → Regs) : Prop where
  register : ∀ r, exec (iR r) s = .next (s.withRegs (out (s.regs.get r)))
  immediate : ∀ n, exec (iN n) s = .next (s.withRegs (out n))
  atHl : ∃ t, exec iHl s = .next t ∧ OnlyTime 4 (readEffect s s.hl) t ∧ t.regs = out (busRead s s.hl)

theorem OperandForms.of_acc {s : State} {iR : R8 → Instr} {iN : Byte → Instr} {iHl : Instr} {out : Byte → Regs}
    (f : Byte → Byte → Byte × Flags) (hout : ∀ v, s.regs.setAF (f s.regs.a v) = out v)
    (hR : ∀ r, exec (iR r) s = .next (s.setAFlags (f s.regs.a (s.r8 r))))
    (hN : ∀ n, exec (iN n) s = .next (s.setAFlags (f s.regs.a n)))
    (hHl : exec iHl s = .next (accAtHl f s)) : OperandForms s iR iN iHl out where
  register r := by rw [hR, State.setAFlags_eq_setAF, hout, State.r8]
  immediate n := by rw [hN, State.setAFlags_eq_setAF, hout]
  atHl := ⟨_, hHl.trans (by rw [accAtHl_eq, hout]), onlyTime_read s s.hl _, rfl⟩

theorem add_forms (s : State) : OperandForms s .addR .addN .addAtHl (addResult s.regs · 0) :=
  .of_acc (add8 · · false) (s.regs.setAF_add8 · false) (fun _ => rfl) (fun _ => rfl) rfl

theorem adc_forms (s : State) : OperandForms s .adcR .adcN .adcAtHl (addResult s.regs · (flagC s.regs).toNat) :=
  .of_acc (add8 · · s.flags.c) (s.regs.setAF_add8 · s.flags.c) (fun _ => rfl) (fun _ => rfl) rfl

theorem sub_forms (s : State) : OperandForms s .subR .subN .subAtHl (subResult s.regs · 0) :=
  .of_acc (sub8 · · false) (s.regs.setAF_sub8 · false) (fun _ => rfl) (fun _ => rfl) rfl

theorem sbc_forms (s : State) : OperandForms s .sbcR .sbcN .sbcAtHl (subResult s.regs · (flagC s.regs).toNat) :=
  .of_acc (sub8 · · s.flags.c) (s.regs.setAF_sub8 · s.flags.c) (fun _ => rfl) (fun _ => rfl) rfl

theorem cp_forms (s : State) : OperandForms s .cpR .cpN .cpAtHl (compareResult s.regs) :=
  .of_acc compareWith s.regs.setAF_compareWith (fun _ => rfl) (fun _ => rfl) rfl

theorem and_forms (s : State) : OperandForms s .andR .andN .andAtHl (fun v => logicResult s.regs (s.regs.a &&& v) true) :=
  .of_acc and8 (fun _ => s.regs.setAF_logic _ true) (fun _ => rfl) (fun _ => rfl) rfl

theorem xor_forms (s : State) : OperandForms s .xorR .xorN .xorAtHl (fun v => logicResult s.regs (s.regs.a ^^^ v) false) :=
  .of_acc xor8 (fun _ => s.regs.setAF_logic _ false) (fun _ => rfl) (fun _ => rfl) rfl

theorem or_forms (s : State) : OperandForms s .orR .orN .orAtHl (fun v => logicResult s.regs (s.regs.a ||| v) false) :=
  .of_acc or8 (fun _ => s.regs.setAF_logic _ false) (fun _ => rfl) (fun _ => rfl) rfl

theorem State.hl_eq_ofNat (s : State) : s.hl = BitVec.ofNat 16 (256 * s.regs.h.toNat + s.regs.l.toNat) :=
  (ofNat_eq_wordOf _ _).symm

/-- Settles O44: `Add8` without and with the carry, in the three operand forms. -/
theorem addAndAdc : Obligations.AddAndAdc := by
  intro s
  rw [← s.hl_eq_ofNat]
  have add := add_forms s
  have adc := adc_forms s
  exact ⟨add.register, add.immediate, add.atHl, adc.register, adc.immediate, adc.atHl⟩

/-- Settles O45: `Sub8` without and with the carry, and its flags alone, in the three operand forms. -/
theorem subSbcAndCp : Obligations.SubSbcAndCp := by
  intro s
  rw [← s.hl_eq_ofNat]
  have sub := sub_forms s
  have sbc := sbc_forms s
  have cp := cp_forms s
  exact ⟨sub.register, sub.immediate, sub.atHl, sbc.register, sbc.immediate, sbc.atHl, cp.register, cp.immediate, cp.atHl⟩

/-- Settles O46: the three logic functions, in the three operand forms. -/
theorem andXorOr : Obligations.AndXorOr := by
  intro s
  rw [← s.hl_eq_ofNat]
  have and := and_forms s
  have xor := xor_forms s
  have or := or_forms s
  exact ⟨and.register, and.immediate, and.atHl, xor.register, xor.immediate, xor.atHl, or.register, or.immediate, or.atHl⟩

/-! One more and one less, in exact integers (R204, R206). -/

theorem inc8_eq (v : Byte) (fl : Flags) :
    inc8 v fl = (BitVec.ofNat 8 (v.toNat + 1),
      { z := decide (v.toNat = 255), n := false, h := decide (v.toNat % 16 = 15), c := fl.c }) := by
  have hv : v + 1#8 = BitVec.ofNat 8 (v.toNat + 1) := by bv_omega
  have hz : decide ((v.toNat + 1) % 256 = 0) = decide (v.toNat = 255) := decide_eq_decide.2 (by omega)
  rw [← hz, ← ofNat_beq_zero, ← hv]
  rfl

theorem dec8_eq (v : Byte) (fl : Flags) :
    dec8 v fl = (BitVec.ofNat 8 (v.toNat + 255),
      { z := decide (v.toNat = 1), n := true, h := decide (v.toNat % 16 = 0), c := fl.c }) := by
  have hv : v - 1#8 = BitVec.ofNat 8 (v.toNat + 255) := by bv_omega
  have hz : decide ((v.toNat + 255) % 256 = 0) = decide (v.toNat = 1) := decide_eq_decide.2 (by omega)
  rw [← hz, ← ofNat_beq_zero, ← hv]
  rfl

/-! INC and DEC of a register and of the byte at HL (R204 to R207). -/

theorem modifyAtHl_eq (f : Byte → Flags → Byte × Flags) (s : State) :
    let r := f (busRead s s.hl) s.flags
    modifyAtHl f s = (memWrite (afterRead s s.hl) s.hl r.1).withRegs
      { s.regs with f := specF r.2.z r.2.n r.2.h r.2.c } := by
  simp [modifyAtHl, State.hl, State.flags]

/-- INC and DEC at HL: the byte read, the byte written 4 T-cycles later, and the flags (R205, R207). -/
theorem modifyAtHl_frame (f : Byte → Flags → Byte × Flags) (s : State) :
    let r := f (busRead s s.hl) s.flags
    StoredByte (afterRead s s.hl) s.hl r.1 4 (modifyAtHl f s) ∧
      (modifyAtHl f s).regs = { s.regs with f := specF r.2.z r.2.n r.2.h r.2.c } := by
  intro r
  rw [modifyAtHl_eq]
  exact ⟨(storedByte_memWrite _ _ _).withRegs _, rfl⟩

theorem setR8_setFlags (s : State) (r : R8) (v : Byte) (fl : Flags) :
    (s.setR8 r v).setFlags fl = s.withRegs { s.regs.set r v with f := specF fl.z fl.n fl.h fl.c } :=
  State.setFlags_eq_withRegs _ fl

/-- Settles O47: one byte function each, into the register or back to HL. -/
theorem incAndDecByte : Obligations.IncAndDecByte := by
  intro s
  rw [← s.hl_eq_ofNat]
  have inc := modifyAtHl_frame inc8 s
  have dec := modifyAtHl_frame dec8 s
  simp only [inc8_eq, dec8_eq] at inc dec
  have incR (r : R8) : exec (.incR r) s = .next ((s.setR8 r _).setFlags _) := rfl
  have decR (r : R8) : exec (.decR r) s = .next ((s.setR8 r _).setFlags _) := rfl
  simp only [setR8_setFlags, inc8_eq, dec8_eq] at incR decR
  exact ⟨incR, decR, ⟨_, rfl, inc⟩, ⟨_, rfl, dec⟩⟩

end Sys2Proof.Machine

/-! ### DAA, CPL, SCF and CCF, and decimal arithmetic (O48, O49) -/

namespace Sys2Proof.Machine

/-! DAA in exact integers (R208). -/

/-- Whether DAA adjusts the high digit after an addition (R208, branch F.N = 0). -/
abbrev daaHigh (a : Int) (fl : Flags) : Prop := fl.c = true ∨ a > 0x99

/-- Whether it adjusts the low digit. -/
abbrev daaLow (a : Int) (fl : Flags) : Prop := fl.h = true ∨ a % 16 > 9

/-- The pseudocode of R208: A before it is cut to a byte, and C. -/
def daaExact (a : Int) (fl : Flags) : Int × Bool :=
  if fl.n = false then
    (a + (if daaHigh a fl then 0x60 else 0) + (if daaLow a fl then 0x06 else 0), decide (daaHigh a fl))
  else (a - (if fl.c = true then 0x60 else 0) - (if fl.h = true then 0x06 else 0), fl.c)

section
variable {fl : Flags} (a : Int)

theorem daaExact_of_add (hn : fl.n = false) : daaExact a fl =
    (a + (if daaHigh a fl then 0x60 else 0) + (if daaLow a fl then 0x06 else 0), decide (daaHigh a fl)) :=
  if_pos hn

theorem daaExact_of_sub (hn : fl.n = true) : daaExact a fl =
    (a - (if fl.c = true then 0x60 else 0) - (if fl.h = true then 0x06 else 0), fl.c) :=
  if_neg (by simp [hn])

end

theorem daaAfterAdd_eq (a : Byte) (fl : Flags) :
    daaAfterAdd a fl = (a + (if daaHigh a.toNat fl then 0x60#8 else 0#8) + (if daaLow a.toNat fl then 0x06#8 else 0#8),
      decide (daaHigh a.toNat fl)) := by
  have hhigh : (fl.c || decide (a.toNat > 0x99)) = decide (daaHigh a.toNat fl) := by
    rw [Bool.eq_iff_iff, Bool.or_eq_true, decide_eq_true_eq, decide_eq_true_eq]
    exact or_congr_right (by omega)
  have hlow : (fl.h || decide (lowNibble a > 9)) = decide (daaLow a.toNat fl) := by
    rw [Bool.eq_iff_iff, Bool.or_eq_true, decide_eq_true_eq, decide_eq_true_eq, lowNibble]
    exact or_congr_right (by omega)
  simp only [daaAfterAdd, hhigh, hlow, decide_eq_true_eq]

/-- DAA is its pseudocode cut to a byte, with Z from the result, N kept and H cleared (R208). -/
theorem daa8_eq (a : Byte) (fl : Flags) :
    let r := daaExact a.toNat fl
    daa8 a fl = (BitVec.ofInt 8 r.1, { z := decide (r.1 % 256 = 0), n := fl.n, h := false, c := r.2 }) := by
  intro r
  have hr : (if fl.n then daaAfterSub a fl else daaAfterAdd a fl) = (BitVec.ofInt 8 r.1, r.2) := by
    cases hn : fl.n with
    | false =>
      rw [if_neg Bool.false_ne_true, daaAfterAdd_eq]
      simp only [r, daaExact_of_add _ hn, BitVec.ofInt_add, ofInt_toNat, apply_ite (BitVec.ofInt 8)]
      rfl
    | true =>
      rw [if_pos rfl, daaAfterSub]
      simp only [r, daaExact_of_sub _ hn, ofInt_sub, ofInt_toNat, apply_ite (BitVec.ofInt 8)]
      rfl
  rw [← ofInt_beq_zero, daa8, hr]

theorem not_eq_ofNat (v : Byte) : ~~~v = BitVec.ofNat 8 (255 - v.toNat) := by
  apply BitVec.eq_of_toNat_eq
  rw [BitVec.toNat_not, BitVec.toNat_ofNat]
  omega

/-- Settles O48: DAA by `daa8_eq`, CPL by the complement's value, SCF and CCF by the flags they write. -/
theorem accumulatorAdjust : Obligations.AccumulatorAdjust := by
  intro s
  refine ⟨?_, ?_, congrArg _ (s.setFlags_eq_withRegs _), congrArg _ (s.setFlags_eq_withRegs _)⟩
  · have hdaa : exec .daa s = .next (s.setAFlags (daa8 s.regs.a s.flags)) := rfl
    rw [hdaa, State.setAFlags_eq_setAF, daa8_eq]
    rfl
  · rw [← not_eq_ofNat]
    exact congrArg _ (s.setAFlags_eq_setAF _)

/-! Decimal arithmetic: A and its flags after ADC or SBC of two-digit decimals, then DAA (R183, R189, R208). -/

theorem isBcd_iff (v : Byte) : isBcd v = true ↔ v.toNat % 16 < 10 ∧ v.toNat / 16 < 10 := by
  simp [isBcd]

theorem digits_of_isBcd {v : Byte} (hv : isBcd v = true) :
    ∃ h l, h < 10 ∧ l < 10 ∧ v.toNat = 16 * h + l ∧ bcdValue v = 10 * h + l := by
  obtain ⟨hl, hh⟩ := (isBcd_iff v).1 hv
  exact ⟨v.toNat / 16, v.toNat % 16, hh, hl, by omega, by rw [bcdValue]; omega⟩

/-- What is two digits but for carries out of the byte is cut to that decimal. -/
theorem bcd_ofInt_of_digits {r : Int} {h l : Nat} (k : Int) (hh : h < 10) (hl : l < 10) (hr : r = 16 * h + l + 256 * k) :
    isBcd (BitVec.ofInt 8 r) = true ∧ bcdValue (BitVec.ofInt 8 r) = 10 * h + l := by
  have hv : (BitVec.ofInt 8 r).toNat = 16 * h + l := by
    rw [BitVec.toNat_ofInt]
    omega
  rw [isBcd_iff, bcdValue, hv]
  omega

/-- One column of a decimal addition. -/
theorem digit_carry (n : Nat) : ∃ digit carry, digit < 10 ∧ n = digit + 10 * carry :=
  ⟨n % 10, n / 10, by omega, by omega⟩

/-- One column of a decimal subtraction. -/
theorem digit_borrow {x y : Nat} (hx : x < 10) (hy : y ≤ 10) :
    ∃ digit borrow, digit < 10 ∧ borrow ≤ 1 ∧ x + 10 * borrow = y + digit := by
  by_cases h : x < y
  · exact ⟨x + 10 - y, 1, by omega, by omega, by omega⟩
  · exact ⟨x - y, 0, by omega, by omega, by omega⟩

theorem add8_toNat (a v : Byte) (cin : Bool) : (add8 a v cin).1.toNat = (a.toNat + v.toNat + cin.toNat) % 256 :=
  BitVec.toNat_ofNat _ _

theorem sub8_toNat (a v : Byte) (cin : Bool) :
    ((sub8 a v cin).1.toNat : Int) = ((a.toNat : Int) - v.toNat - cin.toNat) % 256 := by
  rw [sub8_fst, BitVec.toNat_ofInt]
  omega

theorem add8_h (a v : Byte) (cin : Bool) :
    (add8 a v cin).2.h = true ↔ 15 < a.toNat % 16 + v.toNat % 16 + cin.toNat := decide_eq_true_iff

theorem add8_c (a v : Byte) (cin : Bool) : (add8 a v cin).2.c = true ↔ 255 < a.toNat + v.toNat + cin.toNat :=
  decide_eq_true_iff

theorem sub8_h (a v : Byte) (cin : Bool) :
    (sub8 a v cin).2.h = true ↔ a.toNat % 16 < v.toNat % 16 + cin.toNat := decide_eq_true_iff

section
variable {a v : Byte} (ha : isBcd a = true) (hv : isBcd v = true) (cin : Bool)
include ha hv

/-- After ADC the high digit is adjusted when the decimal sum has a carry. -/
theorem daaHigh_add8 :
    daaHigh (add8 a v cin).1.toNat (add8 a v cin).2 ↔ 100 ≤ bcdValue a + (bcdValue v + cin.toNat) := by
  rw [isBcd_iff] at ha hv
  have hcin := cin.toNat_le
  rw [daaHigh, add8_c, add8_toNat, bcdValue, bcdValue]
  omega

/-- After ADC the low digit is adjusted when the sum of the low digits has a decimal carry. -/
theorem daaLow_add8 :
    daaLow (add8 a v cin).1.toNat (add8 a v cin).2 ↔ 10 ≤ a.toNat % 16 + v.toNat % 16 + cin.toNat := by
  rw [isBcd_iff] at ha hv
  have hcin := cin.toNat_le
  rw [daaLow, add8_h, add8_toNat]
  omega

/-- After SBC the byte's borrow is the decimal borrow. -/
theorem sub8_c_of_bcd : (sub8 a v cin).2.c = decide (bcdValue a < bcdValue v + cin.toNat) := by
  rw [isBcd_iff] at ha hv
  have hcin := cin.toNat_le
  rw [sub8_c, decide_eq_decide, bcdValue, bcdValue]
  omega

theorem daaExact_add8 :
    daaExact (add8 a v cin).1.toNat (add8 a v cin).2 =
      (((add8 a v cin).1.toNat : Int) +
        (if 100 ≤ bcdValue a + (bcdValue v + cin.toNat) then 0x60 else 0) +
        (if 10 ≤ a.toNat % 16 + v.toNat % 16 + cin.toNat then 0x06 else 0),
      decide (100 ≤ bcdValue a + (bcdValue v + cin.toNat))) := by
  rw [daaExact_of_add _ rfl]
  simp only [daaHigh_add8 ha hv cin, daaLow_add8 ha hv cin]

theorem daaExact_sub8 :
    daaExact (sub8 a v cin).1.toNat (sub8 a v cin).2 =
      (((sub8 a v cin).1.toNat : Int) - (if bcdValue a < bcdValue v + cin.toNat then 0x60 else 0) -
        (if a.toNat % 16 < v.toNat % 16 + cin.toNat then 0x06 else 0),
      decide (bcdValue a < bcdValue v + cin.toNat)) := by
  rw [daaExact_of_sub _ rfl, sub8_c_of_bcd ha hv]
  simp only [decide_eq_true_eq, sub8_h]

/-- The low column carries `p`, the high one `q`: the `6 * p` and `$60 * q` of DAA turn carries at 16 into carries at 10. -/
theorem daa8_add8_decimal :
    let r := daa8 (add8 a v cin).1 (add8 a v cin).2
    isBcd r.1 = true ∧ bcdValue r.1 = (bcdValue a + (bcdValue v + cin.toNat)) % 100 ∧
      r.2.c = decide (100 ≤ bcdValue a + (bcdValue v + cin.toNat)) := by
  dsimp only
  rw [daa8_eq, daaExact_add8 ha hv, add8_toNat, ← and_assoc]
  refine ⟨?_, rfl⟩
  obtain ⟨ah, al, hah, hal, ha16, ha10⟩ := digits_of_isBcd ha
  obtain ⟨vh, vl, hvh, hvl, hv16, hv10⟩ := digits_of_isBcd hv
  have hcin := cin.toNat_le
  obtain ⟨l, p, hl, hlow⟩ := digit_carry (al + vl + cin.toNat)
  obtain ⟨h, q, hh, hhigh⟩ := digit_carry (ah + vh + p)
  have hadjustLow : (if 10 ≤ a.toNat % 16 + v.toNat % 16 + cin.toNat then 0x06 else 0 : Int) = 6 * p := by
    split <;> omega
  have hadjustHigh : (if 100 ≤ bcdValue a + (bcdValue v + cin.toNat) then 0x60 else 0 : Int) = 0x60 * q := by
    split <;> omega
  have hvalue : (bcdValue a + (bcdValue v + cin.toNat)) % 100 = 10 * h + l := by omega
  rw [hadjustLow, hadjustHigh, hvalue]
  exact bcd_ofInt_of_digits (q - (a.toNat + v.toNat + cin.toNat : Nat) / 256) hh hl (by dsimp only; omega)

/-- The same with the borrows `p` and `q` of the two columns. -/
theorem daa8_sub8_decimal :
    let r := daa8 (sub8 a v cin).1 (sub8 a v cin).2
    isBcd r.1 = true ∧ bcdValue r.1 = (bcdValue a + 200 - (bcdValue v + cin.toNat)) % 100 ∧
      r.2.c = decide (bcdValue a < bcdValue v + cin.toNat) := by
  dsimp only
  rw [daa8_eq, daaExact_sub8 ha hv, sub8_toNat, ← and_assoc]
  refine ⟨?_, rfl⟩
  obtain ⟨ah, al, hah, hal, ha16, ha10⟩ := digits_of_isBcd ha
  obtain ⟨vh, vl, hvh, hvl, hv16, hv10⟩ := digits_of_isBcd hv
  have hcin := cin.toNat_le
  obtain ⟨l, p, hl, hp, hlow⟩ := digit_borrow hal (y := vl + cin.toNat) (by omega)
  obtain ⟨h, q, hh, hq, hhigh⟩ := digit_borrow hah (y := vh + p) (by omega)
  have hadjustLow : (if a.toNat % 16 < v.toNat % 16 + cin.toNat then 0x06 else 0 : Int) = 6 * p := by
    split <;> omega
  have hadjustHigh : (if bcdValue a < bcdValue v + cin.toNat then 0x60 else 0 : Int) = 0x60 * q := by
    split <;> omega
  have hvalue : (bcdValue a + 200 - (bcdValue v + cin.toNat)) % 100 = 10 * h + l := by omega
  rw [hadjustLow, hadjustHigh, hvalue]
  exact bcd_ofInt_of_digits (-q - ((a.toNat : Int) - v.toNat - cin.toNat) / 256) hh hl (by dsimp only; omega)

end

/-! What an instruction after an accumulator operation finds. -/

theorem flagsOfByte_specF (fl : Flags) : flagsOfByte (specF fl.z fl.n fl.h fl.c) = fl := by
  obtain ⟨z, n, h, c⟩ := fl
  cases z <;> cases n <;> cases h <;> cases c <;> rfl

/-- What the next instruction finds in A and F is what an accumulator operation wrote there. -/
theorem State.setAFlags_flags (s : State) (r : Byte × Flags) : (s.setAFlags r).flags = r.2 := by
  rw [State.setAFlags_eq_setAF]
  exact flagsOfByte_specF r.2

theorem exec_daa_setAFlags (s : State) (r : Byte × Flags) :
    exec .daa (s.setAFlags r) = .next ((s.setAFlags r).setAFlags (daa8 r.1 r.2)) := by
  have hdaa : exec .daa (s.setAFlags r) = .next ((s.setAFlags r).setAFlags (daa8 r.1 (s.setAFlags r).flags)) := rfl
  rw [hdaa, s.setAFlags_flags]

theorem flagC_setAFlags (s : State) (r : Byte × Flags) : flagC (s.setAFlags r).regs = r.2.c :=
  congrArg Flags.c (s.setAFlags_flags r)

/-- Settles O49: DAA finds the sum or difference and its carries in A and F, and adjusts each digit that carried. -/
theorem daaIsDecimal : Obligations.DaaIsDecimal := by
  intro s r ha hv x y
  obtain ⟨haddBcd, haddValue, haddCarry⟩ := daa8_add8_decimal ha hv (flagC s.regs)
  obtain ⟨hsubBcd, hsubValue, hsubBorrow⟩ := daa8_sub8_decimal ha hv (flagC s.regs)
  exact ⟨⟨_, _, rfl, exec_daa_setAFlags s _, haddBcd, haddValue, (flagC_setAFlags _ _).trans haddCarry⟩,
    ⟨_, _, rfl, exec_daa_setAFlags s _, hsubBcd, hsubValue, (flagC_setAFlags _ _).trans hsubBorrow⟩⟩

end Sys2Proof.Machine

/-! ### ADD HL,rr, and INC and DEC of a pair (O50) -/

namespace Sys2Proof.Machine

/-! The halves of a sum in exact integers (R21, R221). -/

theorem hiByte_add (x y : Word) : hiByte (x + y) = BitVec.ofNat 8 ((x.toNat + y.toNat) / 256) :=
  BitVec.eq_of_toNat_eq (by rw [toNat_hiByte, BitVec.toNat_add, BitVec.toNat_ofNat]; omega)

theorem loByte_add (x y : Word) : loByte (x + y) = BitVec.ofNat 8 (x.toNat + y.toNat) :=
  BitVec.eq_of_toNat_eq (by rw [toNat_loByte, BitVec.toNat_add, BitVec.toNat_ofNat]; omega)

/-! A pair written, with 4 T-cycles after (R222, R223). -/

/-- `i` in state `s` leaves the value `n` in the pair `p`, in 4 T-cycles, and F and the registers outside `p` as they are. -/
def WritesPair (s : State) (i : Instr) (p : R16) (n : Nat) : Prop :=
  ∃ t, exec i s = .next t ∧ OnlyTime 4 s t ∧ (t.regs.pair p).toNat = n ∧
    (∀ q, pairHas p q = false → t.regs.get q = s.regs.get q) ∧ t.regs.f = s.regs.f ∧ (p ≠ .sp → t.regs.sp = s.regs.sp) ∧
    t.regs.pc = s.regs.pc

theorem WritesPair.of_setR16 {s : State} {i : Instr} {p : R16} {v : Word} {n : Nat}
    (h : exec i s = .next (tick 4 (s.setR16 p v))) (hv : v.toNat = n) : WritesPair s i p n := by
  refine ⟨_, h, onlyTime_tick_withRegs 4 s _, ?_⟩
  rw [tick_regs, State.setR16_eq, State.withRegs_regs, Regs.pair_setPair_same]
  exact ⟨hv, fun _ => s.regs.get_setPair_other v, s.regs.setPair_f p v, s.regs.setPair_sp_of_ne v, s.regs.setPair_pc p v⟩

theorem incRr_writesPair (s : State) (p : R16) : WritesPair s (.incRr p) p (((s.regs.pair p).toNat + 1) % 65536) :=
  .of_setR16 rfl (BitVec.toNat_add _ 1#16)

theorem decRr_writesPair (s : State) (p : R16) : WritesPair s (.decRr p) p (((s.regs.pair p).toNat + 65535) % 65536) := by
  rw [Nat.add_comm]
  exact .of_setR16 rfl (BitVec.toNat_sub _ 1#16)

/-- Settles O50: ADD HL writes HL and F from one exact sum; INC and DEC are one pair write each, and its frame. -/
theorem pairArithmetic : Obligations.PairArithmetic := by
  intro s p
  simp only [← toNat_wordOf]
  refine ⟨⟨_, rfl, onlyTime_tick_withRegs 4 s _, ?_⟩, incRr_writesPair s p, decRr_writesPair s p⟩
  rw [tick_setR16_setFlags_regs, addHl16, Regs.setPair, hiByte_add, loByte_add]
  rfl

end Sys2Proof.Machine

/-! ### Rotates, shifts and bit operations (O51, O52, O53) -/

namespace Sys2Proof.Machine

/-! The rotates and shifts in exact integers (R230). -/

theorem toNat_append_eq_add {m n : Nat} (x : BitVec m) (y : BitVec n) : (x ++ y).toNat = 2 ^ n * x.toNat + y.toNat := by
  rw [BitVec.toNat_append, ← Nat.shiftLeft_add_eq_or_of_lt y.isLt, Nat.shiftLeft_eq, Nat.mul_comm]

theorem getLsbD_eq_decide (v : Byte) (n : Nat) : v.getLsbD n = decide (bitNat v n = 1) :=
  Nat.testBit_eq_decide_div_mod_eq

theorem getLsbD_zero_eq_decide (v : Byte) : v.getLsbD 0 = decide (v.toNat % 2 = 1) := by
  rw [getLsbD_eq_decide, bitNat, Nat.pow_zero, Nat.div_one]

theorem getLsbD_seven_eq_decide (v : Byte) : v.getLsbD 7 = decide (128 ≤ v.toNat) := by
  rw [getLsbD_eq_decide, decide_eq_decide, bitNat]
  omega

/-- The result: a part cut from the byte is a quotient and a remainder, two parts joined are a sum. -/
theorem toNat_rotate_fst (f : Rot) (v : Byte) (cin : Bool) :
    (rotate f v cin).1.toNat = (specRotate f v.toNat cin.toNat).1 := by
  have htop : v.toNat / 128 % 2 = v.toNat / 128 := by omega
  have hcin := cin.toNat_le
  cases f
  all_goals
    simp only [rotate, specRotate, toNat_append_eq_add, BitVec.extractLsb'_toNat, Nat.shiftRight_eq_div_pow, Nat.reducePow,
      Nat.div_one, BitVec.toNat_ofBool, BitVec.toNat_ofNat, htop]
    omega

/-- The carry out: bit 7 on the way left, bit 0 on the way right, none for SWAP. -/
theorem rotate_snd (f : Rot) (v : Byte) (cin : Bool) : (rotate f v cin).2 = (specRotate f v.toNat cin.toNat).2 := by
  cases f
  case rlc | rl | sla => exact getLsbD_seven_eq_decide v
  case rrc | rr | sra | srl => exact getLsbD_zero_eq_decide v
  case swap => rfl

theorem rotate_eq (f : Rot) (v : Byte) (cin : Bool) :
    let r := specRotate f v.toNat cin.toNat
    rotate f v cin = (BitVec.ofNat 8 r.1, r.2) :=
  Prod.ext (BitVec.eq_of_toNat_eq (by rw [← toNat_rotate_fst, BitVec.ofNat_toNat, BitVec.setWidth_eq])) (rotate_snd f v cin)

theorem rotAcc_eq (f : Rot) (v : Byte) (fl : Flags) :
    let r := specRotate f v.toNat fl.c.toNat
    rotAcc f v fl = (BitVec.ofNat 8 r.1, { z := false, n := false, h := false, c := r.2 }) := by
  rw [rotAcc, rotate_eq]

theorem rotCb_eq (f : Rot) (v : Byte) (fl : Flags) :
    let r := specRotate f v.toNat fl.c.toNat
    rotCb f v fl = (BitVec.ofNat 8 r.1, { z := decide (r.1 = 0), n := false, h := false, c := r.2 }) := by
  intro r
  rw [rotCb, toNat_beq_zero, toNat_rotate_fst, rotate_eq]

/-! The rotates and shifts of A, of a register and of the byte at HL (R230). -/

theorem rotateAcc_eq (f : Rot) (s : State) :
    let r := specRotate f s.regs.a.toNat (flagC s.regs).toNat
    rotateAcc f s = s.withRegs { s.regs with a := BitVec.ofNat 8 r.1, f := specF false false false r.2 } := by
  rw [rotateAcc, rotAcc_eq, State.setAFlags_eq_setAF]
  rfl

theorem rotateReg_eq (f : Rot) (r : R8) (s : State) :
    let x := specRotate f (s.regs.get r).toNat (flagC s.regs).toNat
    rotateReg f r s =
      s.withRegs { s.regs.set r (BitVec.ofNat 8 x.1) with f := specF (decide (x.1 = 0)) false false x.2 } := by
  rw [rotateReg, rotCb_eq, setR8_setFlags]
  rfl

/-- Settles O51: `rotateAcc` and `rotateReg` of the row of R230 that each instruction names. -/
theorem rotateRegisters : Obligations.RotateRegisters := by
  refine fun s => ⟨congrArg _ (rotateAcc_eq .rlc s), congrArg _ (rotateAcc_eq .rrc s), congrArg _ (rotateAcc_eq .rl s),
    congrArg _ (rotateAcc_eq .rr s), fun r => ?_⟩
  exact ⟨congrArg _ (rotateReg_eq .rlc r s), congrArg _ (rotateReg_eq .rrc r s), congrArg _ (rotateReg_eq .rl r s),
    congrArg _ (rotateReg_eq .rr r s), congrArg _ (rotateReg_eq .sla r s), congrArg _ (rotateReg_eq .sra r s),
    congrArg _ (rotateReg_eq .swap r s), congrArg _ (rotateReg_eq .srl r s)⟩

/-- A rotate or shift at HL is the read, change and write of INC and DEC, with its own byte function. -/
theorem rotateAtHl_eq_modifyAtHl (f : Rot) (s : State) : rotateAtHl f s = modifyAtHl (rotCb f) s := rfl

theorem rotateAtHl_frame (f : Rot) (s : State) :
    let r := specRotate f (busRead s s.hl).toNat (flagC s.regs).toNat
    StoredByte (afterRead s s.hl) s.hl (BitVec.ofNat 8 r.1) 4 (rotateAtHl f s) ∧
      (rotateAtHl f s).regs = { s.regs with f := specF (decide (r.1 = 0)) false false r.2 } := by
  have hframe := modifyAtHl_frame (rotCb f) s
  rw [rotCb_eq] at hframe
  rw [rotateAtHl_eq_modifyAtHl]
  exact hframe

/-- Settles O52: `rotateAtHl` of the row of R230 that each instruction names. -/
theorem rotateMemory : Obligations.RotateMemory := by
  intro s
  rw [← s.hl_eq_ofNat]
  exact ⟨⟨_, rfl, rotateAtHl_frame .rlc s⟩, ⟨_, rfl, rotateAtHl_frame .rrc s⟩, ⟨_, rfl, rotateAtHl_frame .rl s⟩,
    ⟨_, rfl, rotateAtHl_frame .rr s⟩, ⟨_, rfl, rotateAtHl_frame .sla s⟩, ⟨_, rfl, rotateAtHl_frame .sra s⟩,
    ⟨_, rfl, rotateAtHl_frame .swap s⟩, ⟨_, rfl, rotateAtHl_frame .srl s⟩⟩

/-! One bit of a byte in exact integers (R251, R253, R255). -/

theorem toNat_bitMask (b : Fin 8) : (1#8 <<< b.val).toNat = 2 ^ b.val := by
  rw [← BitVec.twoPow_eq, BitVec.toNat_twoPow, Nat.mod_eq_of_lt (Nat.pow_lt_pow_right (by decide) b.isLt)]

theorem toNat_and_bitMask (b : Fin 8) (v : Byte) : (v &&& 1#8 <<< b.val).toNat = 2 ^ b.val * bitNat v b.val := by
  have hbit : bitNat v b.val = (v.getLsbD b.val).toNat := (Nat.toNat_testBit _ _).symm
  rw [hbit, ← BitVec.twoPow_eq, BitVec.and_twoPow, BitVec.twoPow_eq]
  cases v.getLsbD b.val with
  | false => rfl
  | true => exact (toNat_bitMask b).trans (Nat.mul_one _).symm

theorem resBit_and_bitMask (b : Fin 8) (v : Byte) : resBit b v &&& 1#8 <<< b.val = 0#8 := by
  rw [resBit, BitVec.and_assoc, BitVec.and_comm (~~~_), BitVec.and_not_self]
  exact BitVec.and_zero

/-- The byte is what RES leaves and the bit. -/
theorem toNat_resBit_add (b : Fin 8) (v : Byte) : (resBit b v).toNat + 2 ^ b.val * bitNat v b.val = v.toNat := by
  have hdisjoint : resBit b v &&& (v &&& 1#8 <<< b.val) = 0#8 := by
    rw [BitVec.and_comm v, ← BitVec.and_assoc, resBit_and_bitMask, BitVec.zero_and]
  rw [← toNat_and_bitMask, ← BitVec.toNat_add_of_and_eq_zero hdisjoint, BitVec.add_eq_or_of_and_eq_zero _ _ hdisjoint, resBit,
    ← BitVec.and_or_distrib_left, BitVec.or_comm, BitVec.or_not_self, BitVec.and_allOnes]

/-- SET adds the bit to what RES leaves. -/
theorem toNat_setBit (b : Fin 8) (v : Byte) : (setBit b v).toNat = (resBit b v).toNat + 2 ^ b.val := by
  have hset : setBit b v = resBit b v ||| 1#8 <<< b.val := by
    ext i
    simp only [setBit, resBit, BitVec.getElem_or, BitVec.getElem_and, BitVec.getElem_not]
    cases (1#8 <<< b.val)[i] <;> simp
  rw [hset, ← BitVec.add_eq_or_of_and_eq_zero _ _ (resBit_and_bitMask b v),
    BitVec.toNat_add_of_and_eq_zero (resBit_and_bitMask b v), toNat_bitMask]

theorem resBit_eq (b : Fin 8) (v : Byte) : resBit b v = BitVec.ofNat 8 (v.toNat - 2 ^ b.val * bitNat v b.val) := by
  rw [← toNat_resBit_add b v, Nat.add_sub_cancel, BitVec.ofNat_toNat, BitVec.setWidth_eq]

theorem setBit_eq (b : Fin 8) (v : Byte) : setBit b v = BitVec.ofNat 8 (v.toNat + 2 ^ b.val * (1 - bitNat v b.val)) := by
  have hbit : bitNat v b.val + (1 - bitNat v b.val) = 1 :=
    Nat.add_sub_cancel' (Nat.le_of_lt_succ (Nat.mod_lt _ Nat.two_pos))
  rw [← toNat_resBit_add b v, Nat.add_assoc, ← Nat.mul_add, hbit, Nat.mul_one, ← toNat_setBit, BitVec.ofNat_toNat,
    BitVec.setWidth_eq]

theorem bitFlags_z (b : Fin 8) (v : Byte) (fl : Flags) : (bitFlags b v fl).z = decide (bitNat v b.val = 0) := by
  have hz : (bitFlags b v fl).z = !v.getLsbD b.val := rfl
  rw [hz, getLsbD_eq_decide, ← decide_not, decide_eq_decide, bitNat]
  omega

/-! BIT, RES and SET on a register and on the byte at HL (R251 to R256). -/

theorem setFlags_bitFlags (b : Fin 8) (v : Byte) (s : State) :
    s.setFlags (bitFlags b v s.flags) =
      s.withRegs { s.regs with f := specF (decide (bitNat v b.val = 0)) false true (flagC s.regs) } := by
  rw [State.setFlags_eq_withRegs, bitFlags_z]
  rfl

theorem bitTestAtHl_frame (b : Fin 8) (s : State) :
    OnlyTime 4 (readEffect s s.hl) (bitTestAtHl b s) ∧ (bitTestAtHl b s).regs =
      { s.regs with f := specF (decide (bitNat (busRead s s.hl) b.val = 0)) false true (flagC s.regs) } := by
  simp only [bitTestAtHl, memRead_fst, memRead_snd, setFlags_bitFlags, afterRead_regs]
  exact ⟨onlyTime_read s _ _, rfl⟩

/-- RES and SET at HL: the byte read, the byte written 4 T-cycles later, and no register changed (R254, R256). -/
theorem changeAtHl_frame (f : Byte → Byte) (s : State) :
    StoredByte (afterRead s s.hl) s.hl (f (busRead s s.hl)) 4 (changeAtHl f s) ∧ (changeAtHl f s).regs = s.regs := by
  have hchange : changeAtHl f s = memWrite (afterRead s s.hl) s.hl (f (busRead s s.hl)) := by
    simp [changeAtHl, State.hl]
  rw [hchange, memWrite_regs, afterRead_regs]
  exact ⟨storedByte_memWrite _ _ _, rfl⟩

/-- Settles O53: `bitFlags` on the operand for BIT, and `resBit` and `setBit` into the register or back to HL. -/
theorem bitOperations : Obligations.BitOperations := by
  intro s b
  rw [← s.hl_eq_ofNat]
  simp only [← resBit_eq, ← setBit_eq]
  exact ⟨fun _ => congrArg _ (setFlags_bitFlags b _ s), fun _ => rfl, fun _ => rfl, ⟨_, rfl, bitTestAtHl_frame b s⟩,
    ⟨_, rfl, changeAtHl_frame _ s⟩, ⟨_, rfl, changeAtHl_frame _ s⟩⟩

end Sys2Proof.Machine

/-! ### Jumps, calls and returns (O55, O56, O57, O58) -/

namespace Sys2Proof.Machine

/-! A conditional jump or call whose condition holds is the unconditional one (R271, R274, R276). -/

theorem exec_jpCc (cc : Cond) (nn : Word) (s : State) :
    exec (.jpCc cc nn) s = if condMet s.regs cc then exec (.jpNn nn) s else .next s := by
  rw [← condHolds_flags]
  rfl

theorem exec_jrCc (cc : Cond) (e : Byte) (s : State) :
    exec (.jrCc cc e) s = if condMet s.regs cc then exec (.jrE e) s else .next s := by
  rw [← condHolds_flags]
  rfl

theorem exec_callCc (cc : Cond) (nn : Word) (s : State) :
    exec (.callCc cc nn) s = if condMet s.regs cc then exec (.callNn nn) s else .next s := by
  rw [← condHolds_flags]
  rfl

/-- A taken `RET cc` spends 4 T-cycles more than `RET`, so it is not an instance of it (R278). -/
theorem exec_retCc (cc : Cond) (s : State) :
    exec (.retCc cc) s = if condMet s.regs cc then .next (tick 8 (popPc s)) else .next (tick 4 s) := by
  rw [← condHolds_flags]
  rfl

/-! Jumps (R270 to R274). -/

/-- `i` in state `s` spends 4 T-cycles and goes on at `dest`. -/
def JumpsTo (s : State) (i : Instr) (dest : Word) : Prop :=
  ∃ t, exec i s = .next t ∧ OnlyTime 4 s t ∧ t.regs = { s.regs with pc := dest }

theorem JumpsTo.of_tick_setPc {s : State} {i : Instr} {dest : Word} (h : exec i s = .next (tick 4 (s.setPc dest))) :
    JumpsTo s i dest :=
  ⟨_, h, onlyTime_tick_withRegs 4 s _, tick_regs 4 _⟩

/-- The target of a relative jump in exact integers: the sum AddSpE makes of SP, here of PC (R11, R273). -/
theorem add_sext16 (pc : Word) (e : Byte) : pc + sext16 e = BitVec.ofInt 16 (pc.toNat + e.toInt) := addSpE16_fst pc e

/-- Settles O55: JP and JR are one write of PC and 4 T-cycles, JP HL the write alone, and a condition chooses between the
jump and nothing. -/
theorem jumps : Obligations.Jumps := by
  intro s
  simp only [← toInt_byte, ← add_sext16]
  rw [← s.hl_eq_ofNat]
  refine ⟨fun _ => JumpsTo.of_tick_setPc rfl, fun _ => JumpsTo.of_tick_setPc rfl, rfl, fun cc nn => ?_, fun cc e => ?_⟩
  · exact ⟨fun hcc => JumpsTo.of_tick_setPc ((exec_jpCc cc nn s).trans (if_pos hcc)),
      fun hcc => (exec_jpCc cc nn s).trans (if_neg (ne_true_of_eq_false hcc))⟩
  · exact ⟨fun hcc => JumpsTo.of_tick_setPc ((exec_jrCc cc e s).trans (if_pos hcc)),
      fun hcc => (exec_jrCc cc e s).trans (if_neg (ne_true_of_eq_false hcc))⟩

/-! Calls (R275, R276, R280). -/

theorem storedTwo_callTo (s : State) (dest : Word) (k : Nat) (hk : k % 2 = 0) :
    StoredTwo s (s.regs.sp - 1#16) (hiByte s.regs.pc) (s.regs.sp - 2#16) (loByte s.regs.pc) (4 + k)
      (tick k (callTo s dest)) := by
  rw [callTo, State.setPc_eq, tick_withRegs]
  exact (storedTwo_push16 s s.regs.pc k hk).withRegs _

theorem tick_callTo_regs (s : State) (dest : Word) (k : Nat) :
    (tick k (callTo s dest)).regs = { s.regs with sp := s.regs.sp - 2#16, pc := dest } := by
  rw [tick_regs, callTo_eq, State.withRegs_regs]

/-- `i` in state `s` pushes PC, high byte first, and goes on at `dest` 8 T-cycles after the second write. -/
def CallsTo (s : State) (i : Instr) (dest : Word) : Prop :=
  ∃ t, exec i s = .next t ∧ t.regs = { s.regs with sp := s.regs.sp - 2#16, pc := dest } ∧
    StoredTwo s (s.regs.sp - 1#16) (hiByte s.regs.pc) (s.regs.sp - 2#16) (loByte s.regs.pc) 8 t

theorem CallsTo.of_callTo {s : State} {i : Instr} {dest : Word} (h : exec i s = .next (tick 4 (callTo s dest))) :
    CallsTo s i dest :=
  ⟨_, h, tick_callTo_regs s dest 4, storedTwo_callTo s dest 4 rfl⟩

/-- Settles O56: the three push PC by `callTo`, at their own targets, and a condition chooses between the call and
nothing. -/
theorem calls : Obligations.Calls := by
  intro s
  simp only [BitVec.ofNat_toNat]
  exact ⟨fun _ => CallsTo.of_callTo rfl, fun _ => CallsTo.of_callTo rfl, fun cc nn =>
    ⟨fun hcc => CallsTo.of_callTo ((exec_callCc cc nn s).trans (if_pos hcc)),
      fun hcc => (exec_callCc cc nn s).trans (if_neg (ne_true_of_eq_false hcc))⟩⟩

/-! Returns (R277, R278, R279, R318). -/

/-- The register file after PC is popped: the low byte from SP, the high byte from SP + 1 one access later (R17). -/
def poppedRegs (s : State) : Regs :=
  { s.regs with
    sp := s.regs.sp + 2#16
    pc := wordOf (busRead (afterRead s s.regs.sp) (s.regs.sp + 1#16)) (busRead s s.regs.sp) }

/-- The state at the second read of a pop, its side effect included and its T-cycles not. -/
def lastPopRead (s : State) : State := readEffect (afterRead s s.regs.sp) (s.regs.sp + 1#16)

theorem tick_popPc (s : State) (k : Nat) (hk : k % 2 = 0) :
    tick k (popPc s) = (tick (4 + k) (lastPopRead s)).withRegs (poppedRegs s) := by
  rw [popPc_eq, tick_withRegs, afterRead, tick_tick 4 k hk]
  rfl

theorem tick_popPc_frame (s : State) (k : Nat) (hk : k % 2 = 0) :
    OnlyTime (4 + k) (lastPopRead s) (tick k (popPc s)) ∧ (tick k (popPc s)).regs = poppedRegs s := by
  rw [tick_popPc s k hk]
  exact ⟨onlyTime_tick _ _ _, rfl⟩

/-- No device looks at `ime` (R14). -/
theorem tick_withIme (k : Nat) (s : State) (b : Bool) : tick k { s with ime := b } = { tick k s with ime := b } := by
  have hwith : ({ s with ime := b } : State) = s.withCtl { s.ctl with ime := b } := rfl
  have hself := State.withCtl_ctl (tick k s)
  rw [tick_ctl] at hself
  rw [hwith, tick_withCtl, ← hself]
  rfl

/-- RETI is RET with `ime` set before the last 4 T-cycles (R279, R318). -/
theorem returnFromInterrupt_eq_tick_popPc (s : State) :
    returnFromInterrupt s = { tick 4 (popPc s) with ime := true } := tick_withIme 4 (popPc s) true

theorem returnFromInterrupt_frame (s : State) :
    OnlyTime 8 { lastPopRead s with ime := true } (returnFromInterrupt s) ∧
      (returnFromInterrupt s).regs = poppedRegs s := by
  have hreturn : returnFromInterrupt s = (tick 8 { lastPopRead s with ime := true }).withRegs (poppedRegs s) := by
    rw [returnFromInterrupt_eq_tick_popPc, tick_popPc s 4 rfl, tick_withIme 8 (lastPopRead s) true]
    rfl
  rw [hreturn]
  exact ⟨onlyTime_tick 8 _ _, rfl⟩

/-- Settles O57: each is `popPc` with its own T-cycles after it, RETI sets `ime` besides, and a RET cc not taken is time
alone. -/
theorem returns : Obligations.Returns := by
  intro s
  simp only [ofNat_eq_wordOf]
  refine ⟨⟨_, rfl, tick_popPc_frame s 4 rfl⟩, ⟨_, rfl, returnFromInterrupt_frame s⟩, fun cc => ⟨fun hcc => ?_, fun hcc => ?_⟩⟩
  · exact ⟨_, (exec_retCc cc s).trans (if_pos hcc), tick_popPc_frame s 8 rfl⟩
  · exact ⟨_, (exec_retCc cc s).trans (if_neg (ne_true_of_eq_false hcc)), .tick 4 s, tick_regs 4 s⟩

/-! Calls and interrupts undone by their returns (R275, R277, R279, R310). -/

theorem poppedRegs_eq_pop16 (s : State) :
    poppedRegs s = { s.regs with sp := (pop16 s).2.regs.sp, pc := (pop16 s).1 } := by
  rw [pop16_eq]
  rfl

/-- Popping PC after `callTo` and any time brings the whole register file back. -/
theorem poppedRegs_tick_callTo {s : State} (dest : Word) {k : Nat} (hk : k % 2 = 0) (hm : Memory.wf s.mem = true)
    (hstack : stackInWorkRam s.regs.sp) : poppedRegs (tick k (callTo s dest)) = s.regs := by
  have hregs := tick_callTo_regs s dest k
  obtain ⟨hpc, hsp⟩ := pop16_of_storedTwo hm hstack (congrArg Regs.sp hregs) (storedTwo_callTo s dest k hk)
  rw [poppedRegs_eq_pop16, hpc, hsp, hregs]

/-- What `dispatch` clears before it pushes PC: the interrupt's flag, `ime` and the `EI` delay (R310). -/
def interruptAcknowledged (s : State) : State :=
  { s with intFlags := s.intFlags &&& ~~~(1#5 <<< leastBit (pending s)), ime := false, imePending := 0 }

theorem dispatch_eq (s : State) :
    dispatch s = tick 12 (callTo (interruptAcknowledged s) (vectorOf (leastBit (pending s)))) := rfl

theorem poppedRegs_dispatch {s : State} (hm : Memory.wf s.mem = true) (hstack : stackInWorkRam s.regs.sp) :
    poppedRegs (dispatch s) = s.regs := by
  rw [dispatch_eq]
  exact poppedRegs_tick_callTo (s := interruptAcknowledged s) _ rfl hm hstack

/-- A step takes an interrupt that is enabled and pending, whether the CPU is awake or halted (R303, R305). -/
theorem step_of_interrupt {s : State} (hime : s.ime = true) (hstop : s.stopped = false) (hpending : pending s ≠ 0#5) :
    step s = .next (dispatch { s with halted := false }) := by
  have hwake : wake s = { s with halted := false } := by
    rw [wake_eq, beq_false_of_ne hpending, Bool.and_false]
  have hidle : ¬ idles { s with halted := false } = true := by simp [idles, hstop]
  have htake : takesInterrupt { s with halted := false } = true := (Bool.and_eq_true _ _).mpr ⟨hime, bne_iff_ne.mpr hpending⟩
  rw [step, hwake]
  exact (if_neg hidle).trans (if_pos htake)

/-- Settles O58: a call and an interrupt both are `callTo` and time, after which a return pops the registers of before. -/
theorem callsReturn : Obligations.CallsReturn := by
  intro s hm hstack
  refine ⟨fun nn => ⟨_, _, rfl, rfl, ?_⟩, fun hime hstop hpending => ?_⟩
  · exact (tick_popPc_frame _ 4 rfl).2.trans (poppedRegs_tick_callTo nn rfl hm hstack)
  · obtain ⟨htime, hregs⟩ := returnFromInterrupt_frame (dispatch { s with halted := false })
    exact ⟨_, _, step_of_interrupt hime hstop hpending, rfl, hregs.trans (poppedRegs_dispatch hm hstack), htime.ime⟩

end Sys2Proof.Machine

/-! ### The system instructions, the undefined opcodes and the prefix (O10, O54, O59) -/

namespace Sys2Proof.Machine

/-! The undefined opcodes (R107, R296). -/

/-- Each is one byte long, decodes to its own instruction, and that instruction raises it. -/
theorem undefinedOpcodes_row {op : Byte} {i : Instr} (h : (op, i) ∈ undefinedOpcodes) :
    operandBytes op = 0 ∧ decodeBytes op 0#8 0#8 = i ∧ ∀ s, exec i s = undefinedOpcode op s := by
  unfold undefinedOpcodes at h
  fin_cases h <;> exact ⟨rfl, rfl, fun _ => rfl⟩

theorem fetchInstr_of_undefined {op : Byte} {i : Instr} (h : (op, i) ∈ undefinedOpcodes) {s : State}
    (hop : codeByte s 0 = op) : fetchInstr s = (i, afterFetch s 1) := by
  obtain ⟨hlen, hdec, -⟩ := undefinedOpcodes_row h
  simp [fetchInstr_eq, hop, hlen, hdec]

theorem undefinedOpcode_of_fault {s : State} (h : s.undefPolicy = .fault) (op : Byte) :
    undefinedOpcode op s = .fault (.undefinedOpcode op s) := by simp [undefinedOpcode, h]

theorem undefinedOpcode_of_nop {s : State} (h : s.undefPolicy = .nop) (op : Byte) : undefinedOpcode op s = .next s := by
  simp [undefinedOpcode, h]

/-- A step that neither idles nor takes an interrupt is an instruction of the woken CPU (R300). -/
theorem step_of_runsInstr {s : State} (h : runsInstr s = true) : step s = runInstr (wake s) := by
  obtain ⟨hidle, htake⟩ : idles (wake s) = false ∧ takesInterrupt (wake s) = false := by simpa [runsInstr] using h
  simp [step, hidle, htake]

theorem step_of_exec_next {s t u : State} {i : Instr} (hrun : runsInstr s = true) (hfetch : fetchInstr (wake s) = (i, u))
    (hexec : exec i u = .next t) : step s = .next (eiDelay t) := by
  rw [step_of_runsInstr hrun, runInstr, hfetch]
  simp only [hexec]

theorem step_of_exec_fault {s u : State} {i : Instr} {f : Fault} (hrun : runsInstr s = true)
    (hfetch : fetchInstr (wake s) = (i, u)) (hexec : exec i u = .fault f) : step s = .fault f := by
  rw [step_of_runsInstr hrun, runInstr, hfetch]
  simp only [hexec]

theorem afterFetch_wake_undefPolicy (s : State) (n : Nat) : (afterFetch (wake s) n).undefPolicy = s.undefPolicy := by
  rw [(Runs.fetch (wake s) n).policy, wake_eq]

/-- Settles O10: each opcode is `undefinedOpcode` of its own byte, which the policy decides; a step is that after the
fetch of the one byte. -/
theorem undefinedOpcodesBothPolicies : Obligations.UndefinedOpcodesBothPolicies := by
  intro op i h
  obtain ⟨hlen, hdec, hexec⟩ := undefinedOpcodes_row h
  refine ⟨by simp [decode, hlen, hdec], fun s hp => ?_, fun s hp => ?_, fun s hrun hop hp => ?_, fun s hrun hop hp => ?_⟩
  · rw [hexec, undefinedOpcode_of_fault hp]
  · rw [hexec, undefinedOpcode_of_nop hp]
  · exact step_of_exec_fault hrun (fetchInstr_of_undefined h hop)
      (by rw [hexec, undefinedOpcode_of_fault ((afterFetch_wake_undefPolicy s 1).trans hp)])
  · exact step_of_exec_next hrun (fetchInstr_of_undefined h hop)
      (by rw [hexec, undefinedOpcode_of_nop ((afterFetch_wake_undefPolicy s 1).trans hp)])

/-! The prefix (R106, R295). -/

/-- A row of the rotates and shifts is the same in the decoder and in the operation the prefix runs. -/
theorem exec_decodeRot {k : Byte} (hx : opX k = 0#2) (s : State) : exec (decodeRot k) s = .next (runCbOperation k s) := by
  unfold decodeRot runCbOperation
  rw [hx]
  rcases bv3_cases (opY k) with hy | hy | hy | hy | hy | hy | hy | hy <;> rw [hy] <;>
    cases operandOf (opZ k) <;> rfl

/-- The prefix runs the operation the decoder reads from the byte after it. -/
theorem exec_decodeCb (k : Byte) (s : State) : exec (decodeCb k) s = .next (runCbOperation k s) := by
  rcases bv2_cases (opX k) with hx | hx | hx | hx
  · have hrot : decodeCb k = decodeRot k := by rw [decodeCb, hx]; rfl
    rw [hrot, exec_decodeRot hx]
  all_goals
    unfold decodeCb runCbOperation
    rw [hx]
    cases operandOf (opZ k) <;> rfl

theorem exec_prefixCb (s : State) : exec .prefixCb s = .next (runCbOperation (busRead s s.regs.pc)
    ((afterRead s s.regs.pc).withRegs { s.regs with pc := s.regs.pc + 1#16 })) := by
  show Host.Outcome.next (runCbOperation (fetch8 s).1 (fetch8 s).2) = _
  rw [fetch8_eq]

/-- Settles O54: the prefix is `Fetch8` and the operation of the byte fetched. -/
theorem prefixRunsTheTable : Obligations.PrefixRunsTheTable := fun s =>
  ⟨(exec_prefixCb s).trans (exec_decodeCb _ _).symm, decode_cbPair _ [], _, exec_prefixCb s⟩

/-! NOP, HALT, STOP, DI and EI (R290 to R294). -/

/-- Nothing enabled is pending when no interrupt's bit is set in both IE and IF (R302). -/
theorem pending_eq_zero_iff (s : State) :
    pending s = 0#5 ↔ ∀ n, (s.intEnable.getLsbD n && s.intFlags.getLsbD n) = false := by
  simp only [pending, ← BitVec.getLsbD_and]
  exact ⟨fun h n => by rw [h, BitVec.getLsbD_zero], fun h => BitVec.eq_of_getLsbD_eq fun n _ => by
    rw [h, BitVec.getLsbD_zero]⟩

theorem exec_halt_of_ime_or_pending_eq_zero {s : State} (h : s.ime = true ∨ pending s = 0#5) :
    exec .halt s = .next { s with halted := true } := by
  show execHalt s = _
  unfold execHalt
  rcases h with h | h
  · rw [if_pos h]
  · rw [if_pos h, ite_self]

theorem exec_halt_of_pending {s : State} (hime : s.ime = false) (h : pending s ≠ 0#5) :
    exec .halt s = .next { s with haltBug := true } := by
  show execHalt s = _
  rw [execHalt, if_neg (by simp [hime]), if_neg h]

theorem exec_stop_of_dmg {s : State} (h : s.cgb = none) : exec .stop s = .next { s with stopped := true } := by
  show execStop s = _
  rw [execStop, h]

/-- Settles O59: NOP, DI and EI by definition, HALT by whether something enabled is pending, STOP as on a DMG. -/
theorem systemInstructions : Obligations.SystemInstructions := by
  intro s
  refine ⟨rfl, rfl, rfl, fun h => ?_, fun hime ⟨n, hn⟩ => ?_, exec_stop_of_dmg⟩
  · exact exec_halt_of_ime_or_pending_eq_zero (h.imp id (pending_eq_zero_iff s).mpr)
  · refine exec_halt_of_pending hime fun h => ?_
    rw [(pending_eq_zero_iff s).mp h n] at hn
    exact absurd hn (by decide)

end Sys2Proof.Machine

/-! ### The speed switch and double speed (O60) -/

namespace Sys2Proof.Machine

/-! What the PPU sees of a state: itself, memory, and whether the machine is a CGB (R385, R399, R401). -/

/-- `t` looks to the PPU as `s` does. -/
structure SamePicture (s t : State) : Prop where
  ppu : t.ppu = s.ppu
  mem : t.mem = s.mem
  isCgb : t.cgb.isSome = s.cgb.isSome

theorem drawOrder_of_isSome {c c' : Option Cgb} (h : c'.isSome = c.isSome) : drawOrder c' = drawOrder c :=
  match c, c', h with
  | none, none, _ => rfl
  | some _, some _, _ => rfl

theorem renderedLine_of_isSome {c c' : Option Cgb} (h : c'.isSome = c.isSome) (m : List Host.Cell) (p : Ppu) (y : Nat) :
    renderedLine m p c' y = renderedLine m p c y := by
  rw [renderedLine, renderedLine, drawOrder_of_isSome h]

theorem SamePicture.withPpu {s t : State} (h : SamePicture s t) (p : Ppu) :
    SamePicture { s with ppu := p } { t with ppu := p } := ⟨rfl, h.mem, h.isCgb⟩

theorem SamePicture.endOfLine {s t : State} (h : SamePicture s t) : (endOfLine t).ppu = (endOfLine s).ppu := by
  rw [(endOfLine_eq t).1, (endOfLine_eq s).1, h.ppu, h.mem]

theorem SamePicture.enterMode3 {s t : State} (h : SamePicture s t) : (enterMode3 t).ppu = (enterMode3 s).ppu := by
  rw [enterMode3_ppu, enterMode3_ppu, h.ppu, h.mem, renderedLine_of_isSome h.isCgb]

theorem SamePicture.lineEvent {s t : State} (h : SamePicture s t) : (lineEvent t).ppu = (lineEvent s).ppu := by
  unfold Machine.lineEvent
  rw [h.ppu]
  split_ifs
  · exact h.endOfLine
  · exact h.enterMode3
  · rw [enterMode0_ppu, enterMode0_ppu, h.ppu]
  · exact h.ppu

/-- A T-cycle of the PPU keeps two states alike to it. -/
theorem SamePicture.ppuTick {s t : State} (h : SamePicture s t) : SamePicture (ppuTick s) (ppuTick t) where
  ppu := by
    unfold Machine.ppuTick
    rw [h.ppu]
    split
    · exact (h.withPpu _).lineEvent
    · exact h.ppu
  mem := by rw [DeviceAction.ppuTick.mem, DeviceAction.ppuTick.mem, h.mem]
  isCgb := by rw [DeviceAction.ppuTick.cgb, DeviceAction.ppuTick.cgb, h.isCgb]

theorem SamePicture.ppuTicks {s t : State} (h : SamePicture s t) (n : Nat) :
    SamePicture (Machine.ppuTick^[n] s) (Machine.ppuTick^[n] t) := by
  induction n generalizing s t with
  | zero => exact h
  | succ n ih => exact ih h.ppuTick

theorem samePicture_timerTick (s : State) : SamePicture s (timerTick s) :=
  ⟨timerTick_ppu s, DeviceAction.timerTick.mem s, congrArg _ (DeviceAction.timerTick.cgb s)⟩

/-- The PPU sees neither the speed nor a request for a switch. -/
theorem samePicture_withCgb {s : State} {g : Cgb} (hcgb : s.cgb = some g) (g' : Cgb) :
    SamePicture s { s with cgb := some g' } := ⟨rfl, rfl, by rw [hcgb]; rfl⟩

/-! A tick moves the PPU in those of its T-cycles that `ppuMoves` names (R425). -/

/-- In how many of the last `k` T-cycles of a tick the PPU moves. -/
def ppuCount (s : State) (k : Nat) : Nat := Nat.count (ppuMoves s · = true) k

/-- The PPU after a T-cycle is the PPU after its own step, or as it was. -/
theorem samePicture_tCycle (s : State) (left : Nat) :
    SamePicture (if ppuMoves s left then ppuTick s else s) (tCycle s left) := by
  have htimer := samePicture_timerTick s
  unfold tCycle
  split
  · exact ⟨htimer.ppuTick.ppu, htimer.ppuTick.mem, htimer.ppuTick.isCgb⟩
  · exact ⟨htimer.ppu, htimer.mem, htimer.isCgb⟩

theorem ppuMoves_of_cgb {s t : State} (h : t.cgb = s.cgb) : ppuMoves t = ppuMoves s := by
  funext left; simp [ppuMoves, h]

theorem tCycles_ppu (k : Nat) (s : State) : (tCycles k s).ppu = (ppuTick^[ppuCount s k] s).ppu := by
  induction k generalizing s with
  | zero => rfl
  | succ k ih =>
    have hmoves : ppuMoves (tCycle s k) = ppuMoves s := ppuMoves_of_cgb ((DeviceAction.tCycle k).cgb s)
    have hcount : ppuCount (tCycle s k) k = ppuCount s k := by rw [ppuCount, hmoves, ppuCount]
    have hcycle := samePicture_tCycle s k
    rw [tCycles, ih, hcount, (hcycle.ppuTicks _).ppu, ppuCount, ppuCount, Nat.count_succ]
    split <;> rfl

theorem tick_ppu (k : Nat) (s : State) : (tick k s).ppu = (ppuTick^[ppuCount s k] s).ppu := by
  have hpic : SamePicture s { s with cyclesTotal := s.cyclesTotal + k } := ⟨rfl, rfl, rfl⟩
  exact (tCycles_ppu k _).trans (hpic.ppuTicks _).ppu

theorem ppuCount_of_singleSpeed {s : State} {g : Cgb} (hcgb : s.cgb = some g) (hspeed : g.doubleSpeed = false) (k : Nat) :
    ppuCount s k = k :=
  Nat.count_of_forall fun _ => by simp [ppuMoves, hcgb, hspeed]

theorem ppuCount_of_doubleSpeed {s : State} {g : Cgb} (hcgb : s.cgb = some g) (hspeed : g.doubleSpeed = true) (k : Nat) :
    ppuCount s (2 * k) = k := by
  have hmoves (left : Nat) : ppuMoves s left = true ↔ left % 2 = 0 := by simp [ppuMoves, hcgb, hspeed]
  unfold ppuCount
  induction k with
  | zero => rfl
  | succ k ih =>
    rw [Nat.mul_add_one, Nat.count_succ, Nat.count_succ, ih, if_pos ((hmoves _).mpr (by omega)),
      if_neg (by rw [hmoves]; omega)]

/-! The timer takes part in every T-cycle, whatever the speed (R14, R366, R425). -/

theorem tCycle_timer (s : State) (left : Nat) : (tCycle s left).timer = (timerTick s).timer := by
  unfold tCycle dmaTick
  dsimp only
  split
  · rw [ppuTick_timer]
  · rfl

theorem reloadTick_timer_congr {s t : State} (h : t.timer = s.timer) : (reloadTick t).timer = (reloadTick s).timer := by
  unfold reloadTick
  rw [h]
  split
  · exact h
  · rfl
  · rfl

theorem timerTick_timer (s : State) : (timerTick s).timer = edgeTick s.timer.divCounter
    (reloadTick { s with timer := { s.timer with divCounter := s.timer.divCounter + 1#16 } }).timer := rfl

theorem timerTick_timer_congr {s t : State} (h : t.timer = s.timer) : (timerTick t).timer = (timerTick s).timer := by
  rw [timerTick_timer, timerTick_timer, h]
  exact congrArg _ (reloadTick_timer_congr rfl)

theorem tCycles_timer_congr (k : Nat) {s t : State} (h : t.timer = s.timer) :
    (tCycles k t).timer = (tCycles k s).timer := by
  induction k generalizing s t with
  | zero => exact h
  | succ k ih =>
    refine ih ?_
    rw [tCycle_timer, tCycle_timer, timerTick_timer_congr h]

theorem tick_timer_congr (k : Nat) {s t : State} (h : t.timer = s.timer) : (tick k t).timer = (tick k s).timer :=
  tCycles_timer_congr k h

theorem edgeTick_divCounter (old : BitVec 16) (t : Timer) : (edgeTick old t).divCounter = t.divCounter := by
  unfold edgeTick incTima
  split_ifs <;> rfl

theorem reloadTick_divCounter (s : State) : (reloadTick s).timer.divCounter = s.timer.divCounter := by
  unfold reloadTick
  split <;> rfl

theorem timerTick_divCounter (s : State) : (timerTick s).timer.divCounter = s.timer.divCounter + 1#16 :=
  (edgeTick_divCounter _ _).trans (reloadTick_divCounter _)

theorem tCycles_divCounter (k : Nat) (s : State) :
    (tCycles k s).timer.divCounter = s.timer.divCounter + BitVec.ofNat 16 k := by
  induction k generalizing s with
  | zero => exact (BitVec.add_zero _).symm
  | succ k ih =>
    rw [tCycles, ih, tCycle_timer, timerTick_divCounter, BitVec.ofNat_add k 1]
    ac_rfl

theorem tick_divCounter (k : Nat) (s : State) :
    (tick k s).timer.divCounter = s.timer.divCounter + BitVec.ofNat 16 k :=
  tCycles_divCounter k _

/-! STOP on a CGB (R292, R425). -/

theorem exec_stop_of_cgb {s : State} {g : Cgb} (hcgb : s.cgb = some g) :
    exec .stop s = if g.key1Request then .next (speedSwitch g s) else .next { s with stopped := true } := by
  show execStop s = _
  rw [execStop, hcgb]

@[simp] theorem speedSwitch_regs (g : Cgb) (s : State) : (speedSwitch g s).regs = s.regs := by simp [speedSwitch]
@[simp] theorem speedSwitch_stopped (g : Cgb) (s : State) : (speedSwitch g s).stopped = s.stopped := by simp [speedSwitch]
@[simp] theorem speedSwitch_cyclesTotal (g : Cgb) (s : State) :
    (speedSwitch g s).cyclesTotal = s.cyclesTotal + 128 := by simp [speedSwitch]
@[simp] theorem speedSwitch_cgb (g : Cgb) (s : State) :
    (speedSwitch g s).cgb = some { key1Request := false, doubleSpeed := !g.doubleSpeed } := rfl

theorem speedSwitch_memoryKept (g : Cgb) (s : State) : MemoryKept s (speedSwitch g s) := fun n => by
  simp [speedSwitch]

/-- The switch's 128 T-cycles are those of a tick at the old speed: no device looks at the request. -/
theorem speedSwitch_devices {s : State} {g : Cgb} (hcgb : s.cgb = some g) :
    (speedSwitch g s).timer = (tick 128 s).timer ∧ (speedSwitch g s).ppu = (tick 128 s).ppu := by
  have hcount : ppuCount { s with cgb := some { g with key1Request := false } } 128 = ppuCount s 128 := by
    simp [ppuCount, ppuMoves, hcgb]
  simp only [speedSwitch]
  refine ⟨tick_timer_congr 128 rfl, ?_⟩
  rw [tick_ppu, tick_ppu, hcount, ((samePicture_withCgb hcgb _).ppuTicks _).ppu]

/-- In double speed the PPU makes half the steps of single speed. -/
theorem tick_ppu_of_doubleSpeed {s : State} {g : Cgb} (hcgb : s.cgb = some g) (hspeed : g.doubleSpeed = true) (k : Nat) :
    (tick (2 * k) s).ppu = (tick k { s with cgb := some { g with doubleSpeed := false } }).ppu := by
  rw [tick_ppu, tick_ppu, ppuCount_of_doubleSpeed hcgb hspeed, ppuCount_of_singleSpeed rfl rfl,
    ((samePicture_withCgb hcgb _).ppuTicks k).ppu]

/-- Settles O60: the switch is 128 T-cycles that no device sees the request in; double speed leaves the PPU every second
T-cycle and the timer all of them. -/
theorem speedSwitchRule : Obligations.SpeedSwitchRule := by
  intro s g hcgb
  refine ⟨fun hkey => ?_, fun hkey => ⟨speedSwitch g s, ?_, ?_⟩, fun hspeed k => ⟨?_, tick_divCounter _ s⟩⟩
  · rw [exec_stop_of_cgb hcgb, hkey]; rfl
  · rw [exec_stop_of_cgb hcgb, hkey]; rfl
  · obtain ⟨htimer, hppu⟩ := speedSwitch_devices hcgb
    exact ⟨speedSwitch_regs g s, speedSwitch_stopped g s, speedSwitch_cyclesTotal g s, speedSwitch_cgb g s,
      speedSwitch_memoryKept g s, htimer, hppu⟩
  · exact tick_ppu_of_doubleSpeed hcgb hspeed k

end Sys2Proof.Machine

/-! ### The parts of a step, the instruction it runs and the time it takes (O4, O5, O6, O7, O11, O12) -/

namespace Sys2Proof.Machine

/-! The instruction fetched is the decoder's reading of the three bytes at PC, and the bytes fetched are its own. -/

theorem encode_length_of_decode {b0 b1 b2 : Byte} {i : Instr} {rest : List Byte}
    (h : decode [b0, b1, b2] = .instr i rest) : (encode i).length = 1 + operandBytes b0 := by
  have hle := operandBytes_le b0
  obtain ⟨i', h'⟩ := decode_three b0 b1 b2
  cases h.symm.trans h'
  have hlen := congrArg List.length (isEncoding_of_decode h').2
  simp only [List.length_append, List.length_drop, List.length_cons, List.length_nil] at hlen
  omega

theorem fetchInstr_of_fetches {s : State} {i : Instr} (h : fetches s i) :
    fetchInstr (wake s) = (i, afterFetch (wake s) (encode i).length) := by
  obtain ⟨rest, hdec⟩ := h
  obtain ⟨rest', hdec'⟩ := fetches_fetchInstr s
  cases hdec.symm.trans hdec'
  rw [encode_length_of_decode hdec]
  exact Prod.ext rfl (by rw [fetchInstr_eq])

/-! Each instruction goes on, or is an undefined opcode (R107, R316). -/

theorem ite_next_exists (p : Prop) [Decidable p] (t u : State) :
    ∃ w, (if p then Host.Outcome.next t else .next u : Host.Outcome State Fault Refusal) = .next w := by
  split
  · exact ⟨t, rfl⟩
  · exact ⟨u, rfl⟩

theorem execHalt_next (s : State) : ∃ t, execHalt s = .next t := by
  unfold execHalt
  split
  · exact ⟨_, rfl⟩
  · exact ite_next_exists _ _ _

theorem execStop_next (s : State) : ∃ t, execStop s = .next t := by
  unfold execStop
  split
  · exact ite_next_exists _ _ _
  · exact ⟨_, rfl⟩

theorem exec_next_or_undefined (i : Instr) (s : State) :
    (∃ t, exec i s = .next t) ∨ ((encode i).headD 0#8, i) ∈ undefinedOpcodes := by
  cases i
  case jpCc | jrCc | callCc | retCc => exact .inl (ite_next_exists _ _ _)
  case halt => exact .inl (execHalt_next s)
  case stop => exact .inl (execStop_next s)
  case undefD3 | undefDB | undefDD | undefE3 | undefE4 | undefEB | undefEC | undefED | undefF4 | undefFC | undefFD =>
    exact .inr (by decide)
  all_goals exact .inl ⟨_, rfl⟩

/-- The byte an undefined opcode's row gives is its whole encoding. -/
theorem encode_of_undefined {op : Byte} {i : Instr} (h : (op, i) ∈ undefinedOpcodes) : encode i = [op] := by
  unfold undefinedOpcodes at h
  fin_cases h <;> rfl

/-- An instruction that does not go on is an undefined opcode that raises its fault. -/
theorem exec_fault_cases (i : Instr) (s : State) :
    (∃ t, exec i s = .next t) ∨ ∃ op, (op, i) ∈ undefinedOpcodes ∧ s.undefPolicy = .fault ∧
      exec i s = .fault (.undefinedOpcode op s) := by
  rcases exec_next_or_undefined i s with h | h
  · exact .inl h
  · rw [(undefinedOpcodes_row h).2.2]
    rcases undefinedOpcode_cases _ s with ⟨hp, e⟩ | ⟨-, e⟩
    · exact .inr ⟨_, h, hp, e⟩
    · exact .inl ⟨s, e⟩

/-- Settles O4: the fetch is `fetchInstr`, and a step that runs S4 to S6 is `runInstr` of the woken CPU. -/
theorem stepRunsFetchedInstruction : Obligations.StepRunsFetchedInstruction := by
  intro s i rest hrun hdec
  have hfetched := fetchInstr_of_fetches ⟨rest, hdec⟩
  rcases exec_fault_cases i (afterFetch (wake s) (encode i).length) with ⟨t, ht⟩ | ⟨op, -, -, hfault⟩
  · rw [ht]
    exact step_of_exec_next hrun hfetched ht
  · rw [hfault]
    exact step_of_exec_fault hrun hfetched hfault

/-- A step with an instruction that goes on: the instruction's meaning after its bytes, then the `EI` delay. -/
theorem exec_of_step_next {s t : State} {i : Instr} (hrun : runsInstr s = true) (hfetch : fetches s i)
    (h : step s = .next t) :
    ∃ u, exec i (afterFetch (wake s) (encode i).length) = .next u ∧ t = eiDelay u := by
  have hfetched := fetchInstr_of_fetches hfetch
  rcases exec_fault_cases i (afterFetch (wake s) (encode i).length) with ⟨u, hu⟩ | ⟨op, -, -, hfault⟩
  · exact ⟨u, hu, Host.Outcome.next.inj (h.symm.trans (step_of_exec_next hrun hfetched hu))⟩
  · nomatch h.symm.trans (step_of_exec_fault hrun hfetched hfault)

theorem fetches_ne_prefixCb {s : State} {i : Instr} (h : fetches s i) : i ≠ .prefixCb := by
  have hne := fetchInstr_ne_prefixCb (wake s)
  rwa [fetchInstr_of_fetches h] at hne

/-! Idling and waking (R303, R304, R312, R313). -/

theorem step_of_idles {s : State} (h : idles (wake s) = true) : step s = .next (tick 4 (wake s)) := if_pos h

/-- Settles O5: an idle step is a tick of the woken CPU, and a halt with an interrupt pending ends before S2 looks at
it. -/
theorem idleAndWake : Obligations.IdleAndWake := by
  intro s
  refine ⟨fun h => ?_, fun hhalt hstop hpending => ⟨fun hime => step_of_interrupt hime hstop hpending, fun hime => ?_⟩⟩
  · have hidle : idles (wake s) = true := by
      rw [wake_eq, idles]
      rcases h with h | ⟨hhalt, hpending⟩
      · simp [h]
      · simp [hhalt, hpending]
    rw [← wake_eq]
    exact ⟨_, step_of_idles hidle, .tick 4 _, by rw [tick_regs, wake_eq]⟩
  · have hwake : wake s = { s with halted := false } := by rw [wake_eq, beq_false_of_ne hpending, Bool.and_false]
    have hrun : runsInstr s = true := by
      rw [runsInstr, hwake]
      simp [idles, takesInterrupt, hstop, hime]
    rw [step_of_runsInstr hrun, hwake]

/-! The one fault of a step (R316). -/

theorem codeByte_of_fetches_undefined {s : State} {op : Byte} {i : Instr} (hfetch : fetches s i)
    (h : (op, i) ∈ undefinedOpcodes) : codeByte (wake s) 0 = op := by
  obtain ⟨rest, hdec⟩ := hfetch
  have hbytes := (isEncoding_of_decode hdec).2
  rw [encode_of_undefined h] at hbytes
  exact (List.cons.inj hbytes).1

/-- What a step can be that does not go on: an instruction step on an undefined opcode, under the policy `fault`. -/
theorem step_fault_cases (s : State) :
    (∃ t, step s = .next t) ∨ (s.undefPolicy = .fault ∧ runsInstr s = true ∧
      ∃ op i, (op, i) ∈ undefinedOpcodes ∧ codeByte (wake s) 0 = op ∧
        step s = .fault (.undefinedOpcode op (afterFetch (wake s) 1))) := by
  cases hrun : runsInstr s with
  | false =>
    cases hidle : idles (wake s) with
    | true => exact .inl ⟨_, step_of_idles hidle⟩
    | false =>
      have htake : takesInterrupt (wake s) = true := by simpa [runsInstr, hidle] using hrun
      exact .inl ⟨dispatch (wake s), by simp [step, hidle, htake]⟩
  | true =>
    have hfetch := fetches_fetchInstr s
    generalize (fetchInstr (wake s)).1 = i at hfetch
    have hfetched := fetchInstr_of_fetches hfetch
    rcases exec_fault_cases i (afterFetch (wake s) (encode i).length) with ⟨t, ht⟩ | ⟨op, hop, hpolicy, hexec⟩
    · exact .inl ⟨_, step_of_exec_next hrun hfetched ht⟩
    · rw [encode_of_undefined hop] at hfetched hpolicy hexec
      exact .inr ⟨(afterFetch_wake_undefPolicy s 1).symm.trans hpolicy, rfl, op, i, hop,
        codeByte_of_fetches_undefined hfetch hop, step_of_exec_fault hrun hfetched hexec⟩

/-- Settles O11: a step goes on, or raises the fault of the opcode it fetched. -/
theorem theOnlyFault : Obligations.TheOnlyFault := by
  intro s
  rcases step_fault_cases s with ⟨t, ht⟩ | ⟨hpolicy, hrun, op, i, hop, hbyte, hstep⟩
  · exact ⟨fun f hf => (nomatch ht.symm.trans hf), fun r hr => (nomatch ht.symm.trans hr)⟩
  · refine ⟨fun f hf => ⟨hpolicy, hrun, op, i, hop, hbyte, ?_⟩, fun r hr => nomatch hstep.symm.trans hr⟩
    exact Host.Outcome.fault.inj (hf.symm.trans hstep)

/-! The `EI` delay (R308). -/

/-- Only EI and DI write the counter of the `EI` delay, and only DI and RETI write `ime`. -/
theorem exec_imeDelay_kept {i : Instr} {s t : State} (h : exec i s = .next t) (hcb : i ≠ .prefixCb) (hei : i ≠ .ei)
    (hdi : i ≠ .di) : t.imePending = s.imePending ∧ (i ≠ .reti → t.ime = s.ime) := by
  rcases em (i = .reti ∨ i = .halt ∨ i = .stop) with (rfl | rfl | rfl) | hother
  · cases h
    exact ⟨by rw [returnFromInterrupt_eq]; simp, fun hne => absurd rfl hne⟩
  · change execHalt s = _ at h
    unfold execHalt at h
    split_ifs at h <;> cases h <;> exact ⟨rfl, fun _ => rfl⟩
  · change execStop s = _ at h
    unfold execStop at h
    split at h
    · split_ifs at h <;> (rw [Host.Outcome.next.injEq] at h; subst h)
      · exact ⟨speedSwitch_imePending _ s, fun _ => speedSwitch_ime _ s⟩
      · exact ⟨rfl, fun _ => rfl⟩
    · cases h
      exact ⟨rfl, fun _ => rfl⟩
  · simp only [not_or] at hother
    obtain ⟨hreti, hhalt, hstop⟩ := hother
    obtain ⟨k, hruns, -⟩ := exec_runs h hreti hdi hei hhalt hstop hcb
    exact ⟨hruns.imePending, fun _ => hruns.ime⟩

theorem eiDelay_of_zero {s : State} (h : s.imePending = 0) : eiDelay s = s := by simp [eiDelay, h]

theorem eiDelay_of_one {s : State} (h : s.imePending = 1) : eiDelay s = { s with imePending := 0, ime := true } := by
  simp [eiDelay, h]

theorem afterFetch_wake_control (s : State) (n : Nat) :
    (afterFetch (wake s) n).ime = s.ime ∧ (afterFetch (wake s) n).imePending = s.imePending := by
  have hfetch := Runs.fetch (wake s) n
  exact ⟨hfetch.ime.trans (wake_ime s), hfetch.imePending.trans (wake_imePending s)⟩

/-- Settles O7: EI and DI write the counter themselves, every other instruction hands it to the `EI` delay as it was. -/
theorem eiDelayTable : Obligations.EiDelayTable := by
  intro s t i hrun hfetch hstep
  obtain ⟨u, hu, rfl⟩ := exec_of_step_next hrun hfetch hstep
  obtain ⟨hime, hpending⟩ := afterFetch_wake_control s (encode i).length
  have hkept := exec_imeDelay_kept hu (fetches_ne_prefixCb hfetch)
  refine ⟨?_, ?_, fun hei hdi hone => ?_, fun hei hdi hreti hzero => ?_⟩
  · rintro rfl
    cases hu
    exact ⟨hime, rfl⟩
  · rintro rfl
    cases hu
    exact ⟨rfl, rfl⟩
  · rw [eiDelay_of_one ((hkept hei hdi).1.trans (hpending.trans hone))]
    exact ⟨rfl, rfl⟩
  · have hu0 : u.imePending = 0 := (hkept hei hdi).1.trans (hpending.trans hzero)
    rw [eiDelay_of_zero hu0]
    exact ⟨((hkept hei hdi).2 hreti).trans hime, hu0⟩

/-! The time of a step (R27, R323). -/

@[simp] theorem wake_cyclesTotal (s : State) : (wake s).cyclesTotal = s.cyclesTotal := by simp [wake_eq]
@[simp] theorem wake_regs (s : State) : (wake s).regs = s.regs := by simp [wake_eq]
@[simp] theorem wake_cgb (s : State) : (wake s).cgb = s.cgb := by simp [wake_eq]
@[simp] theorem eiDelay_cyclesTotal (s : State) : (eiDelay s).cyclesTotal = s.cyclesTotal := by
  rcases eiDelay_cases s with ⟨-, e⟩ | ⟨-, e⟩ | ⟨-, e⟩ <;> rw [e]

theorem dispatch_cyclesTotal (s : State) : (dispatch s).cyclesTotal = s.cyclesTotal + 20 := by
  simp [dispatch, callTo_eq]

/-- The cost looks at the flags alone. -/
theorem costOf_congr {g g' : Regs} (h : g'.f = g.f) (i : Instr) : costOf g' i = costOf g i := by
  have hcond (cc : Cond) : condMet g' cc = condMet g cc := by
    cases cc <;> simp only [condMet, flagZ, flagC, h]
  cases i
  case jpCc | jrCc | callCc | retCc => simp only [costOf, hcond]
  all_goals rfl

theorem costOf_mem (g : Regs) (i : Instr) : costOf g i ∈ [4, 8, 12, 16, 20, 24] := by
  cases i
  case jpCc | jrCc | callCc | retCc => dsimp only [costOf]; split <;> decide
  all_goals exact of_decide_eq_true rfl

theorem execHalt_cyclesTotal {s t : State} (h : exec .halt s = .next t) : t.cyclesTotal = s.cyclesTotal := by
  change execHalt s = _ at h
  unfold execHalt at h
  split_ifs at h <;> cases h <;> rfl

/-- After its bytes, an instruction on a DMG spends what is left of its cost (R307). -/
theorem exec_time {i : Instr} {s t : State} (h : exec i s = .next t) (hcb : i ≠ .prefixCb) (hdmg : s.cgb = none) :
    t.cyclesTotal + 4 * (encode i).length = s.cyclesTotal + costOf s.regs i := by
  rcases em (i = .reti ∨ i = .di ∨ i = .ei ∨ i = .halt ∨ i = .stop) with (rfl | rfl | rfl | rfl | rfl) | hother
  · cases h
    simp [returnFromInterrupt_eq, encode, costOf]
  · cases h
    rfl
  · cases h
    rfl
  · rw [execHalt_cyclesTotal h]
    rfl
  · rw [exec_stop_of_dmg hdmg] at h
    cases h
    rfl
  · simp only [not_or] at hother
    obtain ⟨hreti, hdi, hei, hhalt, hstop⟩ := hother
    obtain ⟨k, hruns, hcost⟩ := exec_runs h hreti hdi hei hhalt hstop hcb
    rw [hruns.cycles]
    omega

theorem step_time_of_fetches {s t : State} {i : Instr} (hdmg : s.cgb = none) (h : step s = .next t)
    (hrun : runsInstr s = true) (hfetch : fetches s i) : t.cyclesTotal = s.cyclesTotal + costOf s.regs i := by
  obtain ⟨u, hu, rfl⟩ := exec_of_step_next hrun hfetch h
  have hbytes := Runs.fetch (wake s) (encode i).length
  have htime := exec_time hu (fetches_ne_prefixCb hfetch) (hbytes.cgb.trans ((wake_cgb s).trans hdmg))
  have hcycles := hbytes.cycles
  have hcost : costOf (afterFetch (wake s) (encode i).length).regs i = costOf s.regs i :=
    costOf_congr (congrArg Regs.f (wake_regs s)) i
  rw [wake_cyclesTotal] at hcycles
  rw [eiDelay_cyclesTotal]
  omega

/-- Settles O12: the time of an idle step, of a dispatch, and of the instruction fetched. -/
theorem stepTime : Obligations.StepTime := by
  intro s t hdmg hstep
  have hinstr (i : Instr) (hrun : runsInstr s = true) (hfetch : fetches s i) := step_time_of_fetches hdmg hstep hrun hfetch
  have hcost : ∃ k ∈ [4, 8, 12, 16, 20, 24], t.cyclesTotal = s.cyclesTotal + k ∧
      (idles (wake s) = true → k = 4) ∧ (idles (wake s) = false → takesInterrupt (wake s) = true → k = 20) := by
    rcases step_cases hstep with ⟨hidle, -, rfl⟩ | ⟨hidle, -, rfl⟩ | ⟨hidle, hrun, -⟩
    · exact ⟨4, by decide, by simp, fun _ => rfl, fun h => by simp [hidle] at h⟩
    · exact ⟨20, by decide, by rw [dispatch_cyclesTotal, wake_cyclesTotal], fun h => by simp [hidle] at h, fun _ _ => rfl⟩
    · refine ⟨_, costOf_mem _ _, hinstr _ hrun (fetches_fetchInstr s), fun h => by simp [hidle] at h, fun _ htake => ?_⟩
      simp [runsInstr, htake] at hrun
  obtain ⟨k, hk, htime, hidle, htake⟩ := hcost
  have hpos : 0 < k := by
    simp only [List.mem_cons, List.not_mem_nil, or_false] at hk
    omega
  refine ⟨fun h => hidle h ▸ htime, fun h h' => htake h h' ▸ htime, hinstr, ?_, by omega⟩
  rwa [htime, Nat.add_sub_cancel_left]

end Sys2Proof.Machine

/-! ### Which interrupts the devices flag (O6, O24) -/

namespace Sys2Proof.Machine

/-- Two bytes compare as their numbers do. -/
theorem beq_eq_decide_toNat (x y : Byte) : (x == y) = decide (x.toNat = y.toNat) := by
  rw [Bool.eq_iff_iff, beq_iff_eq, decide_eq_true_eq, BitVec.toNat_inj]

/-! Bit by bit, what each action of the timer and of the PPU adds to IF (R366, R387, R388, R389, R391). -/

theorem raise_flag (s : State) {k : Nat} (hk : k < 5) (n : Nat) :
    (s.raise k).intFlags.getLsbD n = (s.intFlags.getLsbD n || decide (n = k)) := by
  rw [State.raise_intFlags, BitVec.getLsbD_or, BitVec.getLsbD_shiftLeft, BitVec.getLsbD_one]
  congr 1
  rw [Bool.eq_iff_iff]
  simp only [Bool.and_eq_true, Bool.not_eq_true', decide_eq_true_eq, decide_eq_false_iff_not]
  omega

theorem raiseStat_flag (k : Nat) (s : State) (n : Nat) :
    (raiseStat k s).intFlags.getLsbD n = (s.intFlags.getLsbD n || decide (n = 1) && statEnable s.ppu k) := by
  unfold raiseStat
  split
  · next h => rw [raise_flag s (by decide), h, Bool.and_true]
  · next h => rw [eq_false_of_ne_true h, Bool.and_false, Bool.or_false]

/-- The STAT flag of the comparison (R389). -/
theorem lyCompare_flag (s : State) (n : Nat) : (lyCompare s).intFlags.getLsbD n =
    (s.intFlags.getLsbD n || decide (n = 1) && (s.ppu.ly == s.ppu.lyc && statEnable s.ppu 6)) := by
  unfold lyCompare
  cases h : s.ppu.ly == s.ppu.lyc
  · simp
  · simp [raiseStat_flag, statEnable]

theorem enterMode2_flag (s : State) (n : Nat) :
    (enterMode2 s).intFlags.getLsbD n = (s.intFlags.getLsbD n || decide (n = 1) && statEnable s.ppu 5) :=
  raiseStat_flag 5 _ n

theorem enterMode0_flag (s : State) (n : Nat) :
    (enterMode0 s).intFlags.getLsbD n = (s.intFlags.getLsbD n || decide (n = 1) && statEnable s.ppu 3) :=
  raiseStat_flag 3 _ n

theorem enterVBlank_flag (s : State) (n : Nat) : (enterVBlank s).intFlags.getLsbD n =
    (s.intFlags.getLsbD n || decide (n = 0) || decide (n = 1) && statEnable s.ppu 4) := by
  rw [enterVBlank, raiseStat_flag, raise_flag _ (by omega)]
  rfl

/-- The lines `y` whose start flags STAT: an enabled match with LYC, or an enabled entry to VBlank or to mode 2. -/
def lineStat (p : Ppu) (y : Nat) : Bool :=
  decide (y = p.lyc.toNat) && statEnable p 6 || decide (y = 144) && statEnable p 4 || decide (y < 144) && statEnable p 5

/-- What T-cycle `lineCycle` flags for STAT (R385, R391). -/
def ppuStat (p : Ppu) : Bool :=
  decide (p.lineCycle = 455) && lineStat p ((p.ly.toNat + 1) % 154) ||
    decide (p.lineCycle = 251 ∧ p.ly.toNat < 144) && statEnable p 3

/-- The T-cycle that enters VBlank (R388). -/
def entersVBlank (p : Ppu) : Bool := decide (p.lineCycle = 455 ∧ (p.ly.toNat + 1) % 154 = 144)

theorem endOfLine_flag (s : State) (n : Nat) : (endOfLine s).intFlags.getLsbD n =
    (s.intFlags.getLsbD n || decide (n = 0) && decide ((s.ppu.ly.toNat + 1) % 154 = 144) ||
      decide (n = 1) && lineStat s.ppu ((s.ppu.ly.toNat + 1) % 154)) := by
  have hly : (BitVec.ofNat 8 ((s.ppu.ly.toNat + 1) % 154)).toNat = (s.ppu.ly.toNat + 1) % 154 := by
    simp only [BitVec.toNat_ofNat]; omega
  have hcmp : (BitVec.ofNat 8 ((s.ppu.ly.toNat + 1) % 154) == s.ppu.lyc) =
      decide ((s.ppu.ly.toNat + 1) % 154 = s.ppu.lyc.toNat) := by rw [beq_eq_decide_toNat, hly]
  unfold endOfLine lineStat
  simp only [lyCompare_ppu, frameLines, visibleLines, hly]
  split_ifs with hvblank hvisible
  · simp only [enterVBlank_flag, lyCompare_flag, lyCompare_ppu, statEnable, hvblank]
    grind
  · simp only [enterMode2_flag, lyCompare_flag, lyCompare_ppu, statEnable, hcmp, hvblank, hvisible]
    grind
  · simp only [lyCompare_flag, statEnable, hcmp, hvblank, hvisible]
    grind

/-- Which bits of IF one T-cycle of the PPU sets (R385, R387, R388, R389, R391). -/
theorem ppuTick_flag (s : State) (hon : lcdOn s.ppu = true) (n : Nat) : (ppuTick s).intFlags.getLsbD n =
    (s.intFlags.getLsbD n || decide (n = 0) && entersVBlank s.ppu || decide (n = 1) && ppuStat s.ppu) := by
  unfold entersVBlank ppuStat
  rcases ppuTick_cases s hon with ⟨h1, e⟩ | ⟨h0, h1, e⟩ | ⟨h0, h1, e⟩ | ⟨h1, h2, e⟩ <;> rw [e]
  · rw [endOfLine_flag, show s.ppu.lineCycle = 455 by omega]
    simp [lineStat, statEnable]
  · rw [enterMode3_intFlags, show s.ppu.lineCycle = 79 by omega]
    simp
  · rw [enterMode0_flag, show s.ppu.lineCycle = 251 by omega]
    simp [h0, statEnable]
  · have h455 : s.ppu.lineCycle ≠ 455 := by omega
    have h251 : ¬ (s.ppu.lineCycle = 251 ∧ s.ppu.ly.toNat < 144) := by omega
    simp [h455, h251]

/-- Settles O24: the two bits of `ppuTick_flag`, and STAT's sources spelled out. -/
theorem ppuInterruptSources : Obligations.PpuInterruptSources := by
  intro s hon _
  refine ⟨?_, ?_, fun n hn => ?_⟩
  · rw [ppuTick_flag s hon]
    simp [entersVBlank]
  · rw [ppuTick_flag s hon]
    simp only [ppuStat, lineStat, statEnable, Bool.or_eq_true, Bool.and_eq_true, decide_eq_true_eq]
    tauto
  · rw [ppuTick_flag s hon]
    simp [show n ≠ 0 by omega, show n ≠ 1 by omega]

end Sys2Proof.Machine

/-! ### Interrupt entry (O6) -/

namespace Sys2Proof.Machine

/-! Time and bus writes, but for a write to IF itself, clear no interrupt (R311, R351). -/

theorem reloadTick_flag (s : State) (n : Nat) : (reloadTick s).intFlags.getLsbD n =
    (s.intFlags.getLsbD n || decide (n = 2) && decide (s.timer.timaDelay = 1)) := by
  unfold reloadTick
  split
  · next h => simp [h]
  · next h => rw [raise_flag _ (by decide), h, decide_eq_true rfl, Bool.and_true]
  · next h => simp [h]

/-- The timer flags TIMER alone, in the T-cycle that ends a reload's delay (R366, R369). -/
theorem timerTick_flag (s : State) (n : Nat) : (timerTick s).intFlags.getLsbD n =
    (s.intFlags.getLsbD n || decide (n = 2) && decide (s.timer.timaDelay = 1)) := reloadTick_flag _ n

/-- Every interrupt flagged in `s` is flagged in `t`. -/
def FlagsKept (s t : State) : Prop := ∀ n, s.intFlags.getLsbD n = true → t.intFlags.getLsbD n = true

theorem FlagsKept.trans {s t u : State} (h : FlagsKept s t) (h' : FlagsKept t u) : FlagsKept s u :=
  fun n hn => h' n (h n hn)

/-- More bits may be set. -/
theorem FlagsKept.of_or {s t : State} {more : Nat → Bool}
    (h : ∀ n, t.intFlags.getLsbD n = (s.intFlags.getLsbD n || more n)) : FlagsKept s t :=
  fun n hn => by rw [h, hn, Bool.true_or]

theorem FlagsKept.of_eq {s t : State} (h : t.intFlags = s.intFlags) : FlagsKept s t := fun n hn => by rwa [h]

theorem lyCompare_flagsKept (s : State) : FlagsKept s (lyCompare s) := .of_or (lyCompare_flag s)

theorem ppuTick_flagsKept (s : State) : FlagsKept s (ppuTick s) := by
  cases hon : lcdOn s.ppu with
  | false => exact .of_eq (by rw [ppuTick_off hon])
  | true => exact .of_or fun n => (ppuTick_flag s hon n).trans (Bool.or_assoc _ _ _)

theorem tCycle_flagsKept (s : State) (left : Nat) : FlagsKept s (tCycle s left) := by
  have htimer : FlagsKept s (timerTick s) := .of_or (timerTick_flag s)
  unfold tCycle
  dsimp only
  split
  · exact htimer.trans (ppuTick_flagsKept _)
  · exact htimer

theorem tCycles_flagsKept (k : Nat) (s : State) : FlagsKept s (tCycles k s) := by
  induction k generalizing s with
  | zero => exact .of_eq rfl
  | succ k ih => exact (tCycle_flagsKept s k).trans (ih _)

theorem tick_flagsKept (k : Nat) (s : State) : FlagsKept s (tick k s) := fun n hn => tCycles_flagsKept k _ n hn

theorem ioRegAt_intFlag {a : Word} (h : ioRegAt a = some .intFlag) : a = 0xFF0F#16 := by
  unfold ioRegAt at h
  iterate 4 replace h := ioReg_skip (by decide) h
  by_cases hp : a = 0xFF0F#16
  · exact hp
  · rw [if_neg hp] at h
    iterate 13 replace h := ioReg_skip (by decide) h
    exact nomatch h

theorem lcdcWrite_flagsKept (s : State) (v : Byte) : FlagsKept s (lcdcWrite s v) := by
  unfold lcdcWrite
  dsimp only
  split
  · exact fun n hn => lyCompare_flagsKept _ n hn
  · split
    · exact fun n hn => (lyCompare_flagsKept _).trans (.of_or (enterMode2_flag _)) n hn
    · exact .of_eq rfl

theorem busWrite_flagsKept (s : State) {a : Word} (ha : a ≠ 0xFF0F#16) (v : Byte) : FlagsKept s (busWrite s a v) := by
  rcases busWrite_cases s a v with ⟨e, -⟩ | ⟨r, hr, e⟩ | ⟨-, e⟩ | ⟨_, _, f, -, -, e⟩ <;> rw [e]
  · rcases storeByte_cases s a v with ⟨n, -, e⟩ | ⟨-, e⟩ <;> rw [e] <;> exact .of_eq rfl
  · cases r
    case intFlag => exact absurd (ioRegAt_intFlag hr) ha
    case lcdc => exact lcdcWrite_flagsKept s v
    case ly => exact fun n hn => lyCompare_flagsKept _ n hn
    all_goals exact .of_eq (by dsimp only [ioWrite, dmaWrite])
  · exact .of_eq rfl
  · exact .of_or fun n => BitVec.getLsbD_or

theorem memWrite_flagsKept (s : State) {a : Word} (ha : a ≠ 0xFF0F#16) (v : Byte) : FlagsKept s (memWrite s a v) :=
  (busWrite_flagsKept s ha v).trans (tick_flagsKept 4 _)

/-- A call pushes PC to SP - 1 and SP - 2; neither is IF's address for these SP. -/
theorem callTo_flagsKept {s : State} (h1 : s.regs.sp ≠ 0xFF10#16) (h2 : s.regs.sp ≠ 0xFF11#16) (dest : Word) :
    FlagsKept s (callTo s dest) := by
  rw [callTo_eq]
  exact (memWrite_flagsKept s (by bv_omega) _).trans (memWrite_flagsKept _ (by bv_omega) _)

/-! The interrupt taken (R311, R314). -/

/-- The one taken is the least-numbered one pending. -/
theorem leastBit_eq {p : BitVec 5} {n : Nat} (hn : p.getLsbD n = true) (hleast : ∀ m < n, p.getLsbD m = false) :
    leastBit p = n := by
  have hp : p ≠ 0#5 := by
    rintro rfl
    simp at hn
  obtain ⟨-, hset, hclear⟩ := leastBit_spec hp
  rcases Nat.lt_trichotomy (leastBit p) n with h | h | h
  · exact absurd hset (by simp [hleast _ h])
  · exact h
  · exact absurd hn (by simp [hclear _ h])

theorem vectorOf_eq (n : Nat) : vectorOf n = BitVec.ofNat 16 (0x40 + 8 * n) := (BitVec.ofNat_add 0x40 (8 * n)).symm

/-- Clearing bit `n` leaves every other bit. -/
theorem getLsbD_clear_other {f : BitVec 5} {n m : Nat} (hne : m ≠ n) (hm : f.getLsbD m = true) :
    (f &&& ~~~(1#5 <<< n)).getLsbD m = true := by
  have hlt : m < 5 := BitVec.lt_of_getLsbD hm
  simp [hm, hlt]
  omega

/-- Settles O6: the interrupt acknowledged is a call to its vector with 12 T-cycles after it. -/
theorem interruptEntry : Obligations.InterruptEntry := by
  intro s n hime hstop _ hn hleast s1
  have hleastBit : leastBit (pending s) = n := leastBit_eq hn hleast
  have hpending : pending s ≠ 0#5 := fun h => by simp [h] at hn
  have hdispatch : dispatch { s with halted := false } = tick 12 (callTo s1 (BitVec.ofNat 16 (0x40 + 8 * n))) := by
    simp only [s1]
    rw [← vectorOf_eq, ← hleastBit]
    rfl
  refine ⟨_, step_of_interrupt hime hstop hpending, ?_⟩
  rw [hdispatch]
  refine ⟨tick_callTo_regs _ _ 12, ?_, ?_, ?_, ?_, ?_, ?_, fun h1 h2 m hne hm => ?_, storedTwo_callTo _ _ 12 rfl⟩
  · simp [callTo_eq, s1]
  · simp [callTo_eq, s1]
  · simp [callTo_eq, s1]
  · simp [callTo_eq, s1, hstop]
  · simp [callTo_eq, s1]
  · simp [callTo_eq, s1]
  · have hflags : FlagsKept s1 (tick 12 (callTo s1 (BitVec.ofNat 16 (0x40 + 8 * n)))) :=
      (callTo_flagsKept (s := s1) h1 h2 _).trans (tick_flagsKept 12 _)
    exact hflags m (getLsbD_clear_other hne hm)

end Sys2Proof.Machine

/-! ### The registers of the devices on the bus, and the host's events (O9, O21, O25, O34, O35) -/

namespace Sys2Proof.Machine

/-! The state a comparison or an entry to mode 2 leaves (R387, R389, R391). -/

theorem raiseStat_eq (n : Nat) (s : State) : raiseStat n s =
    { s with intFlags := if statEnable s.ppu n then s.intFlags ||| 2#5 else s.intFlags } := by
  unfold raiseStat
  split <;> rfl

theorem lyCompare_eq (s : State) : lyCompare s = { s with
    ppu := { s.ppu with coincidence := decide (s.ppu.ly.toNat = s.ppu.lyc.toNat) }
    intFlags := if s.ppu.ly = s.ppu.lyc ∧ statEnable s.ppu 6 = true then s.intFlags ||| 2#5 else s.intFlags } := by
  unfold lyCompare
  dsimp only
  rw [beq_eq_decide_toNat]
  by_cases h : s.ppu.ly = s.ppu.lyc
  · rw [if_pos (decide_eq_true (congrArg _ h)), raiseStat_eq]
    simp only [h, true_and]
    rfl
  · rw [if_neg (by simpa [BitVec.toNat_inj] using h), if_neg (fun hc => h hc.1)]

theorem enterMode2_eq (s : State) : enterMode2 s = { s with
    ppu := { s.ppu with mode := .oamScan, lineSprites := spritesOfLine s.mem (spriteHeight s.ppu) s.ppu.ly.toNat }
    intFlags := if statEnable s.ppu 5 then s.intFlags ||| 2#5 else s.intFlags } := by
  rw [enterMode2, raiseStat_eq]
  rfl

/-- Settles O25: the comparison as `lyCompare_eq` has it; the three writes are the registers' own by definition. -/
theorem lyCompareRule : Obligations.LyCompareRule := by
  intro s v
  refine ⟨lyCompare_eq s, rfl, rfl, ?_⟩
  have hbits : v.extractLsb' 3 4 = BitVec.ofNat 4 (v.toNat / 8 % 16) := by
    apply BitVec.eq_of_toNat_eq
    simp [BitVec.extractLsb'_toNat, Nat.shiftRight_eq_div_pow]
  rw [← hbits]
  rfl

/-- The low bits of a byte. -/
theorem extractLsb'_zero_eq_ofNat {n : Nat} (v : Byte) : v.extractLsb' 0 n = BitVec.ofNat n (v.toNat % 2 ^ n) := by
  apply BitVec.eq_of_toNat_eq
  simp

/-- A write to DIV counts TIMA once where the timer is on and the selected bit was 1 (R362, R367). -/
theorem divWrite_eq (t : Timer) : divWrite t = { t with
    divCounter := 0#16
    tima := BitVec.ofNat 8 (t.tima.toNat + (timerOn t && t.divCounter.getLsbD (timerBit t)).toNat)
    timaDelay := if (timerOn t && t.divCounter.getLsbD (timerBit t)) = true ∧ t.tima = 0xFF#8 then 4
      else t.timaDelay } := by
  have hedge : (timerOn { t with divCounter := 0#16 } && t.divCounter.getLsbD (timerBit { t with divCounter := 0#16 }) &&
      !(0#16).getLsbD (timerBit { t with divCounter := 0#16 })) = (timerOn t && t.divCounter.getLsbD (timerBit t)) := by
    rw [BitVec.getLsbD_zero, Bool.not_false, Bool.and_true]
    rfl
  unfold divWrite edgeTick
  dsimp only
  rw [hedge]
  cases timerOn t && t.divCounter.getLsbD (timerBit t)
  · simp
  · unfold incTima
    by_cases h : t.tima = 0xFF#8
    · simp [h]
    · simp [h, BitVec.ofNat_add]

/-- Settles O21: each register's write is `ioWrite` of it. -/
theorem timerRegisterWrites : Obligations.TimerRegisterWrites := by
  intro s v edge
  have htac : v.extractLsb' 0 3 = BitVec.ofNat 3 (v.toNat % 8) := extractLsb'_zero_eq_ofNat v
  refine ⟨?_, rfl, rfl, ?_⟩
  · show { s with timer := divWrite s.timer } = _
    rw [divWrite_eq]
    rfl
  · rw [← htac]
    rfl

/-- Settles O35: each register's write is `ioWrite` of it, IE's its own. -/
theorem ioWriteValues : Obligations.IoWriteValues := by
  intro s v
  have hfive : v.extractLsb' 0 5 = BitVec.ofNat 5 (v.toNat % 32) := extractLsb'_zero_eq_ofNat v
  rw [← hfive]
  exact ⟨rfl, rfl, rfl, rfl, rfl, rfl, rfl, rfl, rfl, rfl⟩

/-! What the registers with bits that always read 1 read as (R351, R352, R365, R382). -/

theorem intRead_toNat (f : BitVec 5) : (intRead f).toNat = 0xE0 + f.toNat := toNat_append_eq_add 7#3 f

theorem statRead_toNat (p : Ppu) : (statRead p).toNat = 0x80 + 8 * p.statEnables.toNat + 4 * p.coincidence.toNat +
    (modeBits p.mode).toNat := by
  unfold statRead
  simp only [toNat_append_eq_add]
  cases p.coincidence <;> simp <;> omega

theorem divRead_toNat (s : State) : (busRead s 0xFF04#16).toNat = s.timer.divCounter.toNat / 256 :=
  toNat_hiByte s.timer.divCounter

/-- Settles O34: each register's read is `ioRead` of it, IE's its own. -/
theorem ioReadValues : Obligations.IoReadValues := by
  intro s
  have hstat : (busRead s 0xFF41#16).toNat = 0x80 + 8 * s.ppu.statEnables.toNat + 4 * s.ppu.coincidence.toNat +
      (match s.ppu.mode with | .hblank => 0 | .vblank => 1 | .oamScan => 2 | .rendering => 3) := by
    refine (statRead_toNat s.ppu).trans ?_
    cases s.ppu.mode <;> rfl
  refine ⟨divRead_toNat s, rfl, rfl, toNat_append_eq_add 0x1F#5 s.timer.tac, intRead_toNat s.intFlags, rfl, hstat, ?_⟩
  iterate 11 refine ⟨rfl, ?_⟩
  exact intRead_toNat s.intEnable

/-- Settles O9: the edge sets bit 4 of five. -/
theorem joypadEdgeEffect : Obligations.JoypadEdgeEffect := by
  intro s
  have hset : ∀ f : BitVec 5, f ||| (1#5 <<< 4) = BitVec.ofNat 5 (f.toNat % 16 + 16) := by decide
  refine ⟨?_, fun n flags => ⟨fun h => ?_, fun k h => ?_⟩⟩
  · rw [← hset]
    rfl
  · rw [extIoEvent, h]
  · rw [extIoEvent, h]
    rfl

end Sys2Proof.Machine

/-! ### The timer over many T-cycles (O18, O19, O20) -/

namespace Sys2Proof.Machine

/-- Settles O18: the counter by `tick_divCounter`, DIV by its high byte. -/
theorem dividerCountsTCycles : Obligations.DividerCountsTCycles := by
  intro k s
  have hcount : (tick k s).timer.divCounter.toNat = (s.timer.divCounter.toNat + k) % 65536 := by
    rw [tick_divCounter, BitVec.toNat_add, BitVec.toNat_ofNat]
    omega
  exact ⟨hcount, by rw [divRead_toNat, hcount]⟩

/-! The falling edge of the selected counter bit (R366, R370). -/

/-- The T-cycles from one falling edge of the selected bit to the next (R370). -/
def timaPeriodOf (t : Timer) : Nat := 2 ^ (timerBit t + 1)

theorem timerBit_cases (t : Timer) : timerBit t = 9 ∨ timerBit t = 3 ∨ timerBit t = 5 ∨ timerBit t = 7 := by
  unfold timerBit tacBit
  split_ifs <;> simp

/-- The selected bit falls where the counter comes to a multiple of the period. -/
theorem timerBit_falls_iff (t : Timer) (c : BitVec 16) :
    (c.getLsbD (timerBit t) = true ∧ (c + 1#16).getLsbD (timerBit t) = false) ↔ timaPeriodOf t ∣ c.toNat + 1 := by
  have hbit (v : BitVec 16) (n : Nat) : v.getLsbD n = decide (v.toNat / 2 ^ n % 2 = 1) := Nat.testBit_eq_decide_div_mod_eq
  have hc := c.isLt
  unfold timaPeriodOf
  simp only [hbit, BitVec.toNat_add, BitVec.toNat_ofNat, decide_eq_true_eq, decide_eq_false_iff_not]
  rcases timerBit_cases t with h | h | h | h <;> rw [h] <;> norm_num <;> omega

/-- Every period divides the counter's range. -/
theorem timaPeriodOf_dvd_wrap (t : Timer) (n : Nat) : timaPeriodOf t ∣ n % 65536 + 1 ↔ timaPeriodOf t ∣ n + 1 := by
  unfold timaPeriodOf
  rcases timerBit_cases t with h | h | h | h <;> rw [h] <;> norm_num <;> omega

/-- No two edges are closer than the shortest period. -/
theorem timaPeriodOf_not_dvd (t : Timer) {c : Nat} (h : timaPeriodOf t ∣ c + 1) {j : Nat} (hj : 0 < j) (hj' : j < 16) :
    ¬ timaPeriodOf t ∣ c + j + 1 := by
  unfold timaPeriodOf at *
  rcases timerBit_cases t with hb | hb | hb | hb <;> rw [hb] at h ⊢ <;> norm_num at h ⊢ <;> omega

/-- The timer is on and the selected bit falls in the next T-cycle. -/
def timaEdgeNext (t : Timer) : Bool := timerOn t && decide (timaPeriodOf t ∣ t.divCounter.toNat + 1)

theorem edgeTick_eq {t u : Timer} (htac : u.tac = t.tac) (hdiv : u.divCounter = t.divCounter + 1#16) :
    edgeTick t.divCounter u = if timaEdgeNext t then incTima u else u := by
  have hbit : timerBit u = timerBit t := by rw [timerBit, htac, timerBit]
  have hon : timerOn u = timerOn t := by rw [timerOn, htac, timerOn]
  rw [edgeTick, hbit, hon, hdiv]
  refine if_congr ?_ rfl rfl
  simp only [timaEdgeNext, Bool.and_eq_true, Bool.not_eq_true', decide_eq_true_eq, ← timerBit_falls_iff, and_assoc]

/-! What a program sees of the timer, its registers and the TIMER flag, moves by itself in each T-cycle (R366). -/

/-- The timer and IF bit 2. -/
def timerView (s : State) : Timer × Bool := (s.timer, s.intFlags.getLsbD 2)

/-- The counter and the reload of one T-cycle, on the timer alone. -/
def reloadTimer (t : Timer) : Timer :=
  match t.timaDelay with
  | 0 => { t with divCounter := t.divCounter + 1#16 }
  | 1 => { t with divCounter := t.divCounter + 1#16, tima := t.tma, timaDelay := 0 }
  | d + 2 => { t with divCounter := t.divCounter + 1#16, timaDelay := d + 1 }

/-- One T-cycle of the timer and its flag: the reload, then the count of TIMA. -/
def timerViewTick (w : Timer × Bool) : Timer × Bool :=
  (if timaEdgeNext w.1 then incTima (reloadTimer w.1) else reloadTimer w.1, w.2 || w.1.timaDelay == 1)

theorem reloadTimer_tac (t : Timer) : (reloadTimer t).tac = t.tac := by unfold reloadTimer; split <;> rfl

theorem reloadTimer_divCounter (t : Timer) : (reloadTimer t).divCounter = t.divCounter + 1#16 := by
  unfold reloadTimer
  split <;> rfl

theorem timerTick_timer_eq (s : State) :
    (timerTick s).timer = if timaEdgeNext s.timer then incTima (reloadTimer s.timer) else reloadTimer s.timer := by
  have hreload : (reloadTick { s with timer := { s.timer with divCounter := s.timer.divCounter + 1#16 } }).timer =
      reloadTimer s.timer := by
    unfold reloadTick reloadTimer
    dsimp only
    rcases s.timer.timaDelay with _ | _ | d <;> rfl
  rw [timerTick_timer, hreload, edgeTick_eq (reloadTimer_tac _) (reloadTimer_divCounter _)]

/-- The PPU touches neither the timer nor IF bit 2. -/
theorem timerView_tCycle (s : State) (left : Nat) : timerView (tCycle s left) = timerViewTick (timerView s) := by
  have hflag : (timerTick s).intFlags.getLsbD 2 = (s.intFlags.getLsbD 2 || s.timer.timaDelay == 1) := timerTick_flag s 2
  have hppu (u : State) : (ppuTick u).intFlags.getLsbD 2 = u.intFlags.getLsbD 2 := by
    cases hon : lcdOn u.ppu with
    | false => rw [ppuTick_off hon]
    | true => exact (ppuTick_flag u hon 2).trans (by rw [Bool.or_assoc]; exact Bool.or_false _)
  refine Prod.ext ((tCycle_timer s left).trans (timerTick_timer_eq s)) (Eq.trans ?_ hflag)
  rw [timerView, tCycle]
  dsimp only [dmaTick]
  split
  · exact hppu _
  · rfl

theorem timerView_tick (k : Nat) (s : State) : timerView (tick k s) = timerViewTick^[k] (timerView s) := by
  have hcycles (k : Nat) : ∀ s, timerView (tCycles k s) = timerViewTick^[k] (timerView s) := by
    induction k with
    | zero => exact fun _ => rfl
    | succ k ih => exact fun s => by rw [tCycles, ih, timerView_tCycle, Function.iterate_succ_apply]
  exact hcycles k _

/-! TIMA between overflows (R367, R370). -/

/-- How often TIMA counts in `k` T-cycles with the timer on. -/
def timaCounts (t : Timer) (k : Nat) : Nat :=
  (t.divCounter.toNat + k) / timaPeriodOf t - t.divCounter.toNat / timaPeriodOf t

theorem timaCounts_succ (t : Timer) (k : Nat) : timaCounts t (k + 1) =
    timaCounts t k + if timaPeriodOf t ∣ t.divCounter.toNat + k + 1 then 1 else 0 := by
  have hle : t.divCounter.toNat / timaPeriodOf t ≤ (t.divCounter.toNat + k) / timaPeriodOf t :=
    Nat.div_le_div_right (Nat.le_add_right _ k)
  rw [timaCounts, timaCounts, ← Nat.add_assoc, Nat.succ_div]
  omega

theorem timaCounts_period (t : Timer) : timaCounts t (timaPeriodOf t) = 1 := by
  have hpos : 0 < timaPeriodOf t := Nat.two_pow_pos _
  rw [timaCounts, Nat.add_div_right _ hpos]
  omega

/-- The edge of a timer with its counter `k` further. -/
theorem timaEdgeNext_after {t : Timer} (hon : timerOn t = true) (k : Nat) (x : Byte) (d : Nat) :
    timaEdgeNext { t with divCounter := t.divCounter + BitVec.ofNat 16 k, tima := x, timaDelay := d } =
      decide (timaPeriodOf t ∣ t.divCounter.toNat + k + 1) := by
  have hcount : (t.divCounter + BitVec.ofNat 16 k).toNat = (t.divCounter.toNat + k) % 65536 := by
    rw [BitVec.toNat_add, BitVec.toNat_ofNat]
    omega
  show (timerOn t && decide (timaPeriodOf t ∣ (t.divCounter + BitVec.ofNat 16 k).toNat + 1)) = _
  rw [hon, Bool.true_and, hcount, decide_eq_decide, timaPeriodOf_dvd_wrap]

/-! One T-cycle by the reload's delay: none running, some T-cycles left, the last one. -/

theorem timerViewTick_idle {t : Timer} {flag : Bool} (h : t.timaDelay = 0) : timerViewTick (t, flag) =
    (if timaEdgeNext t then incTima { t with divCounter := t.divCounter + 1#16 }
      else { t with divCounter := t.divCounter + 1#16 }, flag) := by
  simp [timerViewTick, reloadTimer, h]

theorem timerViewTick_waiting {t : Timer} {flag : Bool} {d : Nat} (h : t.timaDelay = d + 2)
    (hedge : timaEdgeNext t = false) :
    timerViewTick (t, flag) = ({ t with divCounter := t.divCounter + 1#16, timaDelay := d + 1 }, flag) := by
  simp [timerViewTick, reloadTimer, h, hedge]

theorem timerViewTick_last {t : Timer} {flag : Bool} (h : t.timaDelay = 1) (hedge : timaEdgeNext t = false) :
    timerViewTick (t, flag) =
      ({ t with divCounter := t.divCounter + 1#16, tima := t.tma, timaDelay := 0 }, true) := by
  simp [timerViewTick, reloadTimer, h, hedge]

theorem add_ofNat_succ {w : Nat} (c : BitVec w) (k : Nat) :
    c + BitVec.ofNat w (k + 1) = c + BitVec.ofNat w k + 1#w := by
  rw [BitVec.ofNat_add, BitVec.add_assoc]

/-- With no reload running and no overflow to come, TIMA counts the falling edges and nothing else moves. -/
theorem timerViewTick_counts {t : Timer} {flag : Bool} (hdelay : t.timaDelay = 0) (hon : timerOn t = true) (k : Nat)
    (hroom : t.tima.toNat + timaCounts t k ≤ 255) : timerViewTick^[k] (t, flag) =
      ({ t with
          divCounter := t.divCounter + BitVec.ofNat 16 k
          tima := t.tima + BitVec.ofNat 8 (timaCounts t k) }, flag) := by
  induction k with
  | zero => simp [timaCounts]
  | succ k ih =>
    have hsucc := timaCounts_succ t k
    rw [Function.iterate_succ_apply', ih (by omega), timerViewTick_idle (by exact hdelay), timaEdgeNext_after hon,
      add_ofNat_succ _ k]
    by_cases hedge : timaPeriodOf t ∣ t.divCounter.toNat + k + 1
    · rw [if_pos hedge] at hsucc
      have hroom' : t.tima + BitVec.ofNat 8 (timaCounts t k) ≠ 0xFF#8 := by bv_omega
      rw [if_pos (decide_eq_true hedge), incTima, if_neg hroom', hsucc, add_ofNat_succ _ (timaCounts t k)]
    · rw [if_neg hedge, Nat.add_zero (timaCounts t k)] at hsucc
      rw [if_neg (by simpa using hedge), hsucc]

/-- Off, the timer never counts. -/
theorem timerViewTick_off {t : Timer} {flag : Bool} (hdelay : t.timaDelay = 0) (hoff : timerOn t = false) (k : Nat) :
    timerViewTick^[k] (t, flag) = ({ t with divCounter := t.divCounter + BitVec.ofNat 16 k }, flag) := by
  induction k with
  | zero => simp
  | succ k ih =>
    have hedge : timaEdgeNext { t with divCounter := t.divCounter + BitVec.ofNat 16 k } = false := by
      show (timerOn t && _) = false
      rw [hoff, Bool.false_and]
    rw [Function.iterate_succ_apply', ih, timerViewTick_idle (by exact hdelay), hedge, if_neg (by decide), add_ofNat_succ _ k]

/-- Settles O19: one falling edge in a period. -/
theorem timaPeriod : Obligations.TimaPeriod := by
  intro s hdelay period
  have hperiod : period = timaPeriodOf s.timer := by
    simp only [period, timaPeriodOf, timerBit, tacBit]
    split_ifs <;> rfl
  refine ⟨fun hon hroom => ?_, fun hoff k => ?_⟩
  · have hone := timaCounts_period s.timer
    have hview := timerView_tick period s
    rw [hperiod, timerView, timerView, timerViewTick_counts hdelay hon _ (by rw [hone]; bv_omega), hone] at hview
    have htimer := congrArg Prod.fst hview
    rw [hperiod]
    exact ⟨congrArg Timer.tima htimer, (congrArg Timer.timaDelay htimer).trans hdelay⟩
  · have hview := timerView_tick k s
    rw [timerView, timerView, timerViewTick_off hdelay hoff] at hview
    exact congrArg (fun w => w.1.tima) hview

/-! TIMA's overflow and its reload (R367, R368, R369). -/

/-- TIMA reads $00 for four T-cycles, with no edge among them. -/
theorem timerViewTick_overflow {t : Timer} {flag : Bool} (hdelay : t.timaDelay = 0) (hon : timerOn t = true)
    (htima : t.tima = 0xFF#8) (hedge : timaPeriodOf t ∣ t.divCounter.toNat + 1) {j : Nat} (hj : j < 4) :
    timerViewTick^[j + 1] (t, flag) =
      ({ t with divCounter := t.divCounter + BitVec.ofNat 16 (j + 1), tima := 0#8, timaDelay := 4 - j }, flag) := by
  induction j with
  | zero =>
    have hnow : timaEdgeNext t = true := by rw [timaEdgeNext, hon, decide_eq_true hedge, Bool.and_self]
    rw [Function.iterate_one, timerViewTick_idle hdelay, hnow, if_pos rfl, incTima, if_pos htima]
  | succ j ih =>
    have hnot := timaPeriodOf_not_dvd t hedge (j := j + 1) (by omega) (by omega)
    obtain ⟨d, hd⟩ : ∃ d, 4 - j = d + 2 := ⟨2 - j, by omega⟩
    rw [Function.iterate_succ_apply', ih (by omega), timerViewTick_waiting (d := d) (by exact hd)
      (by rw [timaEdgeNext_after hon, decide_eq_false hnot]), add_ofNat_succ _ (j + 1), show d + 1 = 4 - (j + 1) by omega]

/-- In the fifth TMA is loaded and TIMER flagged. -/
theorem timerViewTick_reload {t : Timer} {flag : Bool} (hdelay : t.timaDelay = 0) (hon : timerOn t = true)
    (htima : t.tima = 0xFF#8) (hedge : timaPeriodOf t ∣ t.divCounter.toNat + 1) : timerViewTick^[5] (t, flag) =
      ({ t with divCounter := t.divCounter + BitVec.ofNat 16 5, tima := t.tma, timaDelay := 0 }, true) := by
  have hnot := timaPeriodOf_not_dvd t hedge (j := 4) (by omega) (by omega)
  rw [Function.iterate_succ_apply', timerViewTick_overflow hdelay hon htima hedge (by decide : 3 < 4),
    timerViewTick_last rfl (by rw [timaEdgeNext_after hon, decide_eq_false hnot]), add_ofNat_succ _ 4]

/-- Settles O20: the overflow, the three T-cycles of delay after it, and the reload. -/
theorem timaOverflowAndReload : Obligations.TimaOverflowAndReload := by
  intro s hdelay hon htima hone hzero
  have hedge := (timerBit_falls_iff s.timer s.timer.divCounter).mp ⟨hone, hzero⟩
  refine ⟨fun k hk hk' => ?_, ?_⟩
  · obtain ⟨j, rfl⟩ : ∃ j, k = j + 1 := ⟨k - 1, by omega⟩
    have hview := timerView_tick (j + 1) s
    rw [timerView, timerView, timerViewTick_overflow hdelay hon htima hedge (by omega)] at hview
    obtain ⟨htimer, hflag⟩ := Prod.mk.inj hview
    exact ⟨congrArg Timer.tima htimer, (congrArg Timer.timaDelay htimer).trans (by dsimp only; omega), hflag⟩
  · have hview := timerView_tick 5 s
    rw [timerView, timerView, timerViewTick_reload hdelay hon htima hedge] at hview
    obtain ⟨htimer, hflag⟩ := Prod.mk.inj hview
    exact ⟨congrArg Timer.tima htimer, hflag, congrArg Timer.timaDelay htimer⟩

end Sys2Proof.Machine

/-! ### The PPU over many T-cycles, and the LCD turned on and off (O22, O23, O26) -/

namespace Sys2Proof.Machine

/-! On a DMG every T-cycle is one `PpuTick` (R14). -/

theorem ppuMoves_of_dmg {s : State} (hdmg : s.cgb = none) (left : Nat) : ppuMoves s left = true := by
  simp [ppuMoves, hdmg]

theorem ppuCount_of_dmg {s : State} (hdmg : s.cgb = none) (k : Nat) : ppuCount s k = k :=
  Nat.count_of_forall fun left _ => ppuMoves_of_dmg hdmg left

theorem samePicture_ppuTicks_tick {s : State} (hdmg : s.cgb = none) (k : Nat) : SamePicture (ppuTick^[k] s) (tick k s) where
  ppu := by rw [tick_ppu, ppuCount_of_dmg hdmg]
  mem := by
    rw [tick_mem]
    induction k with
    | zero => rfl
    | succ k ih => rw [Function.iterate_succ_apply', DeviceAction.ppuTick.mem, ih]
  isCgb := by
    rw [tick_cgb]
    induction k with
    | zero => rfl
    | succ k ih => rw [Function.iterate_succ_apply', DeviceAction.ppuTick.cgb, ih]

theorem tick_succ_ppu {s : State} (hdmg : s.cgb = none) (k : Nat) : (tick (k + 1) s).ppu = (ppuTick (tick k s)).ppu := by
  rw [tick_ppu, ppuCount_of_dmg hdmg, Function.iterate_succ_apply', (samePicture_ppuTicks_tick hdmg k).ppuTick.ppu]

/-! The place in the frame (R385, R386). -/

theorem framePos_lt {p : Ppu} (h : PpuRanges p) : framePos p < 70224 := by
  obtain ⟨hly, hcycle, -⟩ := h
  unfold framePos
  omega

theorem ppuTick_framePos {s : State} (hon : lcdOn s.ppu = true) (hr : PpuRanges s.ppu) :
    framePos (ppuTick s).ppu = (framePos s.ppu + 1) % 70224 := by
  obtain ⟨hly, hcycle, -⟩ := hr
  have hpos := ppuTick_position s hon
  unfold framePos
  split at hpos <;> obtain ⟨hl, hc⟩ := Prod.mk.inj hpos <;> rw [hl, hc] <;> omega

/-- The LCD on and the ranges kept, for any number of T-cycles. -/
theorem tick_ppu_on {s : State} (hdmg : s.cgb = none) (hon : lcdOn s.ppu = true) (hr : PpuRanges s.ppu) (k : Nat) :
    lcdOn (tick k s).ppu = true ∧ PpuRanges (tick k s).ppu := by
  induction k with
  | zero => exact ⟨hon, hr⟩
  | succ k ih =>
    rw [tick_succ_ppu hdmg, ppuTick_lcdOn]
    exact ⟨ih.1, ppuTick_ranges ih.2⟩

theorem tick_framePos {s : State} (hdmg : s.cgb = none) (hon : lcdOn s.ppu = true) (hr : PpuRanges s.ppu) (k : Nat) :
    framePos (tick k s).ppu = (framePos s.ppu + k) % 70224 := by
  induction k with
  | zero =>
    rw [Nat.add_zero, Nat.mod_eq_of_lt (framePos_lt hr)]
    rfl
  | succ k ih =>
    obtain ⟨hon', hr'⟩ := tick_ppu_on hdmg hon hr k
    rw [tick_succ_ppu hdmg, ppuTick_framePos hon' hr', ih]
    omega

theorem tick_modeByPosition {s : State} (hdmg : s.cgb = none) (hon : lcdOn s.ppu = true) (hr : PpuRanges s.ppu)
    (hmode : ModeByPosition s.ppu) (k : Nat) : ModeByPosition (tick k s).ppu := by
  induction k with
  | zero => exact hmode
  | succ k ih =>
    rw [tick_succ_ppu hdmg]
    exact ppuTick_modeByPosition (tick_ppu_on hdmg hon hr k).2 ih

/-! What one `PpuTick` does to the picture, the sprites of the line and the frame count (R387, R388, R399). -/

/-- A rendered line looks at neither the mode nor the position. -/
theorem renderedLine_of_place (m : List Host.Cell) (p : Ppu) (mode : Mode) (n : Nat) (cgb : Option Cgb) (y : Nat) :
    renderedLine m { p with mode := mode, lineCycle := n } cgb y = renderedLine m p cgb y := rfl

/-- The three events of a line, and what becomes of the four fields at each. -/
theorem ppuTick_picture {s : State} (hon : lcdOn s.ppu = true) :
    (ppuTick s).ppu.framebuffer = (if s.ppu.lineCycle = 79 ∧ s.ppu.ly.toNat < 144 then (renderLine s).ppu.framebuffer
      else s.ppu.framebuffer) ∧
    (ppuTick s).ppu.lineSprites = (if s.ppu.lineCycle = 455 ∧ (s.ppu.ly.toNat + 1) % 154 < 144 then
      spritesOfLine s.mem (spriteHeight s.ppu) ((s.ppu.ly.toNat + 1) % 154) else s.ppu.lineSprites) ∧
    (ppuTick s).ppu.frameCount = (if s.ppu.lineCycle = 455 ∧ (s.ppu.ly.toNat + 1) % 154 = 144 then
      s.ppu.frameCount + 1 else s.ppu.frameCount) ∧
    (s.ppu.lineCycle = 79 ∧ s.ppu.ly.toNat < 144 → (ppuTick s).ppu.mode = .rendering) ∧
    (s.ppu.lineCycle = 455 ∧ (s.ppu.ly.toNat + 1) % 154 < 144 → (ppuTick s).ppu.mode = .oamScan) := by
  rcases ppuTick_cases s hon with ⟨h1, e⟩ | ⟨h0, h1, e⟩ | ⟨h0, h1, e⟩ | ⟨h1, h2, e⟩ <;> rw [e]
  · have hc : s.ppu.lineCycle = 455 := by omega
    rw [(endOfLine_eq _).1]
    simp only [hc]
    split_ifs <;> simp_all [nextLine, spriteHeight]
  · have hc : s.ppu.lineCycle = 79 := by omega
    simp only [hc, h0]
    simp [renderLine]
    rfl
  · have hc : s.ppu.lineCycle = 251 := by omega
    simp [hc]
  · have hc : s.ppu.lineCycle ≠ 455 := by omega
    have h79 : ¬ (s.ppu.lineCycle = 79 ∧ s.ppu.ly.toNat < 144) := by omega
    simp [hc, h79]

/-- The sprite scan of line `y` before the PPU gets there. -/
theorem spriteScan_at (s : State) {y : Nat} (hy : y < 256) :
    (spriteScan { s with ppu := { s.ppu with ly := BitVec.ofNat 8 y } }).ppu.lineSprites =
      spritesOfLine s.mem (spriteHeight s.ppu) y := by
  have hly : (BitVec.ofNat 8 y).toNat = y := Nat.mod_eq_of_lt hy
  simp only [spriteScan, hly]
  rfl

/-- Settles O22: the place by induction on the T-cycles, the picture by the events of one. -/
theorem ppuWalksTheFrame : Obligations.PpuWalksTheFrame := by
  refine ⟨fun k s hdmg => tick_succ_ppu hdmg k, fun k s hdmg hon hr => ⟨tick_framePos hdmg hon hr k,
    (tick_ppu_on hdmg hon hr k).2.2.1, fun hmode => ?_⟩, fun s hon hr => ?_⟩
  · exact tick_modeByPosition hdmg hon hr (fun _ => hmode) k (tick_ppu_on hdmg hon hr k).1
  · obtain ⟨hframe, hsprites, hcount, hmode3, hmode2⟩ := ppuTick_picture hon
    refine ⟨fun h => ⟨hframe.trans (if_pos h), hmode3 h⟩, fun h => hframe.trans (if_neg h), fun h => ⟨hmode2 h, ?_⟩,
      fun h => hsprites.trans (if_neg h), hcount, DeviceAction.ppuTick.mem s⟩
    rw [spriteScan_at s (by omega)]
    exact hsprites.trans (if_pos h)

/-! The frames counted (R388, R407, R408). -/

theorem tCycle_ppu_of_dmg {s : State} (hdmg : s.cgb = none) (left : Nat) : (tCycle s left).ppu = (ppuTick s).ppu := by
  rw [(samePicture_tCycle s left).ppu, ppuMoves_of_dmg hdmg, if_pos rfl]

/-- The T-cycle that enters VBlank flags it, and counts a frame. -/
theorem tCycle_vblank {s : State} (hdmg : s.cgb = none) (hon : lcdOn s.ppu = true) (left : Nat) :
    (tCycle s left).ppu.frameCount = (if entersVBlank s.ppu then s.ppu.frameCount + 1 else s.ppu.frameCount) ∧
      (entersVBlank s.ppu = true → (tCycle s left).intFlags.getLsbD 0 = true) := by
  refine ⟨?_, fun henters => ?_⟩
  · rw [tCycle_ppu_of_dmg hdmg, (ppuTick_picture hon).2.2.1]
    simp [entersVBlank]
  · have hcycle : tCycle s left = dmaTick (ppuTick (timerTick s)) := by
      rw [tCycle, ppuMoves_of_dmg hdmg, if_pos rfl]
    have htimer : (timerTick s).ppu = s.ppu := timerTick_ppu s
    rw [hcycle]
    show (ppuTick (timerTick s)).intFlags.getLsbD 0 = true
    rw [ppuTick_flag _ (htimer ▸ hon), htimer, henters]
    simp

/-- VBlank starts at place 65664 of the frame: `k` T-cycles count the times the place comes there, and a frame counted is a
VBLANK flagged. -/
theorem tCycles_frames (k : Nat) {s : State} (hdmg : s.cgb = none) (hon : lcdOn s.ppu = true) (hr : PpuRanges s.ppu) :
    (tCycles k s).ppu.frameCount + (framePos s.ppu + 4560) / 70224 =
        s.ppu.frameCount + (framePos s.ppu + k + 4560) / 70224 ∧
      (s.ppu.frameCount < (tCycles k s).ppu.frameCount → (tCycles k s).intFlags.getLsbD 0 = true) := by
  induction k generalizing s with
  | zero => exact ⟨rfl, fun h => absurd h (Nat.lt_irrefl _)⟩
  | succ k ih =>
    have hppu := tCycle_ppu_of_dmg hdmg k
    have hpos := ppuTick_framePos hon hr
    obtain ⟨hcount, hflag⟩ := tCycle_vblank hdmg hon k
    obtain ⟨ih1, ih2⟩ := ih (s := tCycle s k) (((DeviceAction.tCycle k).cgb s).trans hdmg)
      (by rw [hppu, ppuTick_lcdOn, hon]) (by rw [hppu]; exact ppuTick_ranges hr)
    have henters : entersVBlank s.ppu = true ↔ framePos s.ppu + 1 = 65664 := by
      obtain ⟨hly, hcycle, -⟩ := hr
      simp only [entersVBlank, decide_eq_true_eq, framePos]
      omega
    rw [tCycles]
    rw [hppu, hpos] at ih1
    rw [hppu] at ih2 hcount
    have hlt := framePos_lt hr
    by_cases h : entersVBlank s.ppu = true
    · rw [if_pos h] at hcount
      rw [henters] at h
      exact ⟨by omega, fun _ => tCycles_flagsKept k _ 0 (hflag (henters.mpr h))⟩
    · rw [if_neg h] at hcount
      rw [henters] at h
      exact ⟨by omega, fun hlt => ih2 (by omega)⟩

theorem tick_frames (k : Nat) {s : State} (hdmg : s.cgb = none) (hon : lcdOn s.ppu = true) (hr : PpuRanges s.ppu) :
    (tick k s).ppu.frameCount + (framePos s.ppu + 4560) / 70224 =
        s.ppu.frameCount + (framePos s.ppu + k + 4560) / 70224 ∧
      (s.ppu.frameCount < (tick k s).ppu.frameCount → (tick k s).intFlags.getLsbD 0 = true) :=
  tCycles_frames k (s := { s with cyclesTotal := s.cyclesTotal + k }) hdmg hon hr

/-- One place in the frame, one line and position in it. -/
theorem framePos_inj {p q : Ppu} (hp : PpuRanges p) (hq : PpuRanges q) (h : framePos p = framePos q) :
    p.ly = q.ly ∧ p.lineCycle = q.lineCycle := by
  obtain ⟨-, hcycle, -⟩ := hp
  obtain ⟨-, hcycle', -⟩ := hq
  unfold framePos at h
  exact ⟨BitVec.eq_of_toNat_eq (by omega), by omega⟩

/-- Settles O23: in 70,224 T-cycles the place passes the start of VBlank once, and comes back. -/
theorem oneVBlankPerFrame : Obligations.OneVBlankPerFrame := by
  intro s hdmg hon hr
  obtain ⟨hcount, hflag⟩ := tick_frames 70224 hdmg hon hr
  have hpos := tick_framePos hdmg hon hr 70224
  have hranges := (tick_ppu_on hdmg hon hr 70224).2
  rw [Nat.add_mod_right, Nat.mod_eq_of_lt (framePos_lt hr)] at hpos
  have hone : (tick 70224 s).ppu.frameCount = s.ppu.frameCount + 1 := by omega
  exact ⟨hone, hflag (by omega), framePos_inj hranges hr hpos⟩

/-! The LCD off and on (R381, R390). -/

theorem lcdOn_eq_decide (p : Ppu) : lcdOn p = decide (bitNat p.lcdc 7 = 1) := getLsbD_eq_decide p.lcdc 7

theorem lcdcWrite_off {s : State} {v : Byte} (hon : lcdOn s.ppu = true) (hv : v.getLsbD 7 = false) : lcdcWrite s v =
    lyCompare { s with ppu := { s.ppu with lcdc := v, ly := 0#8, mode := .hblank, lineCycle := 0 } } := by
  rw [lcdcWrite, hon, hv]
  rfl

theorem lcdcWrite_on {s : State} {v : Byte} (hoff : lcdOn s.ppu = false) (hv : v.getLsbD 7 = true) : lcdcWrite s v =
    enterMode2 (lyCompare { s with ppu := { s.ppu with lcdc := v, ly := 0#8, lineCycle := 0 } }) := by
  rw [lcdcWrite, hoff, hv]
  rfl

theorem lcdcWrite_same {s : State} {v : Byte} (h : lcdOn s.ppu = v.getLsbD 7) :
    lcdcWrite s v = { s with ppu := { s.ppu with lcdc := v } } := by
  rw [lcdcWrite, h]
  cases v.getLsbD 7 <;> rfl

/-- While the LCD is off a T-cycle leaves the PPU and its two interrupts alone. -/
theorem tCycle_off {s : State} (hoff : lcdOn s.ppu = false) (left : Nat) :
    (tCycle s left).ppu = s.ppu ∧ ∀ n ≤ 1, (tCycle s left).intFlags.getLsbD n = s.intFlags.getLsbD n := by
  have hcycle : tCycle s left = dmaTick (timerTick s) := by
    rw [tCycle, ppuTick_off (by rwa [timerTick_ppu]), ite_self]
  rw [hcycle]
  refine ⟨timerTick_ppu s, fun n hn => (timerTick_flag s n).trans ?_⟩
  rw [decide_eq_false (by omega), Bool.false_and, Bool.or_false]

theorem tCycles_off (k : Nat) {s : State} (hoff : lcdOn s.ppu = false) :
    (tCycles k s).ppu = s.ppu ∧ ∀ n ≤ 1, (tCycles k s).intFlags.getLsbD n = s.intFlags.getLsbD n := by
  induction k generalizing s with
  | zero => exact ⟨rfl, fun _ _ => rfl⟩
  | succ k ih =>
    obtain ⟨hppu, hflags⟩ := tCycle_off hoff k
    obtain ⟨ihppu, ihflags⟩ := ih (s := tCycle s k) (by rwa [hppu])
    exact ⟨ihppu.trans hppu, fun n hn => (ihflags n hn).trans (hflags n hn)⟩

/-- STAT flagged for one reason or for both (R391). -/
theorem or_stat_twice (f : BitVec 5) (p q : Prop) [Decidable p] [Decidable q] :
    (if q then (if p then f ||| 2#5 else f) ||| 2#5 else if p then f ||| 2#5 else f) = if p ∨ q then f ||| 2#5 else f := by
  by_cases hp : p <;> by_cases hq : q <;> simp [hp, hq, BitVec.or_assoc]

/-- Settles O26: the three branches of `lcdcWrite`, and that an LCD off stays as it is. -/
theorem lcdOffAndOn : Obligations.LcdOffAndOn := by
  intro s v
  have hwrite : busWrite s 0xFF40#16 v = lcdcWrite s v := rfl
  have hbit := getLsbD_eq_decide v 7
  have hlcd := lcdOn_eq_decide s.ppu
  rw [hwrite]
  refine ⟨fun h h' => lcdcWrite_off (by rw [hlcd, h]; rfl) (by rw [hbit, h']; rfl), fun h h' => ?_,
    fun h => lcdcWrite_same (by rw [hlcd, hbit, h]), fun h k => ?_⟩
  · rw [lcdcWrite_on (by rw [hlcd, h]; rfl) (by rw [hbit, h']; rfl), lyCompare_eq, enterMode2_eq]
    have hzero : 0#8 = s.ppu.lyc ↔ s.ppu.lyc.toNat = 0 := by rw [← BitVec.toNat_inj]; exact eq_comm
    have hmatch : decide (s.ppu.lyc.toNat = 0) = decide ((0#8).toNat = s.ppu.lyc.toNat) := decide_eq_decide.mpr eq_comm
    rw [hmatch]
    congr 1
    exact (or_stat_twice _ _ _).trans (if_congr (or_congr_left (and_congr_left fun _ => hzero)) rfl rfl)
  · exact tCycles_off k (by rw [lcdOn_eq_decide, h]; rfl)

end Sys2Proof.Machine

/-! ### OAM DMA (O36) -/

namespace Sys2Proof.Machine

/-! The source of the copy, page by page (R415, R416). -/

theorem dmaAddress_toNat (v : Byte) {i : Nat} (hi : i < 160) :
    (wordOf v 0#8 + BitVec.ofNat 16 i).toNat = v.toNat * 256 + i := by
  have hv := v.isLt
  rw [BitVec.toNat_add, toNat_wordOf, BitVec.toNat_ofNat, BitVec.toNat_ofNat]
  omega

/-- The engine reads what the CPU reads of ROM and of the cartridge, RAM past its lockouts, and nothing above. -/
theorem dmaRead_eq (s : State) (a : Word) : dmaRead s a =
    if a.toNat < 0x8000 then busRead s a else if a.toNat < 0xA000 then Memory.read s.mem a.toNat
    else if a.toNat < 0xC000 then busRead s a else if a.toNat < 0xE000 then Memory.read s.mem a.toNat
    else if a.toNat < 0xFE00 then Memory.read s.mem (a.toNat - 0x2000) else 0xFF#8 := by
  have hr := regionOf_range a
  unfold dmaRead busRead
  cases hreg : regionOf a <;> rw [hreg] at hr <;> dsimp only at hr ⊢
  case rom => rw [if_pos hr]
  case vram => rw [if_neg (by omega), if_pos hr.2]
  case cartRam => rw [if_neg (by omega), if_neg (by omega), if_pos hr.2]
  case wram => rw [if_neg (by omega), if_neg (by omega), if_neg (by omega), if_pos hr.2]
  case echo => rw [if_neg (by omega), if_neg (by omega), if_neg (by omega), if_neg (by omega), if_pos hr.2]
  all_goals
    rw [if_neg (by omega), if_neg (by omega), if_neg (by omega), if_neg (by omega), if_neg (by omega)]
    rfl

theorem dmaSource_getElem (s : State) (v : Byte) {i : Nat} (hi : i < (dmaSource s v).length) :
    (dmaSource s v)[i] = dmaRead s (BitVec.ofNat 16 (v.toNat * 256 + i)) := by
  have haddr : wordOf v 0#8 + BitVec.ofNat 16 i = BitVec.ofNat 16 (v.toNat * 256 + i) := by
    rw [dmaSource_length] at hi
    rw [← dmaAddress_toNat v hi, BitVec.ofNat_toNat, BitVec.setWidth_eq]
  simp only [dmaSource, List.getElem_map, List.getElem_range, haddr]

theorem busWrite_dma (s : State) (v : Byte) : busWrite s 0xFF46#16 v = dmaWrite s v := rfl

theorem dmaWrite_eq (s : State) (v : Byte) : (dmaWrite s v).mem = Memory.writeBytes s.mem 0xFE00 (dmaSource s v) ∧
    (dmaWrite s v).dmaRemaining = 640 ∧ dmaWrite s v = { s with mem := (dmaWrite s v).mem, dmaRemaining := 640 } := by
  dsimp only [dmaWrite]
  exact ⟨rfl, rfl, rfl⟩

/-! The lockout (R69, R415). -/

theorem tCycle_dma (s : State) (left : Nat) : (tCycle s left).dmaRemaining = s.dmaRemaining - 1 := by
  rw [tCycle]
  dsimp only [dmaTick]
  split
  · rw [ppuTick_dma, timerTick_dma]
  · rw [timerTick_dma]

theorem tick_dma (k : Nat) (s : State) : (tick k s).dmaRemaining = s.dmaRemaining - k := by
  have hcycles (k : Nat) : ∀ s, (tCycles k s).dmaRemaining = s.dmaRemaining - k := by
    induction k with
    | zero => exact fun _ => rfl
    | succ k ih => exact fun s => by rw [tCycles, ih, tCycle_dma, Nat.sub_sub, Nat.add_comm]
  exact hcycles k _

/-- Settles O36: 160 bytes stored from $FE00 upwards, each read as `dmaRead` reads its address, and a lockout that time
alone ends. -/
theorem oamDma : Obligations.OamDma := by
  intro s v hm t
  have ht : t = dmaWrite s v := busWrite_dma s v
  clear_value t
  obtain ⟨hmem, hlock, hframe⟩ := dmaWrite_eq s v
  rw [← ht] at hmem hlock hframe
  have hdma (k : Nat) : (tick k t).dmaRemaining = 640 - k := by rw [tick_dma, hlock]
  refine ⟨fun i hi => ?_, fun n hn => ?_, hframe, hdma, fun k hk a h1 h2 => ?_⟩
  · have hv := v.isLt
    have haddr : (BitVec.ofNat 16 (v.toNat * 256 + i)).toNat = v.toNat * 256 + i := by
      rw [BitVec.toNat_ofNat]
      omega
    rw [hmem, Memory.read_writeBytes_at hm (by rwa [dmaSource_length]), dmaSource_getElem, dmaRead_eq, haddr]
  · rw [hmem, Memory.read_writeBytes_other (by rw [dmaSource_length]; omega)]
  · rw [busRead_oam ⟨h1, h2⟩, if_pos (.inr (.inr (by rw [hdma]; omega)))]

end Sys2Proof.Machine

/-! ### The sprite scan (O27) -/

namespace Sys2Proof.Machine

/-! Insertion sort by a decidable order is the library's. -/

theorem insertSprite_eq (before : Fin 40 → Fin 40 → Bool) (i : Fin 40) (l : List (Fin 40)) :
    insertSprite before i l = l.orderedInsert (before · · = true) i := by
  induction l with
  | nil => rfl
  | cons j rest ih => simp only [insertSprite, List.orderedInsert, ih]

theorem sortSprites_eq (before : Fin 40 → Fin 40 → Bool) (l : List (Fin 40)) :
    sortSprites before l = l.insertionSort (before · · = true) := by
  induction l with
  | nil => rfl
  | cons i rest ih => rw [sortSprites, ih, insertSprite_eq]; rfl

theorem sortSprites_perm (before : Fin 40 → Fin 40 → Bool) (l : List (Fin 40)) : (sortSprites before l).Perm l := by
  rw [sortSprites_eq]
  exact List.perm_insertionSort _ l

theorem sortSprites_pairwise {before : Fin 40 → Fin 40 → Bool} (htotal : ∀ i j, before i j = true ∨ before j i = true)
    (htrans : ∀ i j k, before i j = true → before j k = true → before i k = true) (l : List (Fin 40)) :
    (sortSprites before l).Pairwise (before · · = true) := by
  rw [sortSprites_eq]
  have : Std.Total (before · · = true) := ⟨htotal⟩
  have : IsTrans (Fin 40) (before · · = true) := ⟨htrans⟩
  exact List.pairwise_insertionSort _ l

/-! The key order (R398). -/

theorem spriteBefore_iff (m : List Host.Cell) (i j : Fin 40) : spriteBefore m i j = true ↔
    (oamByte m i 1).toNat < (oamByte m j 1).toNat ∨ (oamByte m i 1).toNat = (oamByte m j 1).toNat ∧ i.val ≤ j.val := by
  simp only [spriteBefore, Bool.or_eq_true, Bool.and_eq_true, decide_eq_true_eq, beq_iff_eq, BitVec.toNat_inj]

/-- Of two sprites one comes before the other in the sorted order, so strictly in the key order. -/
theorem spriteKeyLt_iff {m : List Host.Cell} {i j : Fin 40} :
    spriteKeyLt m i j ↔ spriteBefore m i j = true ∧ i ≠ j := by
  rw [spriteBefore_iff, spriteKeyLt, Ne, Fin.ext_iff]
  constructor
  · rintro (h | h)
    · refine ⟨.inl h, fun hij => ?_⟩
      obtain rfl := Fin.ext hij
      omega
    · omega
  · omega

/-- All sprites on line `y`, best first. -/
def sortedSprites (m : List Host.Cell) (h y : Nat) : List (Fin 40) :=
  sortSprites (spriteBefore m) ((List.finRange 40).filter (spriteOnLine m h y))

theorem spritesOfLine_eq (m : List Host.Cell) (h y : Nat) : spritesOfLine m h y = (sortedSprites m h y).take 10 := rfl

theorem mem_sortedSprites {m : List Host.Cell} {h y : Nat} {i : Fin 40} :
    i ∈ sortedSprites m h y ↔ spriteOnLine m h y i = true := by
  rw [sortedSprites, (sortSprites_perm _ _).mem_iff, List.mem_filter]
  simp

theorem sortedSprites_pairwise (m : List Host.Cell) (h y : Nat) : (sortedSprites m h y).Pairwise (spriteKeyLt m) := by
  have hsorted : (sortedSprites m h y).Pairwise (spriteBefore m · · = true) := by
    refine sortSprites_pairwise (fun i j => ?_) (fun i j k => ?_) _
    · rw [spriteBefore_iff, spriteBefore_iff]
      omega
    · rw [spriteBefore_iff, spriteBefore_iff, spriteBefore_iff]
      omega
  have hnodup : (sortedSprites m h y).Nodup :=
    (sortSprites_perm _ _).nodup_iff.mpr ((List.nodup_finRange 40).filter _)
  exact (hsorted.and hnodup).imp spriteKeyLt_iff.mpr

/-- A sprite past the ten kept comes after each of them. -/
theorem sortedSprites_rest {m : List Host.Cell} {h y : Nat} {i : Fin 40} (hi : i ∈ sortedSprites m h y)
    (hrest : i ∉ (sortedSprites m h y).take 10) :
    ((sortedSprites m h y).take 10).length = 10 ∧ ∀ j ∈ (sortedSprites m h y).take 10, spriteKeyLt m j i := by
  have hpair := sortedSprites_pairwise m h y
  have hdrop : i ∈ (sortedSprites m h y).drop 10 := by
    rw [← List.take_append_drop 10 (sortedSprites m h y), List.mem_append] at hi
    exact hi.resolve_left hrest
  have hlen : 0 < ((sortedSprites m h y).drop 10).length := List.length_pos_of_mem hdrop
  rw [List.length_drop] at hlen
  rw [← List.take_append_drop 10 (sortedSprites m h y), List.pairwise_append] at hpair
  exact ⟨by rw [List.length_take]; omega, fun j hj => hpair.2.2 j hj i hdrop⟩

/-- `OAM[4i] - 16 <= LY < OAM[4i] - 16 + h` as the statement writes it. -/
theorem spriteOnLine_iff (m : List Host.Cell) (h y : Nat) (i : Fin 40) : spriteOnLine m h y i = true ↔
    ((Memory.read m (0xFE00 + 4 * i.val)).toNat : Int) - 16 ≤ y ∧
      (y : Int) < (Memory.read m (0xFE00 + 4 * i.val)).toNat - 16 + (h : Int) := by
  have htop : oamByte m i 0 = Memory.read m (0xFE00 + 4 * i.val) := rfl
  rw [spriteOnLine, htop, Bool.and_eq_true, decide_eq_true_eq, decide_eq_true_eq]
  omega

theorem spriteHeight_eq (p : Ppu) : spriteHeight p = if bitNat p.lcdc 2 = 1 then 16 else 8 := by
  rw [spriteHeight, getLsbD_eq_decide]
  simp only [decide_eq_true_eq]

/-- Settles O27: the first ten of the sorted list, and what sorting says of the rest. -/
theorem spriteScanRule : Obligations.SpriteScanRule := by
  intro s l h onLine
  have hl : l = (sortedSprites s.mem (spriteHeight s.ppu) s.ppu.ly.toNat).take 10 := rfl
  have hheight : h = (spriteHeight s.ppu : Int) := by
    rw [spriteHeight_eq]
    simp only [h]
    split <;> rfl
  have honLine (i : Fin 40) : onLine i ↔ i ∈ sortedSprites s.mem (spriteHeight s.ppu) s.ppu.ly.toNat := by
    rw [mem_sortedSprites, spriteOnLine_iff, ← hheight]
  refine ⟨rfl, spritesOfLine_length _ _ _, ?_, fun i hi => ?_, fun i hi hnot => ?_⟩
  · exact (sortedSprites_pairwise _ _ _).sublist (List.take_sublist 10 _)
  · exact (honLine i).mpr (List.mem_of_mem_take hi)
  · exact sortedSprites_rest ((honLine i).mp hi) hnot

end Sys2Proof.Machine

/-! ### The picture, pixel by pixel (O28, O29) -/

namespace Sys2Proof.Machine

/-! Pattern and palette bits in exact integers (R396, R402). -/

theorem toNat_getLsbD (v : Byte) (n : Nat) : (v.getLsbD n).toNat = bitNat v n := Nat.toNat_testBit v.toNat n

theorem getLsbD_iff_bitNat (v : Byte) (n : Nat) : v.getLsbD n = true ↔ bitNat v n = 1 := by
  rw [getLsbD_eq_decide, decide_eq_true_eq]

theorem bitNat_eq_zero_iff (v : Byte) (n : Nat) : bitNat v n = 0 ↔ v.getLsbD n = false := by
  rw [← toNat_getLsbD]
  cases v.getLsbD n <;> simp

theorem patternPixel_toNat (m : List Host.Cell) (row c : Nat) : (patternPixel m row c).toNat =
    2 * bitNat (Memory.read m (row + 1)) (7 - c) + bitNat (Memory.read m row) (7 - c) := by
  rw [patternPixel, toNat_append_eq_add, BitVec.toNat_ofBool, BitVec.toNat_ofBool, toNat_getLsbD, toNat_getLsbD,
    Nat.pow_one]

theorem shadeOf_toNat (p : Byte) (i : BitVec 2) : (shadeOf p i).toNat = p.toNat / 4 ^ i.toNat % 4 := by
  rw [shadeOf, BitVec.extractLsb'_toNat, Nat.shiftRight_eq_div_pow, Nat.pow_mul]

/-! The background and the window (R397, R399, R400). -/

theorem bgPattern_eq (p : Ppu) (t : Byte) : bgPattern p t =
    if bitNat p.lcdc 4 = 1 then 0x8000 + 16 * t.toNat else if t.toNat < 128 then 0x9000 + 16 * t.toNat
    else 0x8000 + 16 * t.toNat := by
  have ht := t.isLt
  rw [bgPattern]
  refine if_congr (getLsbD_iff_bitNat _ _) rfl ?_
  rw [BitVec.toInt_eq_toNat_cond]
  split_ifs <;> omega

theorem mapPixel_toNat (m : List Host.Cell) (p : Ppu) (map py px : Nat) :
    let row := bgPattern p (Memory.read m (map + 32 * (py / 8) + px / 8)) + 2 * (py % 8)
    (mapPixel m p map py px).toNat =
      2 * bitNat (Memory.read m (row + 1)) (7 - px % 8) + bitNat (Memory.read m row) (7 - px % 8) :=
  patternPixel_toNat m _ _

theorem mapBase_eq (v : Byte) (n : Nat) : mapBase (v.getLsbD n) = if bitNat v n = 1 then 0x9C00 else 0x9800 :=
  if_congr (getLsbD_iff_bitNat v n) rfl rfl

theorem inWindow_iff (p : Ppu) (y x : Nat) :
    inWindow p y x = true ↔ bitNat p.lcdc 5 = 1 ∧ p.wx.toNat ≤ x + 7 ∧ p.wy.toNat ≤ y := by
  simp only [inWindow, Bool.and_eq_true, decide_eq_true_eq, getLsbD_iff_bitNat, and_assoc]

/-- The exact background is the model's index and shade. -/
theorem specBackground_eq (m : List Host.Cell) (p : Ppu) (y x : Nat) :
    specBackground m p y x = ((bgIndex m p y x).toNat, (bgShade m p y x).toNat) := by
  cases h0 : p.lcdc.getLsbD 0 with
  | false =>
    have hindex : bgIndex m p y x = 0#2 := if_pos (by rw [h0]; rfl)
    have hshade : bgShade m p y x = 0#2 := if_neg (by rw [h0]; decide)
    rw [specBackground, if_pos ((bitNat_eq_zero_iff _ _).mpr h0), hindex, hshade]
    rfl
  | true =>
    have hbit : ¬ bitNat p.lcdc 0 = 0 := by rw [bitNat_eq_zero_iff, h0]; decide
    have hindex : bgIndex m p y x = if inWindow p y x then
          mapPixel m p (mapBase (p.lcdc.getLsbD 6)) (y - p.wy.toNat) (x + 7 - p.wx.toNat)
        else mapPixel m p (mapBase (p.lcdc.getLsbD 3)) ((y + p.scy.toNat) % 256) ((x + p.scx.toNat) % 256) :=
      if_neg (by rw [h0]; decide)
    have hshade : bgShade m p y x = shadeOf p.bgp (bgIndex m p y x) := if_pos h0
    rw [specBackground, if_neg hbit, hshade, shadeOf_toNat, hindex]
    by_cases hwin : inWindow p y x = true
    · have hwin' := (inWindow_iff p y x).mp hwin
      simp only [if_pos hwin, if_pos hwin', mapPixel_toNat, mapBase_eq, bgPattern_eq]
    · have hwin' := mt (inWindow_iff p y x).mpr hwin
      simp only [if_neg hwin, if_neg hwin', mapPixel_toNat, mapBase_eq, bgPattern_eq]

/-! A row of the framebuffer (R399, R403). -/

theorem renderLine_row {s : State} {y : Fin 144} (hy : s.ppu.ly.toNat = y.val) :
    (renderLine s).ppu.framebuffer[y] = renderedLine s.mem s.ppu s.cgb y.val := by
  show (s.ppu.framebuffer.setIfInBounds s.ppu.ly.toNat (renderedLine s.mem s.ppu s.cgb s.ppu.ly.toNat))[y.val] = _
  rw [Vector.getElem_setIfInBounds, if_pos hy, hy]

theorem renderLine_otherRow {s : State} {y z : Fin 144} (hy : s.ppu.ly.toNat = y.val) (hz : z ≠ y) :
    (renderLine s).ppu.framebuffer[z] = s.ppu.framebuffer[z] := by
  show (s.ppu.framebuffer.setIfInBounds s.ppu.ly.toNat (renderedLine s.mem s.ppu s.cgb s.ppu.ly.toNat))[z.val] = _
  rw [Vector.getElem_setIfInBounds, if_neg (fun h => hz (Fin.ext (h.symm.trans hy)))]
  rfl

/-- The row before any sprite is drawn. -/
def unspritedRow (m : List Host.Cell) (p : Ppu) (y : Nat) : PixelRow := Vector.ofFn fun x => bgShade m p y x.val

theorem unspritedRow_pixel (m : List Host.Cell) (p : Ppu) (y : Nat) (x : Fin 160) :
    (unspritedRow m p y)[x] = bgShade m p y x.val := by
  show (Vector.ofFn _)[x.val] = _
  rw [Vector.getElem_ofFn]

theorem renderedLine_off {m : List Host.Cell} {p : Ppu} {cgb : Option Cgb} {y : Nat} (h : p.lcdc.getLsbD 1 = false) :
    renderedLine m p cgb y = unspritedRow m p y := if_neg (by rw [h]; decide)

theorem renderedLine_on {m : List Host.Cell} {p : Ppu} {cgb : Option Cgb} {y : Nat} (h : p.lcdc.getLsbD 1 = true) :
    renderedLine m p cgb y =
      (drawOrder cgb p.lineSprites).foldr (fun i pixels => drawSprite m p y pixels i) (unspritedRow m p y) :=
  (if_pos h).trans List.foldl_reverse

/-- Settles O28: with sprites off the row is the background's; the rest of the framebuffer is not written. -/
theorem backgroundRow : Obligations.BackgroundRow := by
  intro s y hy
  refine ⟨fun hoff x => ?_, fun z hz => renderLine_otherRow hy hz, rfl⟩
  rw [renderLine_row hy, renderedLine_off hoff, unspritedRow_pixel, specBackground_eq]

/-! One sprite onto the row (R395, R396, R401). -/

/-- The shade that column `c` of sprite `i` shows at pixel `x`: none at index 0, or behind the background. -/
def columnShade (m : List Host.Cell) (p : Ppu) (y x : Nat) (i : Fin 40) (row c : Nat) : Option (BitVec 2) :=
  let attr := oamByte m i 3
  let idx := patternPixel m row (if attr.getLsbD 5 then 7 - c else c)
  if idx ≠ 0#2 ∧ (attr.getLsbD 7 = false ∨ bgIndex m p y x = 0#2) then
    some (shadeOf (if attr.getLsbD 4 then p.obp1 else p.obp0) idx)
  else none

/-- The shade sprite `i` shows at pixel `x` of line `y`, by the column that falls there. -/
def spriteShade (m : List Host.Cell) (p : Ppu) (y x : Nat) (i : Fin 40) : Option (BitVec 2) :=
  match spriteRowAddr m p y i with
  | none => none
  | some row =>
    let left := (oamByte m i 1).toNat
    if left ≤ x + 8 ∧ x + 8 - left < 8 then columnShade m p y x i row (x + 8 - left) else none

section
variable (m : List Host.Cell) (p : Ppu) (y : Nat) (i : Fin 40)

/-- A column is drawn at the one pixel it falls on, where it shows. -/
theorem drawSpriteColumn_pixel (row : Nat) (pixels : PixelRow) (c : Nat) (x : Fin 160) :
    (drawSpriteColumn m p y i row pixels c)[x] =
      if (oamByte m i 1).toNat + c = x.val + 8 then (columnShade m p y x.val i row c).getD pixels[x] else pixels[x] := by
  have hx := x.isLt
  unfold drawSpriteColumn columnShade
  dsimp only
  generalize patternPixel m row (if (oamByte m i 3).getLsbD 5 then 7 - c else c) = idx
  by_cases hat : (oamByte m i 1).toNat + c = x.val + 8
  · have hpixel : (oamByte m i 1).toNat + c - 8 = x.val := by omega
    have hrange : 8 ≤ (oamByte m i 1).toNat + c ∧ (oamByte m i 1).toNat + c ≤ 167 := by omega
    rw [if_pos hat, hpixel]
    simp only [hrange.1, hrange.2, true_and]
    split
    · exact Vector.getElem_setIfInBounds_self hx
    · rfl
  · rw [if_neg hat]
    split
    · next hc => exact Vector.getElem_setIfInBounds_ne hx fun h => hat (by omega)
    · rfl

/-- The columns from the left up to `n` of a sprite. -/
theorem drawSpriteColumns_pixel (row : Nat) (pixels : PixelRow) (x : Fin 160) (n : Nat) :
    ((List.range n).foldl (drawSpriteColumn m p y i row) pixels)[x] =
      if (oamByte m i 1).toNat ≤ x.val + 8 ∧ x.val + 8 - (oamByte m i 1).toNat < n then
        (columnShade m p y x.val i row (x.val + 8 - (oamByte m i 1).toNat)).getD pixels[x]
      else pixels[x] := by
  induction n with
  | zero => simp
  | succ n ih =>
    rw [List.range_succ, List.foldl_append, List.foldl_cons, List.foldl_nil, drawSpriteColumn_pixel, ih]
    by_cases hlast : (oamByte m i 1).toNat + n = x.val + 8
    · rw [if_pos hlast, if_neg (by omega), if_pos (by omega), show x.val + 8 - (oamByte m i 1).toNat = n by omega]
    · rw [if_neg hlast]
      exact if_congr (by omega) rfl rfl

theorem drawSprite_pixel (pixels : PixelRow) (x : Fin 160) :
    (drawSprite m p y pixels i)[x] = (spriteShade m p y x.val i).getD pixels[x] := by
  unfold drawSprite spriteShade
  cases spriteRowAddr m p y i with
  | none => rfl
  | some row =>
    dsimp only
    rw [drawSpriteColumns_pixel]
    split <;> rfl

/-- Drawn from the worst to the best, the best that shows at a pixel is seen there, or the background (R401). -/
theorem drawSprites_pixel (order : List (Fin 40)) (pixels : PixelRow) (x : Fin 160) :
    (order.foldr (fun i pixels => drawSprite m p y pixels i) pixels)[x] =
      (order.findSome? (spriteShade m p y x.val)).getD pixels[x] := by
  induction order with
  | nil => rfl
  | cons j rest ih =>
    rw [List.foldr_cons, drawSprite_pixel, ih, List.findSome?_cons]
    cases spriteShade m p y x.val j <;> rfl

/-! The same in exact integers. -/

theorem spriteOnLine_iff_nat (h : Nat) : spriteOnLine m h y i = true ↔
    (oamByte m i 0).toNat ≤ y + 16 ∧ y + 16 < (oamByte m i 0).toNat + h := by
  rw [spriteOnLine, Bool.and_eq_true, decide_eq_true_eq, decide_eq_true_eq]

/-- The pattern row of a sprite: its own row, flipped or not, in one tile or in two (R401). -/
theorem spriteRowAddr_eq :
    let h := spriteHeight p
    let down := y + 16 - (oamByte m i 0).toNat
    let row := if bitNat (oamByte m i 3) 6 = 1 then h - 1 - down else down
    let tile := if h = 16 then (oamByte m i 2).toNat / 2 * 2 + row / 8 else (oamByte m i 2).toNat
    spriteRowAddr m p y i = if (oamByte m i 0).toNat ≤ y + 16 ∧ y + 16 < (oamByte m i 0).toNat + h then
      some (0x8000 + 16 * tile + 2 * (row % 8)) else none := by
  intro h down row tile
  have hflip : (if (oamByte m i 3).getLsbD 6 then h - 1 - down else down) = row :=
    if_congr (getLsbD_iff_bitNat _ _) rfl rfl
  have hmodel : spriteRowAddr m p y i = if spriteOnLine m h y i then
        if h = 16 then some (0x8000 + 16 * ((oamByte m i 2).toNat / 2 * 2 + row / 8) + 2 * (row % 8))
        else some (0x8000 + 16 * (oamByte m i 2).toNat + 2 * row)
      else none := by rw [← hflip]; rfl
  have hheight : h = 8 ∨ h = 16 := by
    simp only [h, spriteHeight]
    split <;> simp
  rw [hmodel]
  by_cases hon : (oamByte m i 0).toNat ≤ y + 16 ∧ y + 16 < (oamByte m i 0).toNat + h
  · rw [if_pos ((spriteOnLine_iff_nat m y i h).mpr hon), if_pos hon]
    rcases hheight with h8 | h16
    · have hrow : row % 8 = row := by
        have hdown : down < 8 := by omega
        simp only [row]
        split <;> omega
      simp only [tile, h8, hrow, Nat.reduceEqDiff, if_false]
    · simp only [tile, h16, if_true]
  · rw [if_neg (mt (spriteOnLine_iff_nat m y i h).mp hon), if_neg hon]

/-- The bit of a pattern row under column `c`, flipped or not (R401). -/
theorem columnIndex_toNat (row : Nat) {c : Nat} (hc : c < 8) :
    (patternPixel m row (if (oamByte m i 3).getLsbD 5 then 7 - c else c)).toNat =
      2 * bitNat (Memory.read m (row + 1)) (if bitNat (oamByte m i 3) 5 = 1 then c else 7 - c) +
        bitNat (Memory.read m row) (if bitNat (oamByte m i 3) 5 = 1 then c else 7 - c) := by
  have hbit : 7 - (if (oamByte m i 3).getLsbD 5 then 7 - c else c) = if bitNat (oamByte m i 3) 5 = 1 then c else 7 - c := by
    simp only [getLsbD_iff_bitNat]
    split <;> omega
  rw [patternPixel_toNat, hbit]

theorem columnShade_toNat (row : Nat) {c : Nat} (hc : c < 8) (x : Nat) :
    let k := if bitNat (oamByte m i 3) 5 = 1 then c else 7 - c
    let index := 2 * bitNat (Memory.read m (row + 1)) k + bitNat (Memory.read m row) k
    (columnShade m p y x i row c).map BitVec.toNat =
      if index ≠ 0 ∧ (bitNat (oamByte m i 3) 7 = 0 ∨ (specBackground m p y x).1 = 0) then
        some ((if bitNat (oamByte m i 3) 4 = 1 then p.obp1 else p.obp0).toNat / 4 ^ index % 4)
      else none := by
  intro k index
  have hindex := columnIndex_toNat m i row hc
  have hzero (v : BitVec 2) : v = 0#2 ↔ v.toNat = 0 := BitVec.toNat_inj.symm
  rw [specBackground_eq, columnShade]
  dsimp only
  rw [apply_ite (Option.map BitVec.toNat)]
  refine if_congr ?_ ?_ rfl
  · rw [Ne, hzero, hindex, hzero, bitNat_eq_zero_iff]
  · rw [Option.map_some, shadeOf_toNat, hindex]
    simp only [getLsbD_iff_bitNat, k, index]

/-- The exact shade of a sprite is the model's. -/
theorem specSprite_eq (x : Nat) : specSprite m p y x i = (spriteShade m p y x i).map BitVec.toNat := by
  rw [spriteShade, spriteRowAddr_eq, spriteHeight_eq]
  by_cases hline : (oamByte m i 0).toNat ≤ y + 16 ∧
      y + 16 < (oamByte m i 0).toNat + (if bitNat p.lcdc 2 = 1 then 16 else 8)
  · rw [if_pos hline]
    dsimp only
    have hright : x < (oamByte m i 1).toNat ↔ x + 8 - (oamByte m i 1).toNat < 8 := by omega
    by_cases hcol : (oamByte m i 1).toNat ≤ x + 8 ∧ x + 8 - (oamByte m i 1).toNat < 8
    · rw [if_pos hcol, columnShade_toNat m p y i _ hcol.2]
      exact if_pos ⟨hline.1, hline.2, hcol.1, hright.mpr hcol.2⟩
    · rw [if_neg hcol]
      exact if_neg fun ⟨_, _, hleft, hx⟩ => hcol ⟨hleft, hright.mp hx⟩
  · rw [if_neg hline]
    exact if_neg fun ⟨htop, hbottom, _⟩ => hline ⟨htop, hbottom⟩

end

/-! Which sprite is seen (R401, R406, R429). -/

theorem mem_drawOrder (cgb : Option Cgb) (l : List (Fin 40)) (i : Fin 40) : i ∈ drawOrder cgb l ↔ i ∈ l := by
  cases cgb with
  | none => rfl
  | some _ => exact (sortSprites_perm _ l).mem_iff

theorem drawOrder_pairwise {cgb : Option Cgb} (h : cgb ≠ none) (l : List (Fin 40)) :
    (drawOrder cgb l).Pairwise (· ≤ ·) := by
  cases cgb with
  | none => exact absurd rfl h
  | some _ =>
    refine (sortSprites_pairwise (fun i j => ?_) (fun i j k => ?_) l).imp of_decide_eq_true
    · simp only [decide_eq_true_eq]
      omega
    · simp only [decide_eq_true_eq]
      omega

/-- In a sorted list the first hit is the least element that hits. -/
theorem findSome?_of_pairwise_le {α : Type} {f : Fin 40 → Option α} {l : List (Fin 40)} {i : Fin 40} {v : α}
    (hsorted : l.Pairwise (· ≤ ·)) (hi : i ∈ l) (hv : f i = some v) (hless : ∀ j ∈ l, j < i → f j = none) :
    l.findSome? f = some v := by
  induction l with
  | nil => cases hi
  | cons j rest ih =>
    obtain ⟨hj, hrest⟩ := List.pairwise_cons.mp hsorted
    rw [List.findSome?_cons]
    by_cases hji : j = i
    · rw [hji, hv]
    · have hmem : i ∈ rest := (List.mem_cons.mp hi).resolve_left (Ne.symm hji)
      rw [hless j List.mem_cons_self (lt_of_le_of_ne (hj i hmem) hji)]
      exact ih hrest hmem fun k hk => hless k (List.mem_cons_of_mem j hk)

/-- A pixel of a line with sprites on, in exact integers. -/
theorem renderLine_pixel {s : State} {y : Fin 144} (hy : s.ppu.ly.toNat = y.val) (hon : s.ppu.lcdc.getLsbD 1 = true)
    (x : Fin 160) : (renderLine s).ppu.framebuffer[y][x].toNat =
      ((drawOrder s.cgb s.ppu.lineSprites).findSome? (specSprite s.mem s.ppu y.val x.val)).getD
        (specBackground s.mem s.ppu y.val x.val).2 := by
  have hspec : specSprite s.mem s.ppu y.val x.val = Option.map BitVec.toNat ∘ spriteShade s.mem s.ppu y.val x.val :=
    funext fun i => specSprite_eq s.mem s.ppu y.val i x.val
  rw [renderLine_row hy, renderedLine_on hon, drawSprites_pixel, unspritedRow_pixel, specBackground_eq, hspec,
    ← List.map_findSome?, Option.getD_map]

/-- Settles O29: the first sprite of the drawing order that shows at the pixel, which on DMG is the line's list itself. -/
theorem spritePriority : Obligations.SpritePriority := by
  intro s y x hy hon pixel shade
  have hpixel : pixel = ((drawOrder s.cgb s.ppu.lineSprites).findSome? shade).getD
      (specBackground s.mem s.ppu y.val x.val).2 := renderLine_pixel hy hon x
  refine ⟨fun hdmg => ?_, fun hcgb i hi v hv hless => ?_, fun hnone => ?_⟩
  · rw [hpixel, hdmg, drawOrder]
    cases s.ppu.lineSprites.findSome? shade <;> rfl
  · rw [hpixel, findSome?_of_pairwise_le (drawOrder_pairwise hcgb _) ((mem_drawOrder _ _ _).mpr hi) hv
      fun j hj => hless j ((mem_drawOrder _ _ _).mp hj), Option.getD_some]
  · rw [hpixel, List.findSome?_eq_none_iff.mpr fun i hi => hnone i ((mem_drawOrder _ _ _).mp hi), Option.getD_none]

end Sys2Proof.Machine
